-- ==== Sys2Proof/Word.lean ====
section
/-! DEFINITION. The word types of the CORE block (spec/00_scope.md R12: bytes, 16-bit and 32-bit words, bit 0 least significant). -/

namespace Sys2Proof

/-- One byte of a buffer, of the wire or of the command stream. -/
abbrev Byte := BitVec 8

/-- The 16-bit address operand of a data frame (R99, format HD). -/
abbrev Half := BitVec 16

/-- One 32-bit register of the GPIO window, and every 32-bit operand (R24, R99). -/
abbrev Word := BitVec 32

end Sys2Proof
end

