-- ==== Sys2Proof/Config.lean ====
section
/-! DEFINITION. What an implementation of the CORE block fixes (spec/00_scope.md R7, R8) and the free values of the
environment (R9, R45). The numbers R6 fixes and the defaults of R7 stand in Sys2Proof/Machine/Params.lean. -/

namespace Sys2Proof

/-- The eight functions a pin can have (R26). -/
inductive PinFn where
  | inp | out | alt0 | alt1 | alt2 | alt3 | alt4 | alt5
  deriving DecidableEq, Repr, Inhabited

/-- `FSEL_CODE`: the 3-bit code of each pin function (R7, R26). -/
structure FselCodes where
  inp  : BitVec 3
  out  : BitVec 3
  alt0 : BitVec 3
  alt1 : BitVec 3
  alt2 : BitVec 3
  alt3 : BitVec 3
  alt4 : BitVec 3
  alt5 : BitVec 3
  deriving DecidableEq, Repr, Inhabited

/-- The code of one function. -/
def FselCodes.of (c : FselCodes) : PinFn → BitVec 3
  | .inp => c.inp
  | .out => c.out
  | .alt0 => c.alt0
  | .alt1 => c.alt1
  | .alt2 => c.alt2
  | .alt3 => c.alt3
  | .alt4 => c.alt4
  | .alt5 => c.alt5

/-- The parameters the source leaves open (R7), each a named field. They are no state (R47): State carries them in one
field that nothing writes, so that a claim about every state is a claim about every choice of them (log entry 1). -/
structure Config where
  /-- `C`: bytes of the transmit buffer and of the receive buffer. -/
  capacity : Nat
  /-- `NPINS`: pin numbers are 0 to `NPINS - 1`. -/
  npins : Nat
  /-- `PIN_RST`. -/
  pinRst : Nat
  /-- `PIN_SCK`. -/
  pinSck : Nat
  /-- `PIN_AUX`. -/
  pinAux : Nat
  /-- `FSEL_CODE`. -/
  codes : FselCodes
  /-- `FSEL_IDX(0..5)`. -/
  fselIdx : Vector Nat 6
  /-- `SET_IDX`. -/
  setIdx : Nat
  /-- `CLR_IDX`. -/
  clrIdx : Nat
  /-- `GPIO_BASE`: no rule reads it (R71). -/
  gpioBase : Nat
  /-- `RST_DELAY_ITER`: iterations of one busy-wait (R149). -/
  rstDelayIter : Nat
  /-- `SHIFT_MSB_FIRST` (R63). -/
  shiftMsbFirst : Bool
  deriving DecidableEq, Repr

/-- The constraints on the parameters (R8). -/
structure Config.Valid (c : Config) : Prop where
  capacity_pos : 1 ≤ c.capacity
  npins_pos : 1 ≤ c.npins
  npins_le : c.npins ≤ 60
  rst_lt : c.pinRst < c.npins
  sck_lt : c.pinSck < c.npins
  aux_lt : c.pinAux < c.npins
  rst_le : c.pinRst ≤ 31
  sck_le : c.pinSck ≤ 31
  aux_le : c.pinAux ≤ 31
  roles_distinct : [c.pinRst, c.pinSck, c.pinAux].Nodup
  codes_injective : ∀ f g : PinFn, c.codes.of f = c.codes.of g → f = g
  indices_distinct : (c.fselIdx.toList ++ [c.setIdx, c.clrIdx]).Nodup
  indices_lt : ∀ i ∈ c.fselIdx.toList ++ [c.setIdx, c.clrIdx], i < 1024

/-- The three outcomes of one descriptor submission, the environment's choice (R173). -/
inductive SegOutcome where
  | ok | fail | hang
  deriving DecidableEq, Repr, Inhabited

/-- One entry of the descriptor table, with the widths of R31. -/
structure Desc where
  txOff : Word
  rxOff : Word
  len : Word
  delayUs : BitVec 16
  speedHz : Word
  bits : Byte
  deriving DecidableEq, Repr, Inhabited

/-- FREE VALUE: the environment's n-th yes or no, where State lists no answer for it (R9, R10; log entry 2). -/
opaque Config.freeBool : Nat → Bool

/-- FREE VALUE: the outcome of a submission, where State lists none (R173; log entry 2). -/
opaque Config.freeSeg : Nat → SegOutcome

/-- FREE VALUE: how many bytes a failing or hanging descriptor exchanged, where State lists none (R177; log entry 2). -/
opaque Config.freeCount : Nat → Nat

/-- FREE VALUE: a byte the chain sends back, or a byte the spec leaves unspecified (R174, R177; log entry 2). -/
opaque Config.freeByte : Nat → Byte

/-- FREE VALUE: a 32-bit value the spec leaves unspecified (R169, R252; log entry 2). -/
opaque Config.freeWord : Nat → Word

/-- FREE VALUE: the descriptor entries after a close (R181; log entry 2). -/
opaque Config.freeTable : Nat → Vector Desc 16

/-- FREE VALUE: `Config.unwrittenTx e i` is what `TXBUF[i]` holds while nothing has written it since the `e`-th
hardware reset (R45; log entry 3). -/
opaque Config.unwrittenTx : Nat → Nat → Byte

/-- FREE VALUE: the same for `RXBUF[i]` (R45; log entry 3). -/
opaque Config.unwrittenRx : Nat → Nat → Byte

end Sys2Proof
end

