-- ==== Sys2Proof/Machine/Params.lean ====
section
/-! DEFINITION. The parameters spec/00_scope.md R6 fixes, and the defaults R7 gives the open ones. -/

namespace Sys2Proof.Machine

/-- `CHUNK_MAX`: the largest byte count of one descriptor (R6). -/
def chunkMax : Nat := 4096

/-- `XFER_MAX = QUEUE_MAX * CHUNK_MAX`: the largest transfer length (R6). -/
def xferMax : Nat := 65536

/-- `N_PULSES`: pulses of one reset pulse train (R6). -/
def nPulses : Nat := 16

/-- The `N_CFG` configuration steps of one transfer, in their order (R6, R166). -/
def cfgSteps : List Nat := [0, 1, 2, 3]

/-- `SPI_MODE_VAL` (R6). -/
def spiModeVal : Byte := 0

/-- `SPI_BITS_VAL` (R6). -/
def spiBitsVal : Byte := 8

/-- `SPI_SPEED_VAL`, in Hz (R6). -/
def spiSpeedVal : Word := 2000000

/-- `SEG_DELAY_US` (R6). -/
def segDelayUs : BitVec 16 := 1

/-- `OP_NOP` (R6). -/
def opNop : Byte := 0x00

/-- `OP_BREAK` (R6). -/
def opBreak : Byte := 0x04

/-- `OP_FASYNC` (R6). -/
def opFasync : Byte := 0x05

/-- `OP_FSYNC` (R6). -/
def opFsync : Byte := 0x06

/-- `TAG_DATA` (R6). -/
def tagData : Byte := 0xE0

/-- `DATA_LEN_MIN` (R6). -/
def dataLenMin : Nat := 4

/-- `DATA_LEN_MAX` (R6). -/
def dataLenMax : Nat := 128

/-- `WORD_BYTES` (R6). -/
def wordLen : Nat := 4

/-- The default codes of R7 and R26. -/
def defaultCodes : FselCodes :=
  { inp := 0b000, out := 0b001, alt0 := 0b100, alt1 := 0b101, alt2 := 0b110, alt3 := 0b111, alt4 := 0b011, alt5 := 0b010 }

/-- The defaults of R7. R7 leaves `GPIO_BASE` and `RST_DELAY_ITER` open: their values here are placeholders no rule
depends on (DESIGN CHOICE, log entry 1). -/
def defaultConfig : Config :=
  { capacity := 262144
    npins := 54
    pinRst := 10
    pinSck := 11
    pinAux := 9
    codes := defaultCodes
    fselIdx := #v[0, 1, 2, 3, 4, 5]
    setIdx := 7
    clrIdx := 10
    gpioBase := 0
    rstDelayIter := 0
    shiftMsbFirst := true }

end Sys2Proof.Machine
end

