-- ==== Sys2Proof/Syntax.lean ====
section
/-! DEFINITION. One constructor per row of spec/opcode_table.json: the five wire frames of spec/30_encoding.md R91 and
R92, and the sixteen host commands of R100. -/

namespace Sys2Proof

/-- The rows of the opcode table. A wire constructor is a FRAME, the unit the encoder commands put into the transmit
buffer (R90 (1)); every other constructor is a host COMMAND with its operands (R90 (2), R101). -/
inductive Instr where
  /-- Wire frame NOP, 0x00 (R91). -/
  | wireNop
  /-- Wire frame BREAK, 0x04 (R91). -/
  | wireBreak
  /-- Wire frame FASYNC, 0x05 (R91). -/
  | wireFasync
  /-- Wire frame FSYNC, 0x06 (R91). -/
  | wireFsync
  /-- Wire frame DATA (R92): `wcm1` is the word count less one, `payload` the supplied bytes, before their reversal (R94). -/
  | wireData (wcm1 : BitVec 5) (addr : Half) (payload : List Byte)
  /-- `INIT` (R121). -/
  | init
  /-- `PIN_INP pin` (R123). -/
  | pinInp (pin : Byte)
  /-- `PIN_OUT pin` (R124). -/
  | pinOut (pin : Byte)
  /-- `PIN_ALT pin, alt` (R125). -/
  | pinAlt (pin : Byte) (alt : Byte)
  /-- `PIN_SET mask` (R126). -/
  | pinSet (mask : Word)
  /-- `PIN_CLR mask` (R127). -/
  | pinClr (mask : Word)
  /-- `RESET_SEQ` (R141). -/
  | resetSeq
  /-- `TRANSFER len` (R160). -/
  | transfer (len : Word)
  /-- `CLEAR` (R190). -/
  | clear
  /-- `APPEND n, data` (R194). -/
  | append (n : Word) (data : List Byte)
  /-- `APPEND_REV n, data` (R196). -/
  | appendRev (n : Word) (data : List Byte)
  /-- `EMIT_BREAK` (R198). -/
  | emitBreak
  /-- `EMIT_FSYNC` (R199). -/
  | emitFsync
  /-- `EMIT_FASYNC n` (R201). -/
  | emitFasync (n : Word)
  /-- `EMIT_NOP n` (R202). -/
  | emitNop (n : Word)
  /-- `EMIT_DATA addr, len, payload` (R205). -/
  | emitData (addr : Half) (len : Word) (payload : List Byte)
  deriving DecidableEq, Repr

end Sys2Proof
end

