-- ==== Sys2Proof/Machine/State.lean ====
section
/-! DEFINITION. The state of the CORE block (spec/10_state.md R20) as plain data, the reasons a step stops, and the state
after hardware reset (R44). -/

namespace Sys2Proof.Machine

/-- A buffer's written bytes as (index, byte) pairs, indices strictly rising. An index not listed holds no written byte
(R45). -/
abbrev Memory := List Host.Cell

/-- The events of the trace `T` (R11). -/
inductive Event where
  /-- `EvMap(ok)`. -/
  | map (ok : Bool)
  /-- `EvGpioW(idx, v)`. -/
  | gpioW (idx : Nat) (v : Word)
  /-- `EvDelay`. -/
  | delay
  /-- `EvSpiOpen(ok)`. -/
  | spiOpen (ok : Bool)
  /-- `EvSpiCfg(i, ok)`. -/
  | spiCfg (i : Nat) (ok : Bool)
  /-- `EvSpiSeg(k, off, len, ok)`. -/
  | spiSeg (k off len : Nat) (ok : Bool)
  /-- `EvSpiByte(out, in)`. -/
  | spiByte (sent received : Byte)
  /-- `EvSegDelay`. -/
  | segDelay
  /-- `EvSpiClose`. -/
  | spiClose
  deriving DecidableEq, Repr

/-- The faults a command can raise, each with the `info` the model records (R221, R230). -/
inductive Raised where
  /-- A window command with `MAPPED = 0` (R231). -/
  | unmappedAccess
  /-- `TRANSFER` with `len > min(XFER_MAX, C)` (R232). -/
  | transferTooLong (len : Word)
  /-- An opcode byte that R100 does not list (R233). -/
  | illegalCommand (op : Byte)
  /-- A pin number `>= NPINS` or an alternate-function number `> 5` (R232). -/
  | illegalOperand
  /-- The stream ends inside a command (R233). -/
  | truncatedCommand
  deriving DecidableEq, Repr

/-- Why the machine stops for good. -/
inductive Fault where
  /-- Raised by `step` in a state with `FAULTED = 1`: an earlier command ended `fault` and the run is over (R22, R230);
  `what` is the recorded fault. Safe: the spec gives the run no further step. -/
  | runOver (what : Option Raised)
  /-- Raised by `exec` and `step` while a submission hangs: the command never ends and the host stays blocked (R178).
  Safe: the spec gives no further step but hardware reset. -/
  | hung
  deriving DecidableEq, Repr

/-- Why an instruction has no step. -/
inductive Refusal where
  /-- Raised by `exec` for an instruction not modelled yet; no arm does. Safe. -/
  | notModelled (mnemonic : String)
  /-- Raised by `exec` and `step` in a state with `HALTED = 1`: every command is refused (R228). Safe: the spec gives a
  halted state no step. -/
  | halted
  deriving DecidableEq, Repr

/-- The working registers of R21 other than `DESC_CNT`. No value of theirs passes from one command to the next. -/
structure Work where
  /-- `PULSE_I`: pulses done. -/
  pulseI : Nat
  /-- `DLY_I`: busy-wait iterations done. -/
  dlyI : Nat
  /-- `CHUNK_I`: descriptors submitted. -/
  chunkI : Nat
  /-- `BYTE_I`: bytes exchanged in the current descriptor. -/
  byteI : Nat
  /-- `REP_I`: copies emitted. -/
  repI : Nat
  /-- `SHIFT_OUT`: the word being sent. -/
  shiftOut : Byte
  /-- `SHIFT_IN`: the word being received. -/
  shiftIn : Byte
  deriving DecidableEq, Repr

/-- The environment's answers still to come, one queue per kind of draw (R9, R10); the model's own field. An empty queue
answers with the free value of Config at the number of draws made so far (log entry 2). -/
structure Env where
  /-- `map_ok` of `INIT`. -/
  mapOk : List Bool
  /-- `open_ok` of `TRANSFER`. -/
  openOk : List Bool
  /-- `cfg_ok`, one for each configuration step attempted. -/
  cfgOk : List Bool
  /-- `out`, one for each descriptor submitted. -/
  seg : List SegOutcome
  /-- How many bytes a descriptor that fails or hangs has exchanged (R177). -/
  sent : List Nat
  /-- The bytes the chain sends back. -/
  rx : List Byte
  /-- Bytes that become unspecified. -/
  anyByte : List Byte
  /-- Registers that become unspecified. -/
  anyWord : List Word
  /-- Descriptor tables that become unspecified. -/
  anyTable : List (Vector Desc 16)
  /-- How many draws have been made. -/
  drawn : Nat
  deriving DecidableEq, Repr

/-- The state of the block (R20), with the model's own record of the run after it. -/
@[ext]
structure State where
  /-- The parameters of R7: no state, and written by nothing (R47). -/
  cfg : Config
  /-- `MAPPED` (R23). -/
  mapped : Bool
  /-- `SPI_OPEN` (R23). -/
  spiOpen : Bool
  /-- `HALTED` (R23). -/
  halted : Bool
  /-- `FAULTED` (R23). -/
  faulted : Bool
  /-- `FSEL[0..5]` (R25). -/
  fsel : Vector Word 6
  /-- `LATCH` (R28). -/
  latch : Word
  /-- `SPI_MODE` (R30). -/
  spiMode : Byte
  /-- `SPI_BITS` (R30). -/
  spiBits : Byte
  /-- `SPI_SPEED` (R30). -/
  spiSpeed : Word
  /-- `DESC[0..15]` (R31). -/
  desc : Vector Desc 16
  /-- `DESC_CNT` (R31). -/
  descCnt : Nat
  /-- `TXBUF` (R32). -/
  txbuf : Memory
  /-- `TXLEN` (R33). -/
  txlen : Nat
  /-- `RXBUF` (R34). -/
  rxbuf : Memory
  /-- `RESULT`, 32 bits, two's complement (R41). -/
  result : Word
  /-- `CAUSE` (R42). -/
  cause : Byte
  /-- The working registers (R21). -/
  work : Work
  /-- `pc`: the index of the next command (R22). -/
  pc : Nat
  /-- The host's command stream (R98). -/
  stream : List Byte
  /-- The byte position of command `pc` in the stream (R22). -/
  pos : Nat
  /-- The trace `T` (R11). -/
  trace : List Event
  /-- The fault and its information, as `raise` records them (R230). -/
  faultRec : Option Raised
  /-- The model's own: a submission of the running `TRANSFER` never returns (R178). -/
  hung : Bool
  /-- The model's own: the outside asks for a hardware reset (R250). -/
  resetReq : Bool
  /-- The model's own: hardware resets so far, which index the unspecified buffer contents (R45). -/
  epoch : Nat
  /-- The model's own: the environment's answers to come (R9). -/
  env : Env
  deriving DecidableEq, Repr

/-- An environment that has listed no answer. -/
def Env.silent : Env :=
  { mapOk := [], openOk := [], cfgOk := [], seg := [], sent := [], rx := [], anyByte := [], anyWord := [], anyTable := [], drawn := 0 }

/-- Working registers at zero: R44 gives them no reset value (DESIGN CHOICE, log entry 4). -/
def Work.zero : Work :=
  { pulseI := 0, dlyI := 0, chunkI := 0, byteI := 0, repI := 0, shiftOut := 0, shiftIn := 0 }

/-- A descriptor entry at zero: R44 gives the entries no reset value (DESIGN CHOICE, log entry 4). -/
def Desc.zero : Desc := { txOff := 0, rxOff := 0, len := 0, delayUs := 0, speedHz := 0, bits := 0 }

/-- The block right after hardware reset (R44). `FSEL`, `LATCH`, the serial registers, the descriptor entries and the
working registers have no reset value in the spec and hold zero here (DESIGN CHOICE, log entry 4); the parameters are the
defaults of R7 (log entry 1); no command has been given and nothing has been written to the buffers. -/
def State.reset : State :=
  { cfg := defaultConfig
    mapped := false
    spiOpen := false
    halted := false
    faulted := false
    fsel := Vector.replicate 6 0
    latch := 0
    spiMode := 0
    spiBits := 0
    spiSpeed := 0
    desc := Vector.replicate 16 Desc.zero
    descCnt := 0
    txbuf := []
    txlen := 0
    rxbuf := []
    result := 0
    cause := 0
    work := Work.zero
    pc := 0
    stream := []
    pos := 0
    trace := []
    faultRec := none
    hung := false
    resetReq := false
    epoch := 0
    env := Env.silent }

end Sys2Proof.Machine
end

