-- ==== Sys2Proof/Machine/Flags.lean ====
section
/-! DEFINITION. The flags of spec/10_state.md R23 and the cause codes of spec/60_exceptions.md R221. -/

namespace Sys2Proof.Machine

/-- `E_MAP` (R221). -/
def causeMap : Byte := 1

/-- `E_OPEN` (R221). -/
def causeOpen : Byte := 2

/-- `E_CFG` (R221). -/
def causeCfg : Byte := 3

/-- `E_XFER` (R221). -/
def causeXfer : Byte := 4

/-- The cause code of a raised fault (R221). -/
def Raised.code : Raised → Byte
  | .unmappedAccess => 16
  | .transferTooLong _ => 17
  | .illegalCommand _ => 18
  | .illegalOperand => 19
  | .truncatedCommand => 20

/-- `MAPPED <- ok` (R121). -/
def State.setMapped (s : State) (ok : Bool) : State := { s with mapped := ok }

/-- `SPI_OPEN <- v` (R165, R181). -/
def State.setSpiOpen (s : State) (v : Bool) : State := { s with spiOpen := v }

/-- `CAUSE <- c` (R42). -/
def State.setCause (s : State) (c : Byte) : State := { s with cause := c }

/-- `RESULT <- v` (R41). -/
def State.setResult (s : State) (v : Word) : State := { s with result := v }

/-- The `fatal` outcome: `HALTED <- 1`, `CAUSE <- E_OPEN`, nothing else (R229). -/
def State.halt (s : State) : State := { s with halted := true, cause := causeOpen }

/-- The record of a submission that never returns (R178). -/
def State.hang (s : State) : State := { s with hung := true }

end Sys2Proof.Machine
end

