-- ==== Sys2Proof/WellFormed.lean ====
section
/-! DEFINITION. Which terms of Instr an encoding stands for: the byte strings have the length their count announces
(spec/30_encoding.md R92, R99, R101). Every other operand value is decoded normally (R102). -/

namespace Sys2Proof

/-- A payload of `4 * wc` bytes (R92), data of `n` bytes (R99, format HB), a payload of `len` bytes (R99, format HD). -/
def Instr.wf : Instr → Bool
  | .wireData wcm1 _ payload => payload.length == 4 * (wcm1.toNat + 1)
  | .append n data => data.length == n.toNat
  | .appendRev n data => data.length == n.toNat
  | .emitData _ len payload => payload.length == len.toNat
  | .wireNop | .wireBreak | .wireFasync | .wireFsync => true
  | .init | .pinInp _ | .pinOut _ | .pinAlt _ _ | .pinSet _ | .pinClr _ => true
  | .resetSeq | .transfer _ | .clear => true
  | .emitBreak | .emitFsync | .emitFasync _ | .emitNop _ => true

end Sys2Proof
end

