-- ==== Sys2Proof/Decode.lean ====
section
/-! DEFINITION. The two decoders and the encoder (spec/30_encoding.md): the wire frame reader (R91 to R96), the host
command stream (R98 to R103), and the encoder of both. Written from R91, R92, R99 and R100. -/

namespace Sys2Proof

/-! ## Bit and byte helpers -/

/-- `rev8`: bit `i` of the result is bit `7 - i` of the byte (R195). -/
def rev8 (b : Byte) : Byte := b.reverse

/-- The 16-bit value of two bytes, high byte first (R62, R65). -/
def half (b1 b2 : Byte) : Half := b1 ++ b2

/-- The 32-bit value of four bytes, high byte first (R65, R101). -/
def word (b1 b2 b3 b4 : Byte) : Word := b1 ++ b2 ++ b3 ++ b4

/-- The two bytes of a 16-bit value, high byte first (R62). -/
def halfBytes (v : Half) : List Byte := [v.extractLsb' 8 8, v.extractLsb' 0 8]

/-- The four bytes of a 32-bit value, high byte first (R65). -/
def wordBytes (v : Word) : List Byte :=
  [v.extractLsb' 24 8, v.extractLsb' 16 8, v.extractLsb' 8 8, v.extractLsb' 0 8]

/-! ## Results of reading -/

/-- What reading from the start of a byte string yields (R103): one instruction and the rest, an opcode byte that R100
does not list, a command whose operands the stream ends inside of, or the end of the stream. -/
inductive Decoded where
  | instr (i : Instr) (rest : List Byte)
  | illegal (op : Byte)
  | truncated
  | endOfStream
  deriving DecidableEq, Repr

/-! ## Wire frames -/

/-- The header byte of a DATA frame: `tag = 0b111` over `wcm1` (R92, R94). -/
def dataHeader (wcm1 : BitVec 5) : Byte := 0b111#3 ++ wcm1

/-- The length of the frame a first byte begins, from that byte alone; `none` for an unassigned byte (R96). -/
def frameLength (b : Byte) : Option Nat :=
  if b = 0x00#8 ∨ b = 0x04#8 ∨ b = 0x05#8 ∨ b = 0x06#8 then some 1
  else if b &&& 0xE0#8 = 0xE0#8 then some (3 + 4 * ((b &&& 0x1F#8).toNat + 1))
  else none

/-- The payload part of a DATA frame: address, then `4 * wc` reversed bytes (R92, R94). -/
def readData (wcm1 : BitVec 5) : List Byte → Decoded
  | hi :: lo :: rest =>
    if rest.length < 4 * (wcm1.toNat + 1) then .truncated
    else .instr (.wireData wcm1 (half hi lo) ((rest.take (4 * (wcm1.toNat + 1))).map rev8))
      (rest.drop (4 * (wcm1.toNat + 1)))
  | _ => .truncated

/-- Read one wire frame (R93): each marker with mask 0xFF, DATA with mask 0xE0 and match 0xE0. -/
def decodeFrame : List Byte → Decoded
  | [] => .endOfStream
  | b :: rest =>
    if b = 0x00#8 then .instr .wireNop rest
    else if b = 0x04#8 then .instr .wireBreak rest
    else if b = 0x05#8 then .instr .wireFasync rest
    else if b = 0x06#8 then .instr .wireFsync rest
    else if b &&& 0xE0#8 = 0xE0#8 then readData (b.extractLsb' 0 5) rest
    else .illegal b

/-- Read frames from a frame boundary, at most `fuel` of them: the frames and how the reading ended (R96). -/
def decodeFrames : Nat → List Byte → List Instr × Decoded
  | 0, _ => ([], .endOfStream)
  | fuel + 1, bs =>
    match decodeFrame bs with
    | .instr i rest => (i :: (decodeFrames fuel rest).1, (decodeFrames fuel rest).2)
    | d => ([], d)

/-! ## Host commands -/

/-- Format HP: one pin byte (R99). -/
def readPin (mk : Byte → Instr) : List Byte → Decoded
  | pin :: rest => .instr (mk pin) rest
  | _ => .truncated

/-- Format HPA: a pin byte and an alternate-function byte (R99). -/
def readPinAlt (mk : Byte → Byte → Instr) : List Byte → Decoded
  | pin :: alt :: rest => .instr (mk pin alt) rest
  | _ => .truncated

/-- Formats HM and HN: one 32-bit operand (R99). -/
def readWord (mk : Word → Instr) : List Byte → Decoded
  | b1 :: b2 :: b3 :: b4 :: rest => .instr (mk (word b1 b2 b3 b4)) rest
  | _ => .truncated

/-- `n` bytes of operand, or truncation where the stream holds fewer (R102). -/
def readBytes (n : Nat) (mk : List Byte → Instr) (bs : List Byte) : Decoded :=
  if bs.length < n then .truncated else .instr (mk (bs.take n)) (bs.drop n)

/-- Format HB: a count and that many bytes (R99). -/
def readBlock (mk : Word → List Byte → Instr) : List Byte → Decoded
  | b1 :: b2 :: b3 :: b4 :: rest => readBytes (word b1 b2 b3 b4).toNat (mk (word b1 b2 b3 b4)) rest
  | _ => .truncated

/-- Format HD: address, length and payload; the payload is read whether or not the command then rejects the length
(R99, R101). -/
def readAddressed (mk : Half → Word → List Byte → Instr) : List Byte → Decoded
  | a1 :: a2 :: b1 :: b2 :: b3 :: b4 :: rest =>
    readBytes (word b1 b2 b3 b4).toNat (mk (half a1 a2) (word b1 b2 b3 b4)) rest
  | _ => .truncated

/-- An opcode byte and what follows it (R100); `illegal` for a byte the map does not list, with no operand read (R102). -/
def decodeCommand (op : Byte) (rest : List Byte) : Decoded :=
  if op = 0x10#8 then .instr .init rest
  else if op = 0x11#8 then readPin .pinInp rest
  else if op = 0x12#8 then readPin .pinOut rest
  else if op = 0x13#8 then readPinAlt .pinAlt rest
  else if op = 0x14#8 then readWord .pinSet rest
  else if op = 0x15#8 then readWord .pinClr rest
  else if op = 0x20#8 then .instr .resetSeq rest
  else if op = 0x30#8 then readWord .transfer rest
  else if op = 0x40#8 then .instr .clear rest
  else if op = 0x41#8 then readBlock .append rest
  else if op = 0x42#8 then readBlock .appendRev rest
  else if op = 0x43#8 then .instr .emitBreak rest
  else if op = 0x44#8 then .instr .emitFsync rest
  else if op = 0x45#8 then readWord .emitFasync rest
  else if op = 0x46#8 then readWord .emitNop rest
  else if op = 0x47#8 then readAddressed .emitData rest
  else .illegal op

/-- Read one row of the opcode table from the start of a byte string. The opcodes of the two spaces do not meet (R100),
so a byte the command map does not list is tried as the first byte of a whole wire frame; what is no frame either is an
illegal opcode. A frame met where a command is due is no command: its meaning is the `IllegalCommand` fault (R102, log
entry 6). -/
def decode : List Byte → Decoded
  | [] => .endOfStream
  | op :: rest =>
    match decodeCommand op rest with
    | .illegal _ =>
      match decodeFrame (op :: rest) with
      | .instr i rest' => .instr i rest'
      | _ => .illegal op
    | d => d

/-- Whether a row is a host command (R90 (2)) rather than a wire frame (R90 (1)). -/
def Instr.isCommand : Instr → Bool
  | .wireNop | .wireBreak | .wireFasync | .wireFsync | .wireData _ _ _ => false
  | _ => true

/-- The list of commands a byte string holds and how the reading ends (R103), at most `fuel` commands: reading stops at
the end of the stream, at an illegal opcode (a wire frame's first byte is one) or inside a truncated command. -/
def decodeStream : Nat → List Byte → List Instr × Decoded
  | 0, _ => ([], .endOfStream)
  | _ + 1, [] => ([], .endOfStream)
  | fuel + 1, op :: rest =>
    match decodeCommand op rest with
    | .instr i rest' => (i :: (decodeStream fuel rest').1, (decodeStream fuel rest').2)
    | d => ([], d)

/-! ## The encoder -/

/-- The bytes of a well-formed instruction (R91, R92, R99, R100). -/
def encode : Instr → List Byte
  | .wireNop => [0x00#8]
  | .wireBreak => [0x04#8]
  | .wireFasync => [0x05#8]
  | .wireFsync => [0x06#8]
  | .wireData wcm1 addr payload => dataHeader wcm1 :: (halfBytes addr ++ payload.map rev8)
  | .init => [0x10#8]
  | .pinInp pin => [0x11#8, pin]
  | .pinOut pin => [0x12#8, pin]
  | .pinAlt pin alt => [0x13#8, pin, alt]
  | .pinSet mask => 0x14#8 :: wordBytes mask
  | .pinClr mask => 0x15#8 :: wordBytes mask
  | .resetSeq => [0x20#8]
  | .transfer len => 0x30#8 :: wordBytes len
  | .clear => [0x40#8]
  | .append n data => 0x41#8 :: (wordBytes n ++ data)
  | .appendRev n data => 0x42#8 :: (wordBytes n ++ data)
  | .emitBreak => [0x43#8]
  | .emitFsync => [0x44#8]
  | .emitFasync n => 0x45#8 :: wordBytes n
  | .emitNop n => 0x46#8 :: wordBytes n
  | .emitData addr len payload => 0x47#8 :: (halfBytes addr ++ wordBytes len ++ payload)

/-- The length of an encoding in bytes (R96, R99). -/
def Instr.byteLength : Instr → Nat
  | .wireNop | .wireBreak | .wireFasync | .wireFsync => 1
  | .wireData wcm1 _ _ => 3 + 4 * (wcm1.toNat + 1)
  | .init | .resetSeq | .clear | .emitBreak | .emitFsync => 1
  | .pinInp _ | .pinOut _ => 2
  | .pinAlt _ _ => 3
  | .pinSet _ | .pinClr _ | .transfer _ | .emitFasync _ | .emitNop _ => 5
  | .append n _ | .appendRev n _ => 5 + n.toNat
  | .emitData _ len _ => 7 + len.toNat

/-! ## The opcode table's numbering -/

/-- The first `n` bytes of an instruction whose bits are `w`, bit 0 the least significant bit of the first byte. -/
def tableBytes : Nat → Nat → List Byte
  | 0, _ => []
  | n + 1, w => BitVec.ofNat 8 w :: tableBytes n (w / 256)

/-- How many operand bytes the count field of a format HB or HD command announces, bytes past the end read as zero. -/
def announced (bs : List Byte) : Nat :=
  if bs[0]? = some 0x41#8 ∨ bs[0]? = some 0x42#8 then
    (word (bs.getD 1 0) (bs.getD 2 0) (bs.getD 3 0) (bs.getD 4 0)).toNat
  else if bs[0]? = some 0x47#8 then
    (word (bs.getD 3 0) (bs.getD 4 0) (bs.getD 5 0) (bs.getD 6 0)).toNat
  else 0

/-- Those bytes with every bit above them zero, as far as the longest instruction they can begin: 131 bytes for a frame,
7 and the announced count for a command. -/
def tablePadded (nbits w : Nat) : List Byte :=
  let bs := tableBytes (nbits / 8) w
  bs ++ List.replicate (131 + announced bs) 0#8

/-- The instruction the decoder reads from a row's bits. -/
def decodeTableWord (nbits w : Nat) : Option Instr :=
  match decode (tablePadded nbits w) with
  | .instr i _ => some i
  | _ => none

/-- The bytes of that instruction alone: what `decode` consumed, or the table's own bytes where it reads none. -/
def tableInstrBytes (nbits w : Nat) : List Byte :=
  match decode (tablePadded nbits w) with
  | .instr _ rest => (tablePadded nbits w).take ((tablePadded nbits w).length - rest.length)
  | _ => tableBytes (nbits / 8) w

end Sys2Proof
end

