-- ==== Sys2Proof/Machine/Operands.lean ====
section
/-! DEFINITION. Operand forms: pins and functions, data-frame lengths and headers, chunk lengths, encoded lengths. -/

namespace Sys2Proof.Machine

/-- `1 << p` on 32 bits (R15 (6), R126). -/
def pinBit (p : Nat) : Word := 1#32 <<< p

/-- The function register that holds pin `p`'s field (R25). -/
def fselReg (p : Nat) : Nat := p / 10

/-- The lowest bit of pin `p`'s field (R25, log entry 13). -/
def fselShift (p : Nat) : Nat := 3 * (p % 10)

/-- A function register with pin `p`'s field replaced by a code (R120). -/
def withField (old : Word) (p : Nat) (code : BitVec 3) : Word :=
  (old &&& ~~~(7#32 <<< fselShift p)) ||| (code.setWidth 32 <<< fselShift p)

/-- Pin `p`'s field of a function register (R13). -/
def fieldOf (v : Word) (p : Nat) : BitVec 3 := v.extractLsb' (fselShift p) 3

/-- The function an alternate-function operand names; none above 5 (R125). -/
def altFn (alt : Byte) : Option PinFn :=
  if alt = 0 then some .alt0
  else if alt = 1 then some .alt1
  else if alt = 2 then some .alt2
  else if alt = 3 then some .alt3
  else if alt = 4 then some .alt4
  else if alt = 5 then some .alt5
  else none

/-- The largest legal `len` of `TRANSFER`: `min(XFER_MAX, C)` (R161). -/
def xferBound (c : Config) : Nat := min xferMax c.capacity

/-- A length is valid for a data frame (R204). -/
def validDataLen (len : Nat) : Bool :=
  decide (dataLenMin ≤ len) && decide (len ≤ dataLenMax) && len % wordLen == 0

/-- The header of a data frame for a valid length: `(wc - 1) | 0xE0`, then the address, high byte first (R205, R207). -/
def dataFrameHeader (addr : Half) (len : Nat) : List Byte :=
  (BitVec.ofNat 8 (len / wordLen - 1) ||| tagData) :: halfBytes addr

/-- The lengths of the descriptors of a transfer, in order (R170). -/
def chunkLens (len : Nat) : List Nat :=
  List.replicate (len / chunkMax) chunkMax ++ (if len % chunkMax = 0 then [] else [len % chunkMax])

/-- Descriptor `k` of length `l` (R170). -/
def descOf (k l : Nat) : Desc :=
  { txOff := BitVec.ofNat 32 (chunkMax * k)
    rxOff := BitVec.ofNat 32 (chunkMax * k)
    len := BitVec.ofNat 32 l
    delayUs := segDelayUs
    speedHz := spiSpeedVal
    bits := spiBitsVal }

/-- The encoded length of a command of format H0 (R99). -/
def lenH0 : Nat := 1

/-- Format HP (R99). -/
def lenHP : Nat := 2

/-- Format HPA (R99). -/
def lenHPA : Nat := 3

/-- Format HM (R99). -/
def lenHM : Nat := 5

/-- Format HN (R99). -/
def lenHN : Nat := 5

/-- Format HB with a count of `n` (R99). -/
def lenHB (n : Word) : Nat := 5 + n.toNat

/-- Format HD with a length of `len` (R99). -/
def lenHD (len : Word) : Nat := 7 + len.toNat

end Sys2Proof.Machine
end

