-- ==== Sys2Proof/Machine/Ops.lean ====
section
/-! DEFINITION. The named operations every meaning is built from: buffers, the GPIO window, the trace, the draws, how a
command ends, and the raising of a fault. -/

namespace Sys2Proof.Machine

/-! ## Buffers as memories -/

/-- The byte written at an index, if any. -/
def Memory.read : Memory → Nat → Option Byte
  | [], _ => none
  | (k, v) :: m, a => if a = k then some v else Memory.read m a

/-- Write one byte, keeping the indices strictly rising. -/
def Memory.write : Memory → Nat → Byte → Memory
  | [], a, b => [(a, b)]
  | (k, v) :: m, a, b =>
    if a < k then (a, b) :: (k, v) :: m
    else if a = k then (a, b) :: m
    else (k, v) :: Memory.write m a b

/-- Write a byte string from an index upward, lowest index first. -/
def Memory.writeBytes : Memory → Nat → List Byte → Memory
  | m, _, [] => m
  | m, a, b :: bs => Memory.writeBytes (Memory.write m a b) (a + 1) bs

/-- The canonical form: indices strictly rising, so that equal buffers are equal lists. -/
abbrev Memory.wf (m : Memory) : Prop := m.Pairwise (fun x y => x.1 < y.1)

/-- `TXBUF[i]`: the byte last written, or, while nothing has written it since reset, an unspecified one (R36, R45). -/
def State.txByte (s : State) (i : Nat) : Byte :=
  (Memory.read s.txbuf i).getD (Config.unwrittenTx s.epoch i)

/-- `RXBUF[i]`, in the same way (R34, R45). -/
def State.rxByte (s : State) (i : Nat) : Byte :=
  (Memory.read s.rxbuf i).getD (Config.unwrittenRx s.epoch i)

/-- `RXBUF[i] <- b` (R174). -/
def State.writeRx (s : State) (i : Nat) (b : Byte) : State :=
  { s with rxbuf := Memory.write s.rxbuf i b }

/-- Procedure `Append(bs)`: the whole string is stored from `TXLEN` if `TXLEN + |bs| < C`, and otherwise dropped (R191,
R193). -/
def State.append (s : State) (bs : List Byte) : State :=
  if s.txlen + bs.length ≥ s.cfg.capacity then s
  else { s with txbuf := Memory.writeBytes s.txbuf s.txlen bs, txlen := s.txlen + bs.length }

/-- Procedure `AppendRev(bs)` (R191). -/
def State.appendRev (s : State) (bs : List Byte) : State := s.append (bs.map rev8)

/-- `n` single-byte appends, each under the capacity rule (R200). -/
def State.emitCopies (s : State) (b : Byte) : Nat → State
  | 0 => s
  | n + 1 => (State.emitCopies s b n).append [b]

/-! ## The trace and the GPIO window -/

/-- `emit ev` (R13). -/
def State.emit (s : State) (e : Event) : State := { s with trace := s.trace ++ [e] }

/-- `FSEL[k]` (log entry 20 for `k` above 5). -/
def State.fselAt (s : State) (k : Nat) : Word := s.fsel[k]?.getD 0

/-- `field(p)`: the function field of pin `p` (R13). -/
def State.field (s : State) (p : Nat) : BitVec 3 := fieldOf (s.fselAt (fselReg p)) p

/-- `GPIO[FSEL_IDX(k)] <- v`, a write of the whole register (R68). -/
def State.writeFsel (s : State) (k : Nat) (v : Word) : State :=
  State.emit { s with fsel := s.fsel.setIfInBounds k v } (.gpioW (s.cfg.fselIdx[k]?.getD 0) v)

/-- `GPIO[SET_IDX] <- m`: raises the latch bits of the mask at once (R27, R69). -/
def State.writeSet (s : State) (m : Word) : State :=
  State.emit { s with latch := s.latch ||| m } (.gpioW s.cfg.setIdx m)

/-- `GPIO[CLR_IDX] <- m`: lowers the latch bits of the mask at once (R27, R69). -/
def State.writeClr (s : State) (m : Word) : State :=
  State.emit { s with latch := s.latch &&& ~~~m } (.gpioW s.cfg.clrIdx m)

/-- Procedure `SetFn(p, f)`: read the register, replace the field, write it back (R120). -/
def State.setFn (s : State) (p : Nat) (f : PinFn) : State :=
  s.writeFsel (fselReg p) (withField (s.fselAt (fselReg p)) p (s.cfg.codes.of f))

/-! ## Draws: each a value and the state with that answer taken (R9, R13) -/

/-- `map_ok`. -/
def State.nextMap (s : State) : Bool := s.env.mapOk.headD (Config.freeBool s.env.drawn)
/-- `open_ok`. -/
def State.nextOpen (s : State) : Bool := s.env.openOk.headD (Config.freeBool s.env.drawn)
/-- `cfg_ok`. -/
def State.nextCfg (s : State) : Bool := s.env.cfgOk.headD (Config.freeBool s.env.drawn)
/-- `out`. -/
def State.nextSeg (s : State) : SegOutcome := s.env.seg.headD (Config.freeSeg s.env.drawn)
/-- `p` of R177, before its bound. -/
def State.nextSent (s : State) : Nat := s.env.sent.headD (Config.freeCount s.env.drawn)
/-- `r`, the byte the chain sends back. -/
def State.nextRx (s : State) : Byte := s.env.rx.headD (Config.freeByte s.env.drawn)
/-- A byte that becomes unspecified. -/
def State.nextByte (s : State) : Byte := s.env.anyByte.headD (Config.freeByte s.env.drawn)
/-- A register that becomes unspecified. -/
def State.nextWord (s : State) : Word := s.env.anyWord.headD (Config.freeWord s.env.drawn)
/-- A descriptor table that becomes unspecified. -/
def State.nextTable (s : State) : Vector Desc 16 := s.env.anyTable.headD (Config.freeTable s.env.drawn)

/-- Take the answer `map_ok`. -/
def State.tookMap (s : State) : State :=
  { s with env := { s.env with mapOk := s.env.mapOk.tail, drawn := s.env.drawn + 1 } }
/-- Take the answer `open_ok`. -/
def State.tookOpen (s : State) : State :=
  { s with env := { s.env with openOk := s.env.openOk.tail, drawn := s.env.drawn + 1 } }
/-- Take the answer `cfg_ok`. -/
def State.tookCfg (s : State) : State :=
  { s with env := { s.env with cfgOk := s.env.cfgOk.tail, drawn := s.env.drawn + 1 } }
/-- Take the answer `out`. -/
def State.tookSeg (s : State) : State :=
  { s with env := { s.env with seg := s.env.seg.tail, drawn := s.env.drawn + 1 } }
/-- Take the answer `p`. -/
def State.tookSent (s : State) : State :=
  { s with env := { s.env with sent := s.env.sent.tail, drawn := s.env.drawn + 1 } }
/-- Take the answer `r`. -/
def State.tookRx (s : State) : State :=
  { s with env := { s.env with rx := s.env.rx.tail, drawn := s.env.drawn + 1 } }
/-- Take an unspecified byte. -/
def State.tookByte (s : State) : State :=
  { s with env := { s.env with anyByte := s.env.anyByte.tail, drawn := s.env.drawn + 1 } }
/-- Take an unspecified register. -/
def State.tookWord (s : State) : State :=
  { s with env := { s.env with anyWord := s.env.anyWord.tail, drawn := s.env.drawn + 1 } }
/-- Take an unspecified descriptor table. -/
def State.tookTable (s : State) : State :=
  { s with env := { s.env with anyTable := s.env.anyTable.tail, drawn := s.env.drawn + 1 } }

/-! ## How a command begins and ends -/

/-- A command that ends `done` or `error` moves `pc` on by one and the stream position by its encoded length (R13,
R22). -/
def State.retire (s : State) (len : Nat) : State := { s with pc := s.pc + 1, pos := s.pos + len }

/-- TAKING A FAULT, `raise X(info)`: `FAULTED <- 1`, `CAUSE <-` the code of `X`, the fault is recorded, and no other
state changes; `pc` stays (R230). There is no return from it (R238). -/
def State.raise (s : State) (x : Raised) : State :=
  { s with faulted := true, cause := x.code, faultRec := some x }

/-- The `error` outcome of `TRANSFER`: `CAUSE <- c`, `RESULT <- -1` (R168, R176). -/
def State.fail (s : State) (c : Byte) : State := (s.setCause c).setResult (-1)

/-- A command is refused while `HALTED = 1` (R228), and none can be given while one hangs (R9, R178); otherwise it runs. -/
def accept (s : State) (t : State) : Host.Outcome State Fault Refusal :=
  if s.halted then .refused .halted
  else if s.hung then .fault .hung
  else .next t

/-- Check (2) of R122: a command that needs the window raises `UnmappedAccess` while `MAPPED = 0`. -/
def State.needsWindow (s : State) (t : State) : State :=
  if s.mapped then t else s.raise .unmappedAccess

/-- Check (3) of R122: a pin number `>= NPINS` raises `IllegalOperand`. -/
def State.needsPin (s : State) (pin : Byte) (t : State) : State :=
  if pin.toNat < s.cfg.npins then t else s.raise .illegalOperand

end Sys2Proof.Machine
end

