-- ==== Sys2Proof/Machine/Encoder.lean ====
section
/-! DEFINITION. The Frame Buffer and Encoder commands (spec/43_frame_encoder.md R190 to R211). -/

namespace Sys2Proof.Machine

/-- `TXLEN <- 0` (R190). -/
def State.clearLen (s : State) : State := { s with txlen := 0 }

/-- The loop of `EMIT_FASYNC` and `EMIT_NOP`, with `REP_I` (R200). -/
def State.emitLoop (s : State) (b : Byte) (n : Nat) : State :=
  let t := s.emitCopies b n
  { t with work := { t.work with repI := n } }

/-- The frame of `EMIT_DATA`: nothing for a length that is not valid, else a header append and a payload append (R205 to
R209). -/
def State.emitFrame (s : State) (addr : Half) (len : Nat) (payload : List Byte) : State :=
  if validDataLen len then
    (s.append (dataFrameHeader addr len)).appendRev (payload.take (wordLen * (len / wordLen)))
  else s

/-- `CLEAR` (R190). -/
def execClear (s : State) : Host.Outcome State Fault Refusal :=
  accept s (s.clearLen.retire lenH0)

/-- `APPEND n, data` (R194). -/
def execAppend (n : Word) (data : List Byte) (s : State) : Host.Outcome State Fault Refusal :=
  accept s ((s.append data).retire (lenHB n))

/-- `APPEND_REV n, data` (R196). -/
def execAppendRev (n : Word) (data : List Byte) (s : State) : Host.Outcome State Fault Refusal :=
  accept s ((s.appendRev data).retire (lenHB n))

/-- `EMIT_BREAK`: the wire frame BREAK (R198). -/
def execEmitBreak (s : State) : Host.Outcome State Fault Refusal :=
  accept s ((s.append [opBreak]).retire lenH0)

/-- `EMIT_FSYNC`: the wire frame FSYNC (R199). -/
def execEmitFsync (s : State) : Host.Outcome State Fault Refusal :=
  accept s ((s.append [opFsync]).retire lenH0)

/-- `EMIT_FASYNC n`: `n` wire frames FASYNC (R201). -/
def execEmitFasync (n : Word) (s : State) : Host.Outcome State Fault Refusal :=
  accept s ((s.emitLoop opFasync n.toNat).retire lenHN)

/-- `EMIT_NOP n`: `n` wire frames NOP, and the command ends (R202, R203). -/
def execEmitNop (n : Word) (s : State) : Host.Outcome State Fault Refusal :=
  accept s ((s.emitLoop opNop n.toNat).retire lenHN)

/-- `EMIT_DATA addr, len, payload`: one wire frame DATA (R205). -/
def execEmitData (addr : Half) (len : Word) (payload : List Byte) (s : State) :
    Host.Outcome State Fault Refusal :=
  accept s ((s.emitFrame addr len.toNat payload).retire (lenHD len))

end Sys2Proof.Machine
end

