-- ==== Sys2Proof/Machine/RegisterAccess.lean ====
section
/-! DEFINITION. The Register Access Layer commands (spec/40_register_access.md R120 to R131). -/

namespace Sys2Proof.Machine

/-- The mapping attempt of `INIT`, up to `pc`: a draw, the event, `MAPPED <- ok`, `RESULT`, and `CAUSE` on failure (R121,
R130). -/
def State.mapWindow (s : State) : State :=
  let t := (s.tookMap.emit (.map s.nextMap)).setMapped s.nextMap
  if s.nextMap then t.setResult 1 else (t.setCause causeMap).setResult 0

/-- `INIT` (R121). -/
def execInit (s : State) : Host.Outcome State Fault Refusal :=
  accept s (s.mapWindow.retire lenH0)

/-- `PIN_INP pin` (R123). -/
def execPinInp (pin : Byte) (s : State) : Host.Outcome State Fault Refusal :=
  accept s (s.needsWindow (s.needsPin pin ((s.setFn pin.toNat .inp).retire lenHP)))

/-- `PIN_OUT pin` (R124). -/
def execPinOut (pin : Byte) (s : State) : Host.Outcome State Fault Refusal :=
  accept s (s.needsWindow (s.needsPin pin ((s.setFn pin.toNat .out).retire lenHP)))

/-- `PIN_ALT pin, alt` (R125): `alt > 5` is `IllegalOperand` (R122). -/
def execPinAlt (pin alt : Byte) (s : State) : Host.Outcome State Fault Refusal :=
  accept s (s.needsWindow (s.needsPin pin
    (match altFn alt with
      | some f => (s.setFn pin.toNat f).retire lenHPA
      | none => s.raise .illegalOperand)))

/-- `PIN_SET mask` (R126). -/
def execPinSet (mask : Word) (s : State) : Host.Outcome State Fault Refusal :=
  accept s (s.needsWindow ((s.writeSet mask).retire lenHM))

/-- `PIN_CLR mask` (R127). -/
def execPinClr (mask : Word) (s : State) : Host.Outcome State Fault Refusal :=
  accept s (s.needsWindow ((s.writeClr mask).retire lenHM))

end Sys2Proof.Machine
end

