-- ==== Sys2Proof/Machine/ResetSequencer.lean ====
section
/-! DEFINITION. The Reset Sequencer (spec/41_reset_sequencer.md R140 to R150). -/

namespace Sys2Proof.Machine

/-- `BusyWait()`: `RST_DELAY_ITER` iterations of an operation whose result nothing reads, then `EvDelay` (R149). -/
def State.busyWait (s : State) : State :=
  State.emit { s with work := { s.work with dlyI := s.cfg.rstDelayIter } } .delay

/-- One pulse of the reset-role pin: high, wait, low, wait (R144). -/
def State.pulse (s : State) : State :=
  let t := ((s.writeSet (pinBit s.cfg.pinRst)).busyWait.writeClr (pinBit s.cfg.pinRst)).busyWait
  { t with work := { t.work with pulseI := t.work.pulseI + 1 } }

/-- That many pulses, one after another. -/
def State.pulses (s : State) : Nat → State
  | 0 => s
  | n + 1 => (State.pulses s n).pulse

/-- Step A: both role pins outputs, the reset-role pin first (R142). -/
def State.rolesOut (s : State) : State := (s.setFn s.cfg.pinRst .out).setFn s.cfg.pinSck .out

/-- Step D for one pin: input, then alternate function 0 (R145). -/
def State.restorePin (s : State) (p : Nat) : State := (s.setFn p .inp).setFn p .alt0

/-- Step D: the reset-role, SCK-role and third pin, in that order (R145). -/
def State.restoreRoles (s : State) : State :=
  ((s.restorePin s.cfg.pinRst).restorePin s.cfg.pinSck).restorePin s.cfg.pinAux

/-- `PULSE_I <- 0`. -/
def State.startPulses (s : State) : State := { s with work := { s.work with pulseI := 0 } }

/-- Procedure `ResetSeq()`: steps A to D (R141). -/
def State.resetSeq (s : State) : State :=
  (((s.rolesOut.writeSet (pinBit s.cfg.pinSck)).startPulses).pulses nPulses).restoreRoles

/-- `RESET_SEQ` (R141, R150). -/
def execResetSeq (s : State) : Host.Outcome State Fault Refusal :=
  accept s (s.needsWindow (s.resetSeq.retire lenH0))

end Sys2Proof.Machine
end

