-- ==== Sys2Proof/Machine/Transfer.lean ====
section
/-! DEFINITION. The Chunked Transfer Engine (spec/42_transfer_engine.md R160 to R183). -/

namespace Sys2Proof.Machine

/-- Procedure `Close()`: the device is closed and the table emptied; the entries' contents are then unspecified (R160,
R181). -/
def State.close (s : State) : State :=
  let t := s.tookTable
  State.emit { t with spiOpen := false, descCnt := 0, desc := s.nextTable } .spiClose

/-- What a configuration step does when it succeeds: steps 0 and 2 write, steps 1 and 3 only read (R166). -/
def State.cfgEffect (s : State) (i : Nat) : State :=
  if i = 0 then { s with spiMode := spiModeVal, spiBits := spiBitsVal }
  else if i = 2 then { s with spiSpeed := spiSpeedVal }
  else s

/-- What a configuration step leaves when it fails: the registers a write step writes hold unspecified values (R169). -/
def State.cfgSpoil (s : State) (i : Nat) : State :=
  if i = 0 then
    { s.tookByte.tookByte with spiMode := s.nextByte, spiBits := s.tookByte.nextByte }
  else if i = 2 then { s.tookWord with spiSpeed := s.nextWord }
  else s

/-- Step 3: the configuration steps in order, up to the first that fails; whether all succeeded (R166 to R169). -/
def State.configure (s : State) : List Nat → State × Bool
  | [] => (s, true)
  | i :: is =>
    let t := s.tookCfg.emit (.spiCfg i s.nextCfg)
    if s.nextCfg then State.configure (t.cfgEffect i) is else (t.cfgSpoil i, false)

/-- `DESC[DESC_CNT] <- ...; DESC_CNT <- DESC_CNT + 1` for a chunk of length `l` (R170). -/
def State.pushDesc (s : State) (l : Nat) : State :=
  { s with desc := s.desc.setIfInBounds s.descCnt (descOf s.descCnt l), descCnt := s.descCnt + 1 }

/-- Step 4: the whole table, before any submission (R170). -/
def State.buildDescs (s : State) (len : Nat) : State :=
  (chunkLens len).foldl State.pushDesc { s with descCnt := 0 }

/-- One 8-bit word of descriptor `d`: the byte at index `BYTE_I` goes out while one comes in (R174). -/
def State.exchangeByte (s : State) (d : Desc) : State :=
  let o := s.txByte (d.txOff.toNat + s.work.byteI)
  let t := s.tookRx.writeRx (d.rxOff.toNat + s.work.byteI) s.nextRx
  State.emit
    { t with work := { t.work with byteI := s.work.byteI + 1, shiftOut := o, shiftIn := s.nextRx } }
    (.spiByte o s.nextRx)

/-- That many words of descriptor `d`, in index order. -/
def State.exchange (s : State) (d : Desc) : Nat → State
  | 0 => s
  | n + 1 => (State.exchange s d n).exchangeByte d

/-- `RXBUF[a .. a+n-1]` becomes unspecified (R177). -/
def State.spoilRx (s : State) (a : Nat) : Nat → State
  | 0 => s
  | n + 1 => let t := State.spoilRx s a n; t.tookByte.writeRx (a + n) t.nextByte

/-- `BYTE_I <- 0`. -/
def State.startBytes (s : State) : State := { s with work := { s.work with byteI := 0 } }

/-- `CHUNK_I <- 0`. -/
def State.startChunks (s : State) : State := { s with work := { s.work with chunkI := 0 } }

/-- `DESC[CHUNK_I]`. -/
def State.currentDesc (s : State) : Desc := s.desc[s.work.chunkI]?.getD Desc.zero

/-- A descriptor that succeeds: the event, all its words, the segment delay (R174, R175). -/
def State.segmentOk (s : State) : State :=
  let d := s.currentDesc
  let t := (State.exchange ((s.emit (.spiSeg s.work.chunkI d.txOff.toNat d.len.toNat true)).startBytes)
    d d.len.toNat).emit .segDelay
  { t with work := { t.work with chunkI := s.work.chunkI + 1 } }

/-- A descriptor that fails or hangs: the event, a drawn number of its words, no segment delay, and its whole receive
range unspecified (R177). -/
def State.segmentBad (s : State) : State :=
  let d := s.currentDesc
  let t := (s.emit (.spiSeg s.work.chunkI d.txOff.toNat d.len.toNat false)).startBytes
  (State.exchange t.tookSent d (min t.nextSent d.len.toNat)).spoilRx d.rxOff.toNat d.len.toNat

/-- Step 5: up to that many descriptors from `CHUNK_I` on, up to the first that fails or hangs (R173). -/
def State.submit (s : State) : Nat → State × SegOutcome
  | 0 => (s, .ok)
  | n + 1 =>
    match s.nextSeg with
    | .ok => State.submit s.tookSeg.segmentOk n
    | out => (s.tookSeg.segmentBad, out)

/-- Steps 4 to 6, after a configuration that succeeded (R170 to R181). -/
def State.transferData (s : State) (len : Nat) : State :=
  let b := (s.buildDescs len).startChunks
  let r := b.submit b.descCnt
  match r.2 with
  | .ok => (r.1.close.resetSeq.setResult 0).retire lenHN
  | .fail => (r.1.close.fail causeXfer).retire lenHN
  | .hang => r.1.hang

/-- Steps 3 to 6, after a successful open (R166 to R181). -/
def State.transferOpened (s : State) (len : Nat) : State :=
  let r := s.configure cfgSteps
  if r.2 then r.1.transferData len else (r.1.close.fail causeCfg).retire lenHN

/-- Steps 1 to 6 (R160): the pre-transfer reset, the open, and what follows it; an open that fails is fatal (R165). -/
def State.transfer (s : State) (len : Nat) : State :=
  let a := s.resetSeq
  let t := a.tookOpen.emit (.spiOpen a.nextOpen)
  if a.nextOpen then (t.setSpiOpen true).transferOpened len else t.halt

/-- `TRANSFER len` (R160): the checks of R161 come before step 1. -/
def execTransfer (len : Word) (s : State) : Host.Outcome State Fault Refusal :=
  accept s (s.needsWindow
    (if len.toNat ≤ xferBound s.cfg then s.transfer len.toNat else s.raise (.transferTooLong len)))

end Sys2Proof.Machine
end

