-- ==== Sys2Proof/Machine/Wire.lean ====
section
/-! DEFINITION. The five wire frames where a command is due. A frame is no command: its first byte is an opcode that the
host opcode map does not list, and the block raises `IllegalCommand` with that byte (spec/30_encoding.md R102,
spec/60_exceptions.md R233; log entry 6). What a frame IS, its bytes and its reader, stands in Decode.lean; what puts it
into the transmit buffer stands in Encoder.lean; what sends it stands in Transfer.lean. -/

namespace Sys2Proof.Machine

/-- `IllegalCommand(op)`, raised with no operand read (R102). -/
def notACommand (op : Byte) (s : State) : Host.Outcome State Fault Refusal :=
  accept s (s.raise (.illegalCommand op))

/-- NOP where a command is due (R102). -/
def execWireNop (s : State) : Host.Outcome State Fault Refusal := notACommand opNop s

/-- BREAK where a command is due (R102). -/
def execWireBreak (s : State) : Host.Outcome State Fault Refusal := notACommand opBreak s

/-- FASYNC where a command is due (R102). -/
def execWireFasync (s : State) : Host.Outcome State Fault Refusal := notACommand opFasync s

/-- FSYNC where a command is due (R102). -/
def execWireFsync (s : State) : Host.Outcome State Fault Refusal := notACommand opFsync s

/-- DATA where a command is due: its header byte is the illegal opcode (R102). -/
def execWireData (wcm1 : BitVec 5) (_addr : Half) (_payload : List Byte) (s : State) :
    Host.Outcome State Fault Refusal := notACommand (dataHeader wcm1) s

end Sys2Proof.Machine
end

