-- ==== Sys2Proof/Machine/Dispatch.lean ====
section
/-! DEFINITION. The one match from an instruction to its meaning. -/

namespace Sys2Proof.Machine

/-- One row of the opcode table, given to the block where a command is due. -/
def exec (i : Instr) (s : State) : Host.Outcome State Fault Refusal :=
  match i with
  | .wireNop => Sys2Proof.Machine.execWireNop s
  | .wireBreak => Sys2Proof.Machine.execWireBreak s
  | .wireFasync => Sys2Proof.Machine.execWireFasync s
  | .wireFsync => Sys2Proof.Machine.execWireFsync s
  | .wireData wcm1 addr payload => Sys2Proof.Machine.execWireData wcm1 addr payload s
  | .init => Sys2Proof.Machine.execInit s
  | .pinInp pin => Sys2Proof.Machine.execPinInp pin s
  | .pinOut pin => Sys2Proof.Machine.execPinOut pin s
  | .pinAlt pin alt => Sys2Proof.Machine.execPinAlt pin alt s
  | .pinSet mask => Sys2Proof.Machine.execPinSet mask s
  | .pinClr mask => Sys2Proof.Machine.execPinClr mask s
  | .resetSeq => Sys2Proof.Machine.execResetSeq s
  | .transfer len => Sys2Proof.Machine.execTransfer len s
  | .clear => Sys2Proof.Machine.execClear s
  | .append n data => Sys2Proof.Machine.execAppend n data s
  | .appendRev n data => Sys2Proof.Machine.execAppendRev n data s
  | .emitBreak => Sys2Proof.Machine.execEmitBreak s
  | .emitFsync => Sys2Proof.Machine.execEmitFsync s
  | .emitFasync n => Sys2Proof.Machine.execEmitFasync n s
  | .emitNop n => Sys2Proof.Machine.execEmitNop n s
  | .emitData addr len payload => Sys2Proof.Machine.execEmitData addr len payload s

end Sys2Proof.Machine
end

