-- ==== Sys2Proof/Machine/HardwareReset.lean ====
section
/-! DEFINITION. The hardware reset event (spec/70_reset_and_hazards.md R250 to R252): not a command, but the one event
from outside that the spec describes, and the only exit from the halted state and from a hang. -/

namespace Sys2Proof.Machine

/-- The `k`-th of a group of unspecified 32-bit values (log entry 2). -/
def State.wordAt (s : State) (k : Nat) : Word := (s.env.anyWord[k]?).getD (Config.freeWord (s.env.drawn + k))

/-- Take the first `k` of them. -/
def State.tookWords (s : State) (k : Nat) : State :=
  { s with env := { s.env with anyWord := s.env.anyWord.drop k, drawn := s.env.drawn + k } }

/-- The working registers after a hardware reset: unspecified (R44). -/
def State.freshWork (s : State) : Work :=
  { pulseI := (s.wordAt 10).toNat
    dlyI := (s.wordAt 11).toNat
    chunkI := (s.wordAt 12).toNat
    byteI := (s.wordAt 13).toNat
    repI := (s.wordAt 14).toNat
    shiftOut := (s.wordAt 15).setWidth 8
    shiftIn := (s.wordAt 16).setWidth 8 }

/-- Hardware reset: the values R44 gives; everything R44 leaves unspecified is drawn (R45), the function registers and
latches among it, whether or not a command is abandoned (R251, R252). It emits no event, and the trace and `pc` of a new
run start empty (R44, R250). The host's list is read again from its start (log entry 8). -/
def State.hardwareReset (s : State) : State :=
  let t := s.tookTable.tookWords 17
  { cfg := s.cfg
    mapped := false
    spiOpen := false
    halted := false
    faulted := false
    fsel := Vector.ofFn fun k : Fin 6 => s.wordAt k
    latch := s.wordAt 6
    spiMode := (s.wordAt 7).setWidth 8
    spiBits := (s.wordAt 8).setWidth 8
    spiSpeed := s.wordAt 9
    desc := s.nextTable
    descCnt := 0
    txbuf := []
    txlen := 0
    rxbuf := []
    result := 0
    cause := 0
    work := s.freshWork
    pc := 0
    stream := s.stream
    pos := 0
    trace := []
    faultRec := none
    hung := false
    resetReq := false
    epoch := s.epoch + 1
    env := t.env }

end Sys2Proof.Machine
end

