-- ==== Sys2Proof/Machine/Fetch.lean ====
section
/-! DEFINITION. What the block does between two commands: the reset event, the ends of a run, and the reading of the next
command from the host's stream (spec/30_encoding.md R98, R102, R103; spec/60_exceptions.md R228, R230, R235). -/

namespace Sys2Proof.Machine

/-- Either the step is settled without a command, or it is the meaning of a command. -/
inductive Poll where
  | answer (o : Host.Outcome State Fault Refusal)
  | run (i : Instr)

/-- A hardware reset asked for comes first (R250). A halted block reads no command (R228); a hanging one is still in its
command (R178); a run that a fault ended goes no further (R22, R230). Otherwise the next bytes of the stream are read: an
illegal opcode and a truncated command are raised (R102, R235), and at the end of the stream the block waits (R44, log
entry 7). The order of `HALTED` and decoding is log entry 9. -/
def poll (s : State) : Poll :=
  if s.resetReq then .answer (.next s.hardwareReset)
  else if s.halted then .answer (.refused .halted)
  else if s.hung then .answer (.fault .hung)
  else if s.faulted then .answer (.fault (.runOver s.faultRec))
  else
    match decode (s.stream.drop s.pos) with
    | .instr i _ => .run i
    | .illegal op => .answer (.next (s.raise (.illegalCommand op)))
    | .truncated => .answer (.next (s.raise .truncatedCommand))
    | .endOfStream => .answer (.next s)

/-- The stream with bytes stored at a position; a position past the end is taken at the end. -/
def placeBytes (stream : List Byte) (pos : Nat) (bs : List Byte) : List Byte :=
  stream.take pos ++ bs ++ stream.drop (pos + bs.length)

end Sys2Proof.Machine
end

