-- ==== Sys2Proof/Machine/Step.lean ====
section
/-! DEFINITION. One step of the block: one command, or one of the events between commands. -/

namespace Sys2Proof.Machine

/-- The step: what `poll` settles, or the meaning of the command it reads. -/
def step (s : State) : Host.Outcome State Fault Refusal :=
  match poll s with
  | .answer o => o
  | .run i => exec i s

/-- The state with a row's instruction stored in the command stream where `step` reads its next command (log entry 10). -/
def State.withFetchWord (s : State) (nbits w : Nat) : State :=
  { s with
    stream := placeBytes s.stream s.pos (tableInstrBytes nbits w)
    pos := (s.stream.take s.pos).length }

end Sys2Proof.Machine
end

