-- ==== Sys2Proof/Machine/View.lean ====
section
/-! DEFINITION. What the outside sees of a state: the host's reads (spec/10_state.md R43), the level on a pin (R29), the
bits of a byte on the serial data line (spec/20_memory.md R63), and the operating state (spec/60_exceptions.md R241). All
are projections: no step uses them. -/

namespace Sys2Proof.Machine

/-- No command runs: the host is not blocked, and may read (R43, R80). Between two steps a command runs only while a
submission hangs (R178; log entry 18). -/
def State.betweenCommands (s : State) : Bool := !s.hung

/-- The registers the host may read between commands (R43). -/
structure HostRegs where
  result : Word
  cause : Byte
  mapped : Bool
  halted : Bool
  txlen : Nat
  deriving DecidableEq, Repr

/-- The host's read of the registers; none while a command runs (R43, R80). -/
def State.hostRegs (s : State) : Option HostRegs :=
  if s.betweenCommands then
    some { result := s.result, cause := s.cause, mapped := s.mapped, halted := s.halted, txlen := s.txlen }
  else none

/-- The host's read of `TXBUF[i]`, `0 <= i < C`; none while a command runs (R43, R80). -/
def State.hostTx (s : State) (i : Nat) : Option Byte :=
  if s.betweenCommands && decide (i < s.cfg.capacity) then some (s.txByte i) else none

/-- The host's read of `RXBUF[i]`, `0 <= i < C`; none while a command runs (R43, R80). -/
def State.hostRx (s : State) (i : Nat) : Option Byte :=
  if s.betweenCommands && decide (i < s.cfg.capacity) then some (s.rxByte i) else none

/-- The function a 3-bit code stands for (R26); with injective codes there is exactly one, so the last case is `ALT5`. -/
def fnOf (c : FselCodes) (v : BitVec 3) : PinFn :=
  if v = c.inp then .inp
  else if v = c.out then .out
  else if v = c.alt0 then .alt0
  else if v = c.alt1 then .alt1
  else if v = c.alt2 then .alt2
  else if v = c.alt3 then .alt3
  else if v = c.alt4 then .alt4
  else .alt5

/-- `fn(p)`: the function of pin `p` (R26). -/
def State.fn (s : State) (p : Nat) : PinFn := fnOf s.cfg.codes (s.field p)

/-- The serial-bus signal a role pin carries in alternate function 0 (R29). -/
inductive SerialSignal where
  | clock | dataOut | dataIn
  deriving DecidableEq, Repr

/-- What the block puts on a pin (R29). -/
inductive Pad where
  /-- Driven to a level. -/
  | driven (level : Bool)
  /-- Not driven by the block. -/
  | notDriven
  /-- Carries a serial-bus signal. -/
  | serial (signal : SerialSignal)
  /-- Unspecified (R29). -/
  | unspecified
  deriving DecidableEq, Repr

/-- The signal of a role pin (R29). -/
def State.roleSignal (s : State) (p : Nat) : Option SerialSignal :=
  if p = s.cfg.pinSck then some .clock
  else if p = s.cfg.pinRst then some .dataOut
  else if p = s.cfg.pinAux then some .dataIn
  else none

/-- What the block puts on pin `p < NPINS`, by the pin's function (R29). A serial signal shows only while the device is
open and a descriptor in progress, which between two steps is the case only while a submission hangs (log entry 14). -/
def State.pinPad (s : State) (p : Nat) : Pad :=
  match s.fn p with
  | .out => if p ≤ 31 then .driven (s.latch.getLsbD p) else .unspecified
  | .inp => .notDriven
  | .alt0 =>
    match s.roleSignal p with
    | some g => if s.spiOpen && s.hung then .serial g else .unspecified
    | none => .unspecified
  | _ => .unspecified

/-- The level on pin `p` as a function of state (R29); a latch bit or a function field of no pin drives nothing (R25,
R126, R127). -/
def State.pad (s : State) (p : Nat) : Pad := if p < s.cfg.npins then s.pinPad p else .notDriven

/-- The bits of a byte in the order they stand on the serial data line (R63). -/
def lineBits (c : Config) (b : Byte) : List Bool :=
  let low := (List.range 8).map b.getLsbD
  if c.shiftMsbFirst then low.reverse else low

/-- The three operating states (R241). -/
inductive Operating where
  | unmapped | ready | halted
  deriving DecidableEq, Repr

/-- The operating state two flags fix (R241). -/
def State.operating (s : State) : Operating :=
  if s.halted then .halted else if s.mapped then .ready else .unmapped

end Sys2Proof.Machine
end

