-- ==== Sys2Proof/Safety.lean ====
section
/-! DEFINITION. The terms claims use: which states accept a command, which runs are safe, the invariant between steps, and
the events a reset sequence and a transfer put on the trace. -/

namespace Sys2Proof.Machine

/-! ## Which states accept a command, and which runs went right -/

/-- The block takes a command: it is not halted (R228) and no command hangs (R9, R178). -/
structure State.Accepts (s : State) : Prop where
  not_halted : s.halted = false
  not_hung : s.hung = false

/-- The block is about to read a command: nothing asks for a reset, it takes a command, and no fault has ended the run
(R22, R230). -/
structure State.Running (s : State) : Prop where
  no_reset : s.resetReq = false
  accepts : s.Accepts
  not_faulted : s.faulted = false

/-- A state a run that went right can end in: no fault (R23, R230) and no hang (R178). A halted state is one (R229). -/
def State.Good (s : State) : Prop := s.faulted = false ∧ s.hung = false

/-! ## Families of rows -/

/-- The commands that need the GPIO window (R231). -/
def needsMapping : Instr → Bool
  | .pinInp _ | .pinOut _ | .pinAlt _ _ | .pinSet _ | .pinClr _ | .resetSeq | .transfer _ => true
  | _ => false

/-- The eight encoder commands (R210). -/
def isEncoder : Instr → Bool
  | .clear | .append _ _ | .appendRev _ _ | .emitBreak | .emitFsync | .emitFasync _ | .emitNop _ | .emitData _ _ _ => true
  | _ => false

/-- The sixteen opcodes of the host opcode map (R100). -/
def opcodes : List Byte :=
  [0x10, 0x11, 0x12, 0x13, 0x14, 0x15, 0x20, 0x30, 0x40, 0x41, 0x42, 0x43, 0x44, 0x45, 0x46, 0x47]

/-! ## The invariant between steps -/

/-- What holds between any two steps (R46), with the facts about the buffers, the result register and the fault record
that go with it. -/
structure State.Inv (s : State) : Prop where
  /-- The parameters keep their constraints (R8). -/
  cfg_valid : s.cfg.Valid
  /-- `TXLEN <= C - 1` (R46). -/
  txlen_lt : s.txlen < s.cfg.capacity
  /-- The transmit buffer keeps its canonical form. -/
  tx_wf : Memory.wf s.txbuf
  /-- `TXBUF[C-1]` is never written (R193). -/
  tx_inside : ∀ c ∈ s.txbuf, c.1 + 1 < s.cfg.capacity
  /-- The receive buffer keeps its canonical form. -/
  rx_wf : Memory.wf s.rxbuf
  /-- Only `RXBUF[0 .. C-1]` is written (R34, R73). -/
  rx_inside : ∀ c ∈ s.rxbuf, c.1 < s.cfg.capacity
  /-- `SPI_OPEN = 0` and `DESC_CNT = 0` between commands (R46). -/
  closed : s.hung = false → s.spiOpen = false ∧ s.descCnt = 0
  /-- While a submission hangs the device stays open and the table stays as built (R178). -/
  hanging : s.hung = true → s.spiOpen = true ∧ s.descCnt ≤ 16
  /-- A fault is recorded exactly when one was raised (R230). -/
  recorded : s.faulted = s.faultRec.isSome
  /-- `RESULT` holds one of its three values (R41). -/
  result_values : s.result = 0 ∨ s.result = 1 ∨ s.result = -1

/-! ## Kinds of events -/

/-- A write of a window register. -/
def Event.isWrite : Event → Bool
  | .gpioW _ _ => true
  | _ => false

/-- A busy-wait. -/
def Event.isDelay : Event → Bool
  | .delay => true
  | _ => false

/-- An event of step 5: a submission, an exchanged byte, a segment delay. -/
def Event.isExchange : Event → Bool
  | .spiSeg _ _ _ _ | .spiByte _ _ | .segDelay => true
  | _ => false

/-! ## The events of a reset sequence (R147) -/

/-- The function registers after a list of function-field writes. -/
def fselAfter (c : Config) (f : Vector Word 6) : List (Nat × PinFn) → Vector Word 6
  | [] => f
  | (p, g) :: ws =>
    fselAfter c (f.setIfInBounds (fselReg p) (withField (f[fselReg p]?.getD 0) p (c.codes.of g))) ws

/-- The window writes of a list of function-field writes, each of the whole register (R120). -/
def fselEvents (c : Config) (f : Vector Word 6) : List (Nat × PinFn) → List Event
  | [] => []
  | (p, g) :: ws =>
    .gpioW (c.fselIdx[fselReg p]?.getD 0) (withField (f[fselReg p]?.getD 0) p (c.codes.of g)) ::
      fselEvents c (f.setIfInBounds (fselReg p) (withField (f[fselReg p]?.getD 0) p (c.codes.of g))) ws

/-- The function-field writes of step A (R142). -/
def stepA (c : Config) : List (Nat × PinFn) := [(c.pinRst, .out), (c.pinSck, .out)]

/-- The function-field writes of step D (R145). -/
def stepD (c : Config) : List (Nat × PinFn) :=
  [(c.pinRst, .inp), (c.pinRst, .alt0), (c.pinSck, .inp), (c.pinSck, .alt0), (c.pinAux, .inp), (c.pinAux, .alt0)]

/-- The events of steps B and C: the SCK-role pin set, then sixteen pulses (R143, R144). -/
def pulseTrainEvents (c : Config) : List Event :=
  .gpioW c.setIdx (1#32 <<< c.pinSck) ::
    (List.replicate 16
      [.gpioW c.setIdx (1#32 <<< c.pinRst), .delay, .gpioW c.clrIdx (1#32 <<< c.pinRst), .delay]).flatten

/-- The events one reset sequence appends, from the function registers it starts with (R147). -/
def resetEvents (c : Config) (f : Vector Word 6) : List Event :=
  fselEvents c f (stepA c) ++ pulseTrainEvents c ++ fselEvents c (fselAfter c f (stepA c)) (stepD c)

/-- The function registers one reset sequence leaves (R146). -/
def fselAfterReset (c : Config) (f : Vector Word 6) : Vector Word 6 := fselAfter c f (stepA c ++ stepD c)

/-! ## The events of a transfer -/

/-- How many descriptors a transfer has (R171). -/
def descCount (len : Nat) : Nat := len / 4096 + (if len % 4096 = 0 then 0 else 1)

/-- The length of descriptor `k` (R170). -/
def chunkLen (len k : Nat) : Nat := min 4096 (len - 4096 * k)

/-- The exchanges of bytes `a` to `a + n - 1`: what `TXBUF` holds goes out, the environment's byte at the same index comes
in (R162, R174). -/
def byteEvents (s : State) (a n : Nat) : List Event :=
  (List.range n).map fun j => .spiByte (s.txByte (a + j)) (s.env.rx.getD (a + j) 0)

/-- The events of descriptor `k` when it succeeds (R174, R175). -/
def chunkEvents (s : State) (len k : Nat) : List Event :=
  .spiSeg k (4096 * k) (chunkLen len k) true :: (byteEvents s (4096 * k) (chunkLen len k) ++ [.segDelay])

/-- The events of the open and the four configuration steps when they succeed (R165, R166). -/
def openEvents : List Event :=
  [.spiOpen true, .spiCfg 0 true, .spiCfg 1 true, .spiCfg 2 true, .spiCfg 3 true]

/-- The events of the first `n` descriptors when they succeed, in order (R75). -/
def chunksEvents (s : State) (len n : Nat) : List Event := (List.range n).flatMap (chunkEvents s len)

/-! ## Shapes of effect that several commands share -/

/-- The effect of setting pin `pin` to function `f` by a command of `n` bytes: one function register is written, its
field for the pin holds the code, every other bit of it is as it was, one window write stands on the trace, and nothing
else changes (R120). -/
def PinFnEffect (s : State) (i : Instr) (pin : Nat) (f : PinFn) (n : Nat) : Prop :=
  ∃ v : Word,
    exec i s = .next { s with
      fsel := s.fsel.setIfInBounds (pin / 10) v
      trace := s.trace ++ [.gpioW (s.cfg.fselIdx[pin / 10]?.getD 0) v]
      pc := s.pc + 1
      pos := s.pos + n } ∧
    v.extractLsb' (3 * (pin % 10)) 3 = s.cfg.codes.of f ∧
    ∀ b, b < 32 → b < 3 * (pin % 10) ∨ 3 * (pin % 10) + 3 ≤ b →
      v.getLsbD b = (s.fsel[pin / 10]?.getD 0).getLsbD b

/-- The effect of a command of `n` bytes that adds the bytes `bs` to the transmit buffer: they stand from `TXLEN` on, the
length grows by their number, every other byte of the buffer is as it was, and nothing else changes (R191). -/
def StoresEffect (s : State) (i : Instr) (bs : List Byte) (n : Nat) : Prop :=
  ∃ m : Memory,
    exec i s = .next { s with txbuf := m, txlen := s.txlen + bs.length, pc := s.pc + 1, pos := s.pos + n } ∧
    ∀ a, Memory.read m a =
      if s.txlen ≤ a ∧ a < s.txlen + bs.length then bs[a - s.txlen]? else Memory.read s.txbuf a

/-- A command of `n` bytes that ends `done` with no effect at all. -/
def NoEffect (s : State) (i : Instr) (n : Nat) : Prop :=
  exec i s = .next { s with pc := s.pc + 1, pos := s.pos + n }

/-- A command that ends `fault`: the fault is recorded and nothing else changes (R230). -/
def RaisesEffect (s : State) (i : Instr) (x : Raised) (code : Byte) : Prop :=
  exec i s = .next { s with faulted := true, cause := code, faultRec := some x }

/-- Commands given one after another, as long as each answers a next state. -/
def runAll : List Instr → State → Option State
  | [], s => some s
  | i :: is, s =>
    match exec i s with
    | .next t => runAll is t
    | _ => none

/-- The environment lets a `TRANSFER` open the device and make all four configuration steps (R165, R166). -/
structure State.DeviceAnswers (s : State) : Prop where
  opens : s.env.openOk.head? = some true
  configures : s.env.cfgOk.take 4 = [true, true, true, true]

/-- What every transfer that got as far as a descriptor keeps (R60, R160, R162). -/
def KeptByTransfer (s t : State) : Prop :=
  t.cfg = s.cfg ∧ t.mapped = s.mapped ∧ t.halted = s.halted ∧ t.faulted = s.faulted ∧ t.faultRec = s.faultRec ∧
    t.txbuf = s.txbuf ∧ t.txlen = s.txlen ∧ t.stream = s.stream ∧ t.resetReq = s.resetReq ∧ t.epoch = s.epoch

/-- The pins after a reset sequence: the role pins in `ALT0`, the SCK-role latch 1 and the reset-role latch 0, every other
function field, latch bit and unused function-register bit as before (R146). -/
def AfterResetSeq (s t : State) : Prop :=
  t.fn s.cfg.pinRst = .alt0 ∧ t.fn s.cfg.pinSck = .alt0 ∧ t.fn s.cfg.pinAux = .alt0 ∧
    t.latch.getLsbD s.cfg.pinSck = true ∧ t.latch.getLsbD s.cfg.pinRst = false ∧
    (∀ p, p ≠ s.cfg.pinSck → p ≠ s.cfg.pinRst → t.latch.getLsbD p = s.latch.getLsbD p) ∧
    (∀ q, q ≠ s.cfg.pinRst → q ≠ s.cfg.pinSck → q ≠ s.cfg.pinAux → t.field q = s.field q) ∧
    (∀ k b, 30 ≤ b → b < 32 → (t.fselAt k).getLsbD b = (s.fselAt k).getLsbD b)

end Sys2Proof.Machine
end

