-- ==== Sys2Proof/Certificates/Slice0/Obligations.lean ====
section
/-! DEFINITION. The statements about the CORE block, for the provers. Each docstring names the rules of spec/ it
formalises; a clause that rests on a choice of the model names the log entry. -/

open Sys2Proof Sys2Proof.Machine

/-! ## Encodings -/

/-- R91, R92, R99, R100, R101: decoding the encoding of any well-formed row, whatever follows it, gives the row back
with every operand, and leaves what follows. -/
def Obligations.EncodedInstructionDecodesToItself : Prop :=
  ∀ (i : Instr) (rest : List Byte), i.wf = true → decode (encode i ++ rest) = .instr i rest

/-- R92, R99, R100: whatever the decoder reads as an instruction is well formed, and its encoding is exactly the bytes
read; so no two byte strings stand for one instruction. -/
def Obligations.DecodedInstructionReencodesToItsBytes : Prop :=
  ∀ (bs rest : List Byte) (i : Instr), decode bs = .instr i rest → i.wf = true ∧ encode i ++ rest = bs

/-- R98 to R102, and the inference the spec draws from them in R103: for every byte string, reading commands from its
start yields a list of commands whose encodings stand in it one after another, and then exactly one of the three ends:
nothing left, a byte that is no opcode, or a listed opcode with no whole command there. -/
def Obligations.ReadingAStreamIsTotal : Prop :=
  ∀ bs : List Byte,
    (∀ i ∈ (decodeStream bs.length bs).1, i.isCommand = true ∧ i.wf = true) ∧
    ∃ tail : List Byte,
      bs = ((decodeStream bs.length bs).1.map encode).flatten ++ tail ∧
      (((decodeStream bs.length bs).2 = .endOfStream ∧ tail = []) ∨
        ∃ (op : Byte) (more : List Byte), tail = op :: more ∧
          (((decodeStream bs.length bs).2 = .illegal op ∧ op ∉ opcodes) ∨
            ((decodeStream bs.length bs).2 = .truncated ∧ op ∈ opcodes ∧
              ∀ i : Instr, i.isCommand = true → i.wf = true → ¬ encode i <+: tail)))

/-- R93, R95, R96: the first byte alone fixes a wire frame's length, a frame is read whenever that many bytes are there,
and a first byte the source does not assign is no frame. -/
def Obligations.FirstByteFixesTheFrame : Prop :=
  ∀ (b : Byte) (rest : List Byte),
    ((b = 0x00 ∨ b = 0x04 ∨ b = 0x05 ∨ b = 0x06) → frameLength b = some 1) ∧
    (0xE0 ≤ b.toNat → frameLength b = some (3 + 4 * ((b &&& 0x1F).toNat + 1))) ∧
    ((1 ≤ b.toNat ∧ b.toNat ≤ 3 ∨ 7 ≤ b.toNat ∧ b.toNat ≤ 0xDF) →
      frameLength b = none ∧ decodeFrame (b :: rest) = .illegal b) ∧
    (∀ n, frameLength b = some n → n ≤ rest.length + 1 →
      ∃ i, i.isCommand = false ∧ decodeFrame (b :: rest) = .instr i ((b :: rest).drop n))

/-- R92: the bytes of a DATA frame, each field at its place. -/
def Obligations.DataFrameLayout : Prop :=
  ∀ (wcm1 : BitVec 5) (addr : Half) (payload : List Byte), payload.length = 4 * (wcm1.toNat + 1) →
    (encode (.wireData wcm1 addr payload)).length = 3 + 4 * (wcm1.toNat + 1) ∧
    (∃ h : Byte, (encode (.wireData wcm1 addr payload))[0]? = some h ∧
      h = (wcm1.setWidth 8 ||| 0xE0) ∧ h.extractLsb' 5 3 = 0b111 ∧ h.extractLsb' 0 5 = wcm1) ∧
    (encode (.wireData wcm1 addr payload))[1]? = some ((addr >>> 8).setWidth 8) ∧
    (encode (.wireData wcm1 addr payload))[2]? = some (addr.setWidth 8) ∧
    ∀ j, j < 4 * (wcm1.toNat + 1) →
      (encode (.wireData wcm1 addr payload))[3 + j]? = (payload[j]?).map rev8

/-- R91, R99, R100 on the words of vectors V48 and V51, written out there from the formats. -/
def Obligations.WrittenOutWordsDecode : Prop :=
  decode [0x10] = .instr .init [] ∧
  decode [0x11, 0x0A] = .instr (.pinInp 10) [] ∧
  decode [0x12, 0x0B] = .instr (.pinOut 11) [] ∧
  decode [0x13, 0x09, 0x00] = .instr (.pinAlt 9 0) [] ∧
  decode [0x14, 0x00, 0x00, 0x08, 0x00] = .instr (.pinSet 0x800) [] ∧
  decode [0x15, 0x00, 0x00, 0x04, 0x00] = .instr (.pinClr 0x400) [] ∧
  decode [0x20] = .instr .resetSeq [] ∧
  decode [0x30, 0x00, 0x00, 0x10, 0x01] = .instr (.transfer 4097) [] ∧
  decode [0x40, 0x43, 0x44] = .instr .clear [0x43, 0x44] ∧
  decode [0x41, 0x00, 0x00, 0x00, 0x02, 0xDE, 0xAD] = .instr (.append 2 [0xDE, 0xAD]) [] ∧
  decode [0x47, 0x12, 0x34, 0x00, 0x00, 0x00, 0x04, 0xDE, 0xAD, 0xBE, 0xEF] =
    .instr (.emitData 0x1234 4 [0xDE, 0xAD, 0xBE, 0xEF]) [] ∧
  decodeFrame [0x04, 0x05] = .instr .wireBreak [0x05] ∧
  decodeFrame [0xE0, 0x12, 0x34, 0x7B, 0xB5, 0x7D, 0xF7, 0x06] =
    .instr (.wireData 0 0x1234 [0xDE, 0xAD, 0xBE, 0xEF]) [0x06]

/-- R195: `rev8` bit by bit, its involution, its sixteen fixed points and the three mask-and-shift steps. -/
def Obligations.Rev8ReversesTheBits : Prop :=
  ∀ b : Byte,
    (∀ i, i < 8 → (rev8 b).getLsbD i = b.getLsbD (7 - i)) ∧
    rev8 (rev8 b) = b ∧
    (rev8 b = b ↔ b ∈ ([0x00, 0x18, 0x24, 0x3C, 0x42, 0x5A, 0x66, 0x7E, 0x81, 0x99, 0xA5, 0xBD, 0xC3, 0xDB, 0xE7, 0xFF] :
      List Byte)) ∧
    (∀ b1 b2 : Byte, b1 = ((b &&& 0xF0) >>> 4 ||| (b &&& 0x0F) <<< 4) →
      b2 = ((b1 &&& 0xCC) >>> 2 ||| (b1 &&& 0x33) <<< 2) →
      rev8 b = ((b2 &&& 0xAA) >>> 1 ||| (b2 &&& 0x55) <<< 1)) ∧
    rev8 0x01 = 0x80 ∧ rev8 0x12 = 0x48 ∧ rev8 0xE0 = 0x07

/-- R63: the bits of a byte on the serial data line, for both values of `SHIFT_MSB_FIRST`; so with the default a payload
byte, which is stored reversed, appears with its bit 0 first. -/
def Obligations.PayloadIsSentLeastBitFirst : Prop :=
  ∀ (c : Config) (b : Byte), (lineBits c b).length = 8 ∧
    ∀ i, i < 8 →
      (c.shiftMsbFirst = true → (lineBits c b)[i]? = some (b.getLsbD (7 - i)) ∧
        (lineBits c (rev8 b))[i]? = some (b.getLsbD i)) ∧
      (c.shiftMsbFirst = false → (lineBits c b)[i]? = some (b.getLsbD i))

/-! ## The step -/

/-- R98: where the next bytes of the stream decode to an instruction, the step is its meaning, with nothing around it.
-/
def Obligations.StepRunsTheDecodedInstruction : Prop :=
  ∀ (s : State) (i : Instr) (rest : List Byte), s.Running → decode (s.stream.drop s.pos) = .instr i rest →
    step s = exec i s

/-- R102, R230, R233: an opcode byte outside the sixteen is raised with that byte, a command the stream ends inside of
is raised as truncated, each with nothing else changed; and at the end of the stream the block waits (the model's
choice, log entry 7). -/
def Obligations.BadStreamsAreRaised : Prop :=
  ∀ s : State, s.Running →
    (∀ (op : Byte) (rest : List Byte), s.stream.drop s.pos = op :: rest → op ∉ opcodes →
      step s = .next { s with faulted := true, cause := 18, faultRec := some (.illegalCommand op) }) ∧
    (∀ (i : Instr) (n : Nat), i.isCommand = true → i.wf = true → 0 < n → n < (encode i).length →
      s.stream.drop s.pos = (encode i).take n →
      step s = .next { s with faulted := true, cause := 20, faultRec := some .truncatedCommand }) ∧
    (s.stream.drop s.pos = [] → step s = .next s)

/-- R22, R178, R230: after a fault the run is over, and while a submission hangs no step and no command is taken. The
stops are the model's way to say so (log entry 5). -/
def Obligations.FaultedAndHungRunsStop : Prop :=
  ∀ s : State, s.resetReq = false → s.halted = false →
    (s.hung = true → step s = .fault .hung ∧ ∀ i, exec i s = .fault .hung) ∧
    (s.hung = false → s.faulted = true → step s = .fault (.runOver s.faultRec))

/-- R228: a halted block takes no command and no step; only a failed open halts it; hardware reset leaves the state.
The refusal and the reset request are the model's way to say so (log entries 5 and 8). -/
def Obligations.HaltedIsTerminal : Prop :=
  ∀ s : State,
    (s.halted = true → (∀ i, exec i s = .refused .halted) ∧ (s.resetReq = false → step s = .refused .halted)) ∧
    (∀ (i : Instr) (t : State), s.halted = false → exec i s = .next t → t.halted = true →
      ∃ len, i = .transfer len ∧ t.cause = 2 ∧ t.trace.getLast? = some (.spiOpen false)) ∧
    (s.resetReq = true → ∃ t, step s = .next t ∧ t.halted = false)

/-- R44, R45, R250, R251: the values the reset table gives, in the state after reset and after a hardware reset of any
state, which keeps the parameters; and what the reset table leaves unspecified can be any value: the function registers,
the latches and the serial registers are the answers the environment lists, whatever they are.
That the reset is asked for by a field of the state is the model's choice (log entry 8), and so are the environment's
queue and the order of the draws (log entries 2 and 8). -/
def Obligations.ResetValues : Prop :=
  (∀ t : State, t = State.reset ∨ (∃ s : State, s.resetReq = true ∧ step s = .next t) →
    t.mapped = false ∧ t.halted = false ∧ t.faulted = false ∧ t.spiOpen = false ∧ t.txlen = 0 ∧ t.descCnt = 0 ∧
      t.result = 0 ∧ t.cause = 0 ∧ t.pc = 0 ∧ t.trace = []) ∧
  ∀ s : State, s.resetReq = true → ∃ t, step s = .next t ∧ t.cfg = s.cfg ∧
    ∀ (f : Vector Word 6) (l m b v : Word) (rest : List Word), s.env.anyWord = f.toList ++ [l, m, b, v] ++ rest →
      t.fsel = f ∧ t.latch = l ∧ t.spiMode = m.setWidth 8 ∧ t.spiBits = b.setWidth 8 ∧ t.spiSpeed = v

/-- R22: where a run's position goes. `pc` starts at 0; a command either moves on by one, and by its encoded length in
the stream, or ends `fault`, `fatal` or in a hang and moves nothing; and after a fault or a halt the run is over.
R22 is silent on a hang: that it is a next state with the field `hung` set, and that a run that is over shows as a stop,
are the model's choice (R178, R230, log entry 5). -/
def Obligations.ProgramPosition : Prop :=
  State.reset.pc = 0 ∧
  (∀ t u : State, t.resetReq = false → t.faulted = true ∨ t.halted = true → step t ≠ .next u) ∧
  ∀ (i : Instr) (s t : State), i.wf = true → exec i s = .next t →
    (t.pc = s.pc + 1 ∧ t.pos = s.pos + (encode i).length ∧ t.faulted = s.faulted ∧ t.halted = s.halted ∧
      t.hung = s.hung) ∨
    (t.pc = s.pc ∧ t.pos = s.pos ∧
      ((t.faulted = true ∧ t.faultRec.isSome = true) ∨ t.halted = true ∨ t.hung = true))

/-! ## Faults of the operands and of the mode -/

/-- R231: with `MAPPED = 0` each of the seven window commands raises `UnmappedAccess` and changes nothing else; the
encoder commands and `INIT` raise nothing. -/
def Obligations.UnmappedAccessIsRaised : Prop :=
  ∀ (s : State) (i : Instr), s.Accepts →
    (s.mapped = false → needsMapping i = true → RaisesEffect s i .unmappedAccess 16) ∧
    (isEncoder i = true ∨ i = .init → ∃ t, exec i s = .next t ∧ t.faulted = s.faulted ∧ t.faultRec = s.faultRec)

/-- R232: with the window mapped, `TRANSFER` above `min(XFER_MAX, C)` raises `TransferTooLong(len)`; a pin number from
`NPINS` up, or an alternate-function number above 5, raises `IllegalOperand`; each with nothing else changed. -/
def Obligations.OperandRangesAreChecked : Prop :=
  ∀ s : State, s.Accepts → s.mapped = true →
    (∀ len : Word, min 65536 s.cfg.capacity < len.toNat → RaisesEffect s (.transfer len) (.transferTooLong len) 17) ∧
    (∀ pin : Byte, s.cfg.npins ≤ pin.toNat →
      RaisesEffect s (.pinInp pin) .illegalOperand 19 ∧ RaisesEffect s (.pinOut pin) .illegalOperand 19 ∧
      ∀ alt, RaisesEffect s (.pinAlt pin alt) .illegalOperand 19) ∧
    (∀ pin alt : Byte, 5 < alt.toNat → RaisesEffect s (.pinAlt pin alt) .illegalOperand 19)

/-- R102, R233 for the five wire rows of the table: a wire frame where a command is due is no command, and its effect is
the `IllegalCommand` fault with its first byte (log entry 6). -/
def Obligations.WireFramesAreNoCommands : Prop :=
  ∀ s : State, s.Accepts →
    RaisesEffect s .wireNop (.illegalCommand 0x00) 18 ∧
    RaisesEffect s .wireBreak (.illegalCommand 0x04) 18 ∧
    RaisesEffect s .wireFasync (.illegalCommand 0x05) 18 ∧
    RaisesEffect s .wireFsync (.illegalCommand 0x06) 18 ∧
    ∀ (wcm1 : BitVec 5) (addr : Half) (payload : List Byte),
      RaisesEffect s (.wireData wcm1 addr payload) (.illegalCommand (wcm1.setWidth 8 ||| 0xE0)) 18

/-! ## Register access -/

/-- R121, R130: `INIT` in every state that takes a command, with the environment's answer whatever it is. The queue the
answer is the head of, and that the queue loses it and the count of draws grows, are the model's (log entry 2). -/
def Obligations.InitSetsMapped : Prop :=
  ∀ s : State, s.Accepts → ∃ ok : Bool, (∀ b q, s.env.mapOk = b :: q → ok = b) ∧
    exec .init s = .next { s with
      mapped := ok
      result := if ok then 1 else 0
      cause := if ok then s.cause else 1
      trace := s.trace ++ [.map ok]
      pc := s.pc + 1
      pos := s.pos + 1
      env := { s.env with mapOk := s.env.mapOk.tail, drawn := s.env.drawn + 1 } }

/-- R120: the three pin function commands, for every legal pin and function. -/
def Obligations.PinFunctionIsWritten : Prop :=
  ∀ (s : State) (pin : Byte), s.Accepts → s.mapped = true → s.cfg.npins ≤ 60 → pin.toNat < s.cfg.npins →
    PinFnEffect s (.pinInp pin) pin.toNat .inp 2 ∧
    PinFnEffect s (.pinOut pin) pin.toNat .out 2 ∧
    PinFnEffect s (.pinAlt pin 0) pin.toNat .alt0 3 ∧
    PinFnEffect s (.pinAlt pin 1) pin.toNat .alt1 3 ∧
    PinFnEffect s (.pinAlt pin 2) pin.toNat .alt2 3 ∧
    PinFnEffect s (.pinAlt pin 3) pin.toNat .alt3 3 ∧
    PinFnEffect s (.pinAlt pin 4) pin.toNat .alt4 3 ∧
    PinFnEffect s (.pinAlt pin 5) pin.toNat .alt5 3

/-- R27, R69, R126, R127: `PIN_SET` raises and `PIN_CLR` lowers exactly the latch bits of the mask, whatever the pins'
functions, and changes nothing else. -/
def Obligations.SetAndClearLatchBits : Prop :=
  ∀ (s : State) (mask : Word), s.Accepts → s.mapped = true →
    (∃ l : Word, (∀ p, p < 32 → l.getLsbD p = (s.latch.getLsbD p || mask.getLsbD p)) ∧
      exec (.pinSet mask) s = .next { s with
        latch := l, trace := s.trace ++ [.gpioW s.cfg.setIdx mask], pc := s.pc + 1, pos := s.pos + 5 }) ∧
    (∃ l : Word, (∀ p, p < 32 → l.getLsbD p = (s.latch.getLsbD p && !mask.getLsbD p)) ∧
      exec (.pinClr mask) s = .next { s with
        latch := l, trace := s.trace ++ [.gpioW s.cfg.clrIdx mask], pc := s.pc + 1, pos := s.pos + 5 })

/-- R28, R29, R123, R124: what shows on a pin right after its function is set: an output shows its latch if it has one,
an input is not driven, and a role pin in `ALT0` is unspecified while no descriptor is in progress (log entry 14); and
R126: setting latch bits changes no pin's function, and nothing drives what is no pin. -/
def Obligations.PadFollowsTheFunction : Prop :=
  ∀ (s : State) (pin : Byte), s.Accepts → s.mapped = true → s.cfg.Valid → pin.toNat < s.cfg.npins →
    (∃ t, exec (.pinOut pin) s = .next t ∧
      t.pad pin.toNat = if pin.toNat ≤ 31 then .driven (s.latch.getLsbD pin.toNat) else .unspecified) ∧
    (∃ t, exec (.pinInp pin) s = .next t ∧ t.pad pin.toNat = .notDriven) ∧
    (∃ t, exec (.pinAlt pin 0) s = .next t ∧ t.pad pin.toNat = .unspecified) ∧
    ∀ mask : Word, ∃ t, exec (.pinSet mask) s = .next t ∧ (∀ q, t.fn q = s.fn q) ∧
      ∀ q, s.cfg.npins ≤ q → t.pad q = .notDriven

/-- R43, R80: between commands the host reads the five registers and every byte of both buffers, and nothing outside
them; while a command runs it reads nothing. That a command runs between two steps only while a submission hangs is the
model's (log entries 5 and 18). -/
def Obligations.HostReadsBetweenCommands : Prop :=
  ∀ s : State,
    (s.hung = true → s.hostRegs = none ∧ ∀ i, s.hostTx i = none ∧ s.hostRx i = none) ∧
    (s.hung = false →
      s.hostRegs = some { result := s.result, cause := s.cause, mapped := s.mapped, halted := s.halted,
                          txlen := s.txlen } ∧
      ∀ i, (s.cfg.capacity ≤ i → s.hostTx i = none ∧ s.hostRx i = none) ∧
        (i < s.cfg.capacity → s.hostTx i = some (s.txByte i) ∧ s.hostRx i = some (s.rxByte i) ∧
          (∀ b, Memory.read s.txbuf i = some b → s.hostTx i = some b) ∧
          (∀ b, Memory.read s.rxbuf i = some b → s.hostRx i = some b)))

/-! ## The reset sequencer -/

/-- R141 to R145, and the inference the spec draws from them in R146: what a reset sequence leaves, what it keeps, and
that a second one changes no state but the trace. -/
def Obligations.ResetSequenceEndState : Prop :=
  ∀ s : State, s.Accepts → s.mapped = true → s.cfg.Valid →
    ∃ t, exec .resetSeq s = .next t ∧ AfterResetSeq s t ∧
      t = { s with
        fsel := t.fsel, latch := t.latch, work := t.work, trace := s.trace ++ resetEvents s.cfg s.fsel
        pc := s.pc + 1, pos := s.pos + 1 } ∧
      exec .resetSeq t = .next { t with
        trace := t.trace ++ resetEvents t.cfg t.fsel, pc := t.pc + 1, pos := t.pos + 1 }

/-- R141 to R145, and the inference the spec draws from them in R147: one reset sequence appends exactly 73 events, 41
window writes and 32 delays, in the order given there; and with the default parameters and the start state named there,
exactly the events listed there. -/
def Obligations.ResetSequenceTrace : Prop :=
  ∀ s : State, s.Accepts → s.mapped = true →
    ∃ (t : State) (es : List Event), exec .resetSeq s = .next t ∧ t.trace = s.trace ++ es ∧
      es.length = 73 ∧
      es.countP Event.isWrite = 41 ∧
      es.countP Event.isDelay = 32 ∧
      (∃ a d : List Event, a.length = 2 ∧ d.length = 6 ∧ (∀ e ∈ a ++ d, e.isWrite = true) ∧
        es = a ++ (.gpioW s.cfg.setIdx (1#32 <<< s.cfg.pinSck) ::
          ((List.replicate 16 [Event.gpioW s.cfg.setIdx (1#32 <<< s.cfg.pinRst), .delay,
            .gpioW s.cfg.clrIdx (1#32 <<< s.cfg.pinRst), .delay]).flatten ++ d))) ∧
      (s.cfg = defaultConfig → s.fsel[0] = 0x20000000 → s.fsel[1] = 0x00000024 →
        es = [.gpioW 1 0x00000021, .gpioW 1 0x00000009, .gpioW 7 0x00000800] ++
          (List.replicate 16 [Event.gpioW 7 0x00000400, .delay, .gpioW 10 0x00000400, .delay]).flatten ++
          [.gpioW 1 0x00000008, .gpioW 1 0x0000000C, .gpioW 1 0x00000004, .gpioW 1 0x00000024,
            .gpioW 0 0x00000000, .gpioW 0 0x20000000])

/-! ## The transfer engine -/

/-- R170, and the inference the spec draws from it in R171: the descriptor table of a transfer: how many entries, what
each holds, that their lengths sum to the length, and the counts named there. -/
def Obligations.DescriptorTable : Prop :=
  (∀ (s : State) (len : Nat), len ≤ 65536 →
    (s.buildDescs len).descCnt = len / 4096 + (if len % 4096 = 0 then 0 else 1) ∧
    (s.buildDescs len).descCnt ≤ 16 ∧
    (∀ k, k < (s.buildDescs len).descCnt → ∃ d, (s.buildDescs len).desc[k]? = some d ∧
      d.txOff.toNat = 4096 * k ∧ d.rxOff.toNat = 4096 * k ∧
      d.len.toNat = (if k < len / 4096 then 4096 else len % 4096) ∧ 1 ≤ d.len.toNat ∧
      d.delayUs = 1 ∧ d.speedHz = 2000000 ∧ d.bits = 8) ∧
    ((List.range (s.buildDescs len).descCnt).map fun k =>
      (((s.buildDescs len).desc[k]?).map fun d => d.len.toNat).getD 0).sum = len) ∧
  ∀ s : State, [0, 1, 4095, 4096, 4097, 8192, 10000, 65535, 65536].map (fun len => (s.buildDescs len).descCnt) =
    [0, 1, 1, 1, 2, 2, 3, 16, 16]

/-- R160, R162, R163, R165, R166, R174, R175, R179: a transfer that the environment lets succeed. It sends
`TXBUF[0..len-1]` in order, stores what comes in at the same indices, leaves the serial registers at 0, 8 and 2000000, the
device closed and `RESULT = 0`, and is bracketed by two reset sequences. It changes no other register, flag or byte of a
buffer; the entries of the closed table (R181), the working registers (R21) and what is left of the environment's queues
are not said. Those queues, the received bytes among them, are the model's (log entry 2). -/
def Obligations.TransferExchangesTheBuffer : Prop :=
  ∀ (s : State) (len : Word), s.Accepts → s.mapped = true → s.cfg.Valid →
    len.toNat ≤ min 65536 s.cfg.capacity → s.DeviceAnswers →
    s.env.seg.take (descCount len.toNat) = List.replicate (descCount len.toNat) .ok →
    len.toNat ≤ s.env.rx.length →
    ∃ t, exec (.transfer len) s = .next t ∧
      (∀ i, Memory.read t.rxbuf i = if i < len.toNat then s.env.rx[i]? else Memory.read s.rxbuf i) ∧
      t.trace = s.trace ++ (resetEvents s.cfg s.fsel ++ (openEvents ++ (chunksEvents s len.toNat (descCount len.toNat) ++
        (.spiClose :: resetEvents s.cfg t.fsel)))) ∧
      t.result = 0 ∧ t.cause = s.cause ∧ t.spiMode = 0 ∧ t.spiBits = 8 ∧ t.spiSpeed = 2000000 ∧
      t.spiOpen = false ∧ t.descCnt = 0 ∧ t.hung = false ∧ t.pc = s.pc + 1 ∧ t.pos = s.pos + 5 ∧
      AfterResetSeq s t ∧ KeptByTransfer s t

/-- R229: the `fatal` outcome, when the environment answers that the open fails; the queue of its answers is the model's
(log entry 2). -/
def Obligations.FailedOpenHalts : Prop :=
  ∀ (s : State) (len : Word), s.Accepts → s.mapped = true → s.Inv →
    len.toNat ≤ min 65536 s.cfg.capacity → s.env.openOk.head? = some false →
    ∃ t, exec (.transfer len) s = .next t ∧ t.halted = true ∧ t.cause = 2 ∧ t.spiOpen = false ∧
      AfterResetSeq s t ∧
      t = { s with
        halted := true, cause := 2, fsel := t.fsel, latch := t.latch, work := t.work, env := t.env
        trace := s.trace ++ (resetEvents s.cfg s.fsel ++ [.spiOpen false]) }

/-- R168: the `error` outcome when configuration step `i` is the first that fails; the queues of the environment's
answers are the model's (log entry 2). -/
def Obligations.FailedConfigurationClosesTheDevice : Prop :=
  ∀ (s : State) (len : Word) (i : Nat), s.Accepts → s.mapped = true → s.cfg.Valid →
    len.toNat ≤ min 65536 s.cfg.capacity → s.env.openOk.head? = some true →
    i < 4 → s.env.cfgOk.take (i + 1) = List.replicate i true ++ [false] →
    ∃ t, exec (.transfer len) s = .next t ∧
      t.result = -1 ∧ t.cause = 3 ∧ t.spiOpen = false ∧ t.descCnt = 0 ∧ t.rxbuf = s.rxbuf ∧ t.hung = false ∧
      t.trace = s.trace ++ (resetEvents s.cfg s.fsel ++
        (.spiOpen true :: ((List.range i).map (fun j => Event.spiCfg j true) ++ [.spiCfg i false, .spiClose]))) ∧
      (1 ≤ i → t.spiMode = 0 ∧ t.spiBits = 8) ∧ (3 ≤ i → t.spiSpeed = 2000000) ∧ (i ≤ 1 → t.spiSpeed = s.spiSpeed) ∧
      t.pc = s.pc + 1 ∧ t.pos = s.pos + 5 ∧ AfterResetSeq s t ∧ KeptByTransfer s t

/-- R176, R177: the `error` outcome when descriptor `k` is the first that fails. The earlier descriptors' bytes stand;
the failed one has exchanged some prefix, with no segment delay; its receive range may hold anything and no other byte
of the receive buffer changes; no reset sequence follows. The queues of the environment's answers, of the prefix count
and of the received bytes are the model's (log entry 2). -/
def Obligations.FailedSubmissionClosesTheDevice : Prop :=
  ∀ (s : State) (len : Word) (k : Nat), s.Accepts → s.mapped = true → s.cfg.Valid →
    len.toNat ≤ min 65536 s.cfg.capacity → s.DeviceAnswers →
    k < descCount len.toNat → s.env.seg.take (k + 1) = List.replicate k .ok ++ [.fail] →
    4096 * k ≤ s.env.rx.length →
    ∃ (t : State) (rs : List Byte), exec (.transfer len) s = .next t ∧
      rs.length ≤ chunkLen len.toNat k ∧
      (∀ p q, s.env.sent = p :: q → rs.length = min p (chunkLen len.toNat k)) ∧
      (∀ i, i < 4096 * k → Memory.read t.rxbuf i = s.env.rx[i]?) ∧
      (∀ i, 4096 * k + chunkLen len.toNat k ≤ i → Memory.read t.rxbuf i = Memory.read s.rxbuf i) ∧
      t.trace = s.trace ++ (resetEvents s.cfg s.fsel ++ (openEvents ++ (chunksEvents s len.toNat k ++
        (.spiSeg k (4096 * k) (chunkLen len.toNat k) false ::
          ((List.range rs.length).map (fun j => Event.spiByte (s.txByte (4096 * k + j)) (rs.getD j 0)) ++
            [.spiClose]))))) ∧
      t.result = -1 ∧ t.cause = 4 ∧ t.spiOpen = false ∧ t.descCnt = 0 ∧ t.hung = false ∧
      t.spiMode = 0 ∧ t.spiBits = 8 ∧ t.spiSpeed = 2000000 ∧
      t.pc = s.pc + 1 ∧ t.pos = s.pos + 5 ∧ AfterResetSeq s t ∧ KeptByTransfer s t

/-- R177, R178: a submission that never returns. The device stays open, the table and its count as built, the role pins
in `ALT0`; the trace ends inside descriptor `k`, after some prefix of its words, with no segment delay, no close and no
second reset sequence; and the block takes neither a step nor a command until a hardware reset. R29: the role pins carry
their serial signals (the roles of log entry 13, the view of log entry 14).
The queues of the environment's answers and received bytes are the model's (log entry 2), and so are the field that
records the hang, the stops and the reset request (log entries 5 and 8). -/
def Obligations.HungSubmissionBlocks : Prop :=
  ∀ (s : State) (len : Word) (k : Nat), s.Accepts → s.mapped = true → s.cfg.Valid → s.resetReq = false →
    len.toNat ≤ min 65536 s.cfg.capacity → s.DeviceAnswers →
    k < descCount len.toNat → s.env.seg.take (k + 1) = List.replicate k .ok ++ [.hang] →
    4096 * k ≤ s.env.rx.length →
    ∃ (t : State) (rs : List Byte), exec (.transfer len) s = .next t ∧ t.hung = true ∧ t.spiOpen = true ∧
      t.descCnt = descCount len.toNat ∧
      (∀ j, j < descCount len.toNat → t.desc[j]? = some (descOf j (chunkLen len.toNat j))) ∧
      rs.length ≤ chunkLen len.toNat k ∧
      (∀ p q, s.env.sent = p :: q → rs.length = min p (chunkLen len.toNat k)) ∧
      t.trace = s.trace ++ (resetEvents s.cfg s.fsel ++ (openEvents ++ (chunksEvents s len.toNat k ++
        (.spiSeg k (4096 * k) (chunkLen len.toNat k) false ::
          (List.range rs.length).map (fun j => Event.spiByte (s.txByte (4096 * k + j)) (rs.getD j 0)))))) ∧
      t.spiMode = 0 ∧ t.spiBits = 8 ∧ t.spiSpeed = 2000000 ∧
      t.pad s.cfg.pinSck = .serial .clock ∧ t.pad s.cfg.pinRst = .serial .dataOut ∧
      t.pad s.cfg.pinAux = .serial .dataIn ∧
      t.pc = s.pc ∧ t.pos = s.pos ∧ t.result = s.result ∧ t.cause = s.cause ∧
      (∀ i, i < 4096 * k → Memory.read t.rxbuf i = s.env.rx[i]?) ∧
      (∀ i, 4096 * k + chunkLen len.toNat k ≤ i → Memory.read t.rxbuf i = Memory.read s.rxbuf i) ∧
      AfterResetSeq s t ∧ KeptByTransfer s t ∧
      step t = .fault .hung ∧ (∀ i, exec i t = .fault .hung) ∧
      ∃ u, step { t with resetReq := true } = .next u ∧ u.hung = false

/-- R180: a transfer of no bytes touches no receive byte and makes no exchange, whatever the environment answers; when
it answers well, two reset sequences, the open, the four configuration steps and the close all happen. -/
def Obligations.EmptyTransfer : Prop :=
  ∀ s : State, s.Accepts → s.mapped = true → s.cfg.Valid →
    ∃ (t : State) (es : List Event), exec (.transfer 0) s = .next t ∧ t.rxbuf = s.rxbuf ∧ t.trace = s.trace ++ es ∧
      (∀ e ∈ es, e.isExchange = false) ∧
      (s.DeviceAnswers → t.result = 0 ∧
        es = resetEvents s.cfg s.fsel ++ (openEvents ++ (.spiClose :: resetEvents s.cfg t.fsel)))

/-- R60, R73, R161, R162: whatever the environment answers, a transfer within its bound answers a next state, writes no
byte of the transmit buffer, not its length, and no receive byte at or above its length. -/
def Obligations.TransferStaysInItsRange : Prop :=
  ∀ (s : State) (len : Word), s.Accepts → s.mapped = true → len.toNat ≤ min 65536 s.cfg.capacity →
    ∃ t, exec (.transfer len) s = .next t ∧ t.txbuf = s.txbuf ∧ t.txlen = s.txlen ∧ t.cfg = s.cfg ∧
      t.mapped = s.mapped ∧ t.faulted = s.faulted ∧ t.faultRec = s.faultRec ∧
      ∀ i, len.toNat ≤ i → Memory.read t.rxbuf i = Memory.read s.rxbuf i

/-! ## The encoder -/

/-- R193: the capacity rule, for the procedure every append goes through and for the two append commands: the whole
string is stored, or nothing happens at all. The byte `TXBUF[C-1]` is never written and the length stays below `C`; an
append of no bytes changes nothing. -/
def Obligations.AppendStoresAllOrNothing : Prop :=
  (∀ (s : State) (bs : List Byte),
    (s.cfg.capacity ≤ s.txlen + bs.length → s.append bs = s) ∧
    (s.txlen + bs.length < s.cfg.capacity → (s.append bs).txlen = s.txlen + bs.length) ∧
    Memory.read (s.append bs).txbuf (s.cfg.capacity - 1) = Memory.read s.txbuf (s.cfg.capacity - 1) ∧
    (s.txlen < s.cfg.capacity → (s.append bs).txlen < s.cfg.capacity) ∧
    s.append [] = s) ∧
  ∀ (s : State) (n : Word) (data : List Byte), s.Accepts → data.length = n.toNat →
    (s.txlen + n.toNat < s.cfg.capacity →
      StoresEffect s (.append n data) data (5 + n.toNat) ∧
      StoresEffect s (.appendRev n data) (data.map rev8) (5 + n.toNat)) ∧
    (s.cfg.capacity ≤ s.txlen + n.toNat →
      NoEffect s (.append n data) (5 + n.toNat) ∧ NoEffect s (.appendRev n data) (5 + n.toNat))

/-- R198, R199: the two single markers, stored where one byte fits and dropped where it does not. -/
def Obligations.MarkersAreOneByte : Prop :=
  ∀ s : State, s.Accepts →
    (s.txlen + 1 < s.cfg.capacity →
      StoresEffect s .emitBreak [0x04] 1 ∧ StoresEffect s .emitFsync [0x06] 1) ∧
    (s.cfg.capacity ≤ s.txlen + 1 → NoEffect s .emitBreak 1 ∧ NoEffect s .emitFsync 1)

/-- R200: repeated emission adds `min(n, C - 1 - TXLEN)` copies, for every `n`, and ends. -/
def Obligations.RepeatedMarkersFillToTheBoundary : Prop :=
  ∀ (s : State) (n : Word) (i : Instr) (b : Byte), s.Accepts →
    (i = .emitFasync n ∧ b = 0x05 ∨ i = .emitNop n ∧ b = 0x00) →
    ∃ t, exec i s = .next t ∧
      t.txlen = s.txlen + min n.toNat (s.cfg.capacity - 1 - s.txlen) ∧
      (s.txlen + n.toNat < s.cfg.capacity → t.txlen = s.txlen + n.toNat) ∧
      (∀ a, Memory.read t.txbuf a =
        if s.txlen ≤ a ∧ a < s.txlen + min n.toNat (s.cfg.capacity - 1 - s.txlen) then some b
        else Memory.read s.txbuf a) ∧
      t = { s with
        txbuf := t.txbuf, txlen := t.txlen, work := { s.work with repI := t.work.repI }
        pc := s.pc + 1, pos := s.pos + 5 }

/-- R205, R207, R208: a data frame of valid length with room for all of it: the bytes stored are the wire encoding of
the frame. -/
def Obligations.DataFrameIsStored : Prop :=
  ∀ (s : State) (addr : Half) (len : Word) (payload : List Byte), s.Accepts →
    payload.length = len.toNat → 4 ≤ len.toNat → len.toNat ≤ 128 → len.toNat % 4 = 0 →
    s.txlen + 3 + len.toNat < s.cfg.capacity →
    StoresEffect s (.emitData addr len payload)
      ((BitVec.ofNat 8 (len.toNat / 4 - 1) ||| 0xE0) :: (addr >>> 8).setWidth 8 :: addr.setWidth 8 :: payload.map rev8)
      (7 + len.toNat) ∧
    (BitVec.ofNat 8 (len.toNat / 4 - 1) ||| 0xE0) :: (addr >>> 8).setWidth 8 :: addr.setWidth 8 :: payload.map rev8 =
      encode (.wireData (BitVec.ofNat 5 (len.toNat / 4 - 1)) addr payload)

/-- R206: a length outside 4, 8, ..., 128 is rejected with no effect. -/
def Obligations.InvalidDataLengthIsRejected : Prop :=
  ∀ (s : State) (addr : Half) (len : Word) (payload : List Byte), s.Accepts →
    (len.toNat < 4 ∨ 128 < len.toNat ∨ len.toNat % 4 ≠ 0) →
    NoEffect s (.emitData addr len payload) (7 + len.toNat)

/-- R191, R193, R205, and the inference the spec draws from them in R209: a valid data frame at the capacity boundary:
both appends, the header alone, or nothing. -/
def Obligations.DataFrameAtTheBoundary : Prop :=
  ∀ (s : State) (addr : Half) (len : Word) (payload : List Byte), s.Accepts →
    payload.length = len.toNat → 4 ≤ len.toNat → len.toNat ≤ 128 → len.toNat % 4 = 0 →
    (s.txlen + 3 + len.toNat < s.cfg.capacity →
      StoresEffect s (.emitData addr len payload)
        ([BitVec.ofNat 8 (len.toNat / 4 - 1) ||| 0xE0, (addr >>> 8).setWidth 8, addr.setWidth 8] ++ payload.map rev8)
        (7 + len.toNat)) ∧
    (s.txlen + 3 < s.cfg.capacity → s.cfg.capacity ≤ s.txlen + 3 + len.toNat →
      StoresEffect s (.emitData addr len payload)
        [BitVec.ofNat 8 (len.toNat / 4 - 1) ||| 0xE0, (addr >>> 8).setWidth 8, addr.setWidth 8] (7 + len.toNat)) ∧
    (s.cfg.capacity ≤ s.txlen + 3 → NoEffect s (.emitData addr len payload) (7 + len.toNat))

/-- R210: every encoder command that is taken ends `done`, raises nothing, and touches nothing but the buffer, its
length, `REP_I`, and the position in the stream; a halted block refuses it. -/
def Obligations.EncoderTouchesOnlyItsBuffer : Prop :=
  ∀ (s : State) (i : Instr), isEncoder i = true →
    (s.halted = true → exec i s = .refused .halted) ∧
    (s.Accepts → ∃ t, exec i s = .next t ∧
      t = { s with
        txbuf := t.txbuf, txlen := t.txlen, work := { s.work with repI := t.work.repI }
        pc := s.pc + 1, pos := s.pos + i.byteLength })

/-- R190: `CLEAR`, the one byte 0x40, resets the length and nothing else; and from any two states of one capacity,
`CLEAR` and then the same encoder commands leave the same length and the same bytes below it. -/
def Obligations.ClearedBufferIsAFreshBuffer : Prop :=
  encode .clear = [0x40] ∧
  (∀ s : State, s.Accepts →
    exec .clear s = .next { s with txlen := 0, pc := s.pc + 1, pos := s.pos + 1 }) ∧
  ∀ (s u : State) (is : List Instr), s.Accepts → u.Accepts → u.cfg.capacity = s.cfg.capacity →
    (∀ i ∈ is, isEncoder i = true) →
    ∃ t v, runAll (.clear :: is) s = some t ∧ runAll (.clear :: is) u = some v ∧ t.txlen = v.txlen ∧
      ∀ a, a < t.txlen → Memory.read t.txbuf a = Memory.read v.txbuf a

/-! ## The whole machine -/

/-- R32, R211 (7): the buffer is append-only. No command changes a byte of the message, and only `CLEAR` shortens it. -/
def Obligations.MessageIsAppendOnly : Prop :=
  ∀ (i : Instr) (s t : State), exec i s = .next t →
    (∀ a, a < s.txlen → Memory.read t.txbuf a = Memory.read s.txbuf a) ∧ (i ≠ .clear → s.txlen ≤ t.txlen)

/-- R23, R27, R30, R34, R41, R60, R131: which command writes which state. -/
def Obligations.EachStateHasItsWriters : Prop :=
  ∀ (i : Instr) (s t : State), exec i s = .next t →
    t.cfg = s.cfg ∧ t.stream = s.stream ∧ t.resetReq = s.resetReq ∧ t.epoch = s.epoch ∧
    (i ≠ .init → t.mapped = s.mapped) ∧
    (needsMapping i = false → t.fsel = s.fsel ∧ t.latch = s.latch) ∧
    (needsMapping i = false → i ≠ .init → t.trace = s.trace) ∧
    (isEncoder i = false → t.txbuf = s.txbuf ∧ t.txlen = s.txlen) ∧
    ((∀ len, i ≠ .transfer len) → t.spiMode = s.spiMode ∧ t.spiBits = s.spiBits ∧ t.spiSpeed = s.spiSpeed ∧
      t.desc = s.desc ∧ t.descCnt = s.descCnt ∧ t.spiOpen = s.spiOpen ∧ t.rxbuf = s.rxbuf ∧ t.halted = s.halted ∧
      t.hung = s.hung) ∧
    ((∀ len, i ≠ .transfer len) → i ≠ .init → t.result = s.result)

/-- R46: the invariant between commands, kept by every step: the bounds of the buffers and their canonical form, the
device closed and the table empty unless a submission hangs, the recorded fault, the values of `RESULT`.
The clause on a hanging submission and the record are in the model's own fields (log entry 5). -/
def Obligations.StepKeepsTheInvariant : Prop :=
  ∀ s t : State, s.Inv → step s = .next t → t.Inv

/-- R44, R46: the state after reset meets the invariant. -/
def Obligations.ResetMeetsTheInvariant : Prop := State.reset.Inv

/-- R21: the working registers carry no value from one command to the next. Changing them before a command changes
nothing after it but themselves. -/
def Obligations.WorkingRegistersCarryNothing : Prop :=
  ∀ (i : Instr) (s t : State) (w : Work), exec i s = .next t →
    ∃ w' : Work, exec i { s with work := w } = .next { t with work := w' }
end

