-- ==== Sys2Proof/Laws/State.lean ====
section
/-! SUPPORT. One lemma per field of State per named update of it, each true by definition (for an operation made of
others, by their lemmas), so that no proof unfolds a record update. -/

namespace Sys2Proof.Machine

variable (s : State)

/-! ## tookMap -/

@[simp] theorem State.tookMap_cfg : (s.tookMap).cfg = s.cfg := rfl
@[simp] theorem State.tookMap_mapped : (s.tookMap).mapped = s.mapped := rfl
@[simp] theorem State.tookMap_spiOpen : (s.tookMap).spiOpen = s.spiOpen := rfl
@[simp] theorem State.tookMap_halted : (s.tookMap).halted = s.halted := rfl
@[simp] theorem State.tookMap_faulted : (s.tookMap).faulted = s.faulted := rfl
@[simp] theorem State.tookMap_fsel : (s.tookMap).fsel = s.fsel := rfl
@[simp] theorem State.tookMap_latch : (s.tookMap).latch = s.latch := rfl
@[simp] theorem State.tookMap_spiMode : (s.tookMap).spiMode = s.spiMode := rfl
@[simp] theorem State.tookMap_spiBits : (s.tookMap).spiBits = s.spiBits := rfl
@[simp] theorem State.tookMap_spiSpeed : (s.tookMap).spiSpeed = s.spiSpeed := rfl
@[simp] theorem State.tookMap_desc : (s.tookMap).desc = s.desc := rfl
@[simp] theorem State.tookMap_descCnt : (s.tookMap).descCnt = s.descCnt := rfl
@[simp] theorem State.tookMap_txbuf : (s.tookMap).txbuf = s.txbuf := rfl
@[simp] theorem State.tookMap_txlen : (s.tookMap).txlen = s.txlen := rfl
@[simp] theorem State.tookMap_rxbuf : (s.tookMap).rxbuf = s.rxbuf := rfl
@[simp] theorem State.tookMap_result : (s.tookMap).result = s.result := rfl
@[simp] theorem State.tookMap_cause : (s.tookMap).cause = s.cause := rfl
@[simp] theorem State.tookMap_work : (s.tookMap).work = s.work := rfl
@[simp] theorem State.tookMap_pc : (s.tookMap).pc = s.pc := rfl
@[simp] theorem State.tookMap_stream : (s.tookMap).stream = s.stream := rfl
@[simp] theorem State.tookMap_pos : (s.tookMap).pos = s.pos := rfl
@[simp] theorem State.tookMap_trace : (s.tookMap).trace = s.trace := rfl
@[simp] theorem State.tookMap_faultRec : (s.tookMap).faultRec = s.faultRec := rfl
@[simp] theorem State.tookMap_hung : (s.tookMap).hung = s.hung := rfl
@[simp] theorem State.tookMap_resetReq : (s.tookMap).resetReq = s.resetReq := rfl
@[simp] theorem State.tookMap_epoch : (s.tookMap).epoch = s.epoch := rfl
@[simp] theorem State.tookMap_env :
    (s.tookMap).env = { s.env with mapOk := s.env.mapOk.tail, drawn := s.env.drawn + 1 } := rfl

/-! ## tookOpen -/

@[simp] theorem State.tookOpen_cfg : (s.tookOpen).cfg = s.cfg := rfl
@[simp] theorem State.tookOpen_mapped : (s.tookOpen).mapped = s.mapped := rfl
@[simp] theorem State.tookOpen_spiOpen : (s.tookOpen).spiOpen = s.spiOpen := rfl
@[simp] theorem State.tookOpen_halted : (s.tookOpen).halted = s.halted := rfl
@[simp] theorem State.tookOpen_faulted : (s.tookOpen).faulted = s.faulted := rfl
@[simp] theorem State.tookOpen_fsel : (s.tookOpen).fsel = s.fsel := rfl
@[simp] theorem State.tookOpen_latch : (s.tookOpen).latch = s.latch := rfl
@[simp] theorem State.tookOpen_spiMode : (s.tookOpen).spiMode = s.spiMode := rfl
@[simp] theorem State.tookOpen_spiBits : (s.tookOpen).spiBits = s.spiBits := rfl
@[simp] theorem State.tookOpen_spiSpeed : (s.tookOpen).spiSpeed = s.spiSpeed := rfl
@[simp] theorem State.tookOpen_desc : (s.tookOpen).desc = s.desc := rfl
@[simp] theorem State.tookOpen_descCnt : (s.tookOpen).descCnt = s.descCnt := rfl
@[simp] theorem State.tookOpen_txbuf : (s.tookOpen).txbuf = s.txbuf := rfl
@[simp] theorem State.tookOpen_txlen : (s.tookOpen).txlen = s.txlen := rfl
@[simp] theorem State.tookOpen_rxbuf : (s.tookOpen).rxbuf = s.rxbuf := rfl
@[simp] theorem State.tookOpen_result : (s.tookOpen).result = s.result := rfl
@[simp] theorem State.tookOpen_cause : (s.tookOpen).cause = s.cause := rfl
@[simp] theorem State.tookOpen_work : (s.tookOpen).work = s.work := rfl
@[simp] theorem State.tookOpen_pc : (s.tookOpen).pc = s.pc := rfl
@[simp] theorem State.tookOpen_stream : (s.tookOpen).stream = s.stream := rfl
@[simp] theorem State.tookOpen_pos : (s.tookOpen).pos = s.pos := rfl
@[simp] theorem State.tookOpen_trace : (s.tookOpen).trace = s.trace := rfl
@[simp] theorem State.tookOpen_faultRec : (s.tookOpen).faultRec = s.faultRec := rfl
@[simp] theorem State.tookOpen_hung : (s.tookOpen).hung = s.hung := rfl
@[simp] theorem State.tookOpen_resetReq : (s.tookOpen).resetReq = s.resetReq := rfl
@[simp] theorem State.tookOpen_epoch : (s.tookOpen).epoch = s.epoch := rfl
@[simp] theorem State.tookOpen_env :
    (s.tookOpen).env = { s.env with openOk := s.env.openOk.tail, drawn := s.env.drawn + 1 } := rfl

/-! ## tookCfg -/

@[simp] theorem State.tookCfg_cfg : (s.tookCfg).cfg = s.cfg := rfl
@[simp] theorem State.tookCfg_mapped : (s.tookCfg).mapped = s.mapped := rfl
@[simp] theorem State.tookCfg_spiOpen : (s.tookCfg).spiOpen = s.spiOpen := rfl
@[simp] theorem State.tookCfg_halted : (s.tookCfg).halted = s.halted := rfl
@[simp] theorem State.tookCfg_faulted : (s.tookCfg).faulted = s.faulted := rfl
@[simp] theorem State.tookCfg_fsel : (s.tookCfg).fsel = s.fsel := rfl
@[simp] theorem State.tookCfg_latch : (s.tookCfg).latch = s.latch := rfl
@[simp] theorem State.tookCfg_spiMode : (s.tookCfg).spiMode = s.spiMode := rfl
@[simp] theorem State.tookCfg_spiBits : (s.tookCfg).spiBits = s.spiBits := rfl
@[simp] theorem State.tookCfg_spiSpeed : (s.tookCfg).spiSpeed = s.spiSpeed := rfl
@[simp] theorem State.tookCfg_desc : (s.tookCfg).desc = s.desc := rfl
@[simp] theorem State.tookCfg_descCnt : (s.tookCfg).descCnt = s.descCnt := rfl
@[simp] theorem State.tookCfg_txbuf : (s.tookCfg).txbuf = s.txbuf := rfl
@[simp] theorem State.tookCfg_txlen : (s.tookCfg).txlen = s.txlen := rfl
@[simp] theorem State.tookCfg_rxbuf : (s.tookCfg).rxbuf = s.rxbuf := rfl
@[simp] theorem State.tookCfg_result : (s.tookCfg).result = s.result := rfl
@[simp] theorem State.tookCfg_cause : (s.tookCfg).cause = s.cause := rfl
@[simp] theorem State.tookCfg_work : (s.tookCfg).work = s.work := rfl
@[simp] theorem State.tookCfg_pc : (s.tookCfg).pc = s.pc := rfl
@[simp] theorem State.tookCfg_stream : (s.tookCfg).stream = s.stream := rfl
@[simp] theorem State.tookCfg_pos : (s.tookCfg).pos = s.pos := rfl
@[simp] theorem State.tookCfg_trace : (s.tookCfg).trace = s.trace := rfl
@[simp] theorem State.tookCfg_faultRec : (s.tookCfg).faultRec = s.faultRec := rfl
@[simp] theorem State.tookCfg_hung : (s.tookCfg).hung = s.hung := rfl
@[simp] theorem State.tookCfg_resetReq : (s.tookCfg).resetReq = s.resetReq := rfl
@[simp] theorem State.tookCfg_epoch : (s.tookCfg).epoch = s.epoch := rfl
@[simp] theorem State.tookCfg_env :
    (s.tookCfg).env = { s.env with cfgOk := s.env.cfgOk.tail, drawn := s.env.drawn + 1 } := rfl

/-! ## tookSeg -/

@[simp] theorem State.tookSeg_cfg : (s.tookSeg).cfg = s.cfg := rfl
@[simp] theorem State.tookSeg_mapped : (s.tookSeg).mapped = s.mapped := rfl
@[simp] theorem State.tookSeg_spiOpen : (s.tookSeg).spiOpen = s.spiOpen := rfl
@[simp] theorem State.tookSeg_halted : (s.tookSeg).halted = s.halted := rfl
@[simp] theorem State.tookSeg_faulted : (s.tookSeg).faulted = s.faulted := rfl
@[simp] theorem State.tookSeg_fsel : (s.tookSeg).fsel = s.fsel := rfl
@[simp] theorem State.tookSeg_latch : (s.tookSeg).latch = s.latch := rfl
@[simp] theorem State.tookSeg_spiMode : (s.tookSeg).spiMode = s.spiMode := rfl
@[simp] theorem State.tookSeg_spiBits : (s.tookSeg).spiBits = s.spiBits := rfl
@[simp] theorem State.tookSeg_spiSpeed : (s.tookSeg).spiSpeed = s.spiSpeed := rfl
@[simp] theorem State.tookSeg_desc : (s.tookSeg).desc = s.desc := rfl
@[simp] theorem State.tookSeg_descCnt : (s.tookSeg).descCnt = s.descCnt := rfl
@[simp] theorem State.tookSeg_txbuf : (s.tookSeg).txbuf = s.txbuf := rfl
@[simp] theorem State.tookSeg_txlen : (s.tookSeg).txlen = s.txlen := rfl
@[simp] theorem State.tookSeg_rxbuf : (s.tookSeg).rxbuf = s.rxbuf := rfl
@[simp] theorem State.tookSeg_result : (s.tookSeg).result = s.result := rfl
@[simp] theorem State.tookSeg_cause : (s.tookSeg).cause = s.cause := rfl
@[simp] theorem State.tookSeg_work : (s.tookSeg).work = s.work := rfl
@[simp] theorem State.tookSeg_pc : (s.tookSeg).pc = s.pc := rfl
@[simp] theorem State.tookSeg_stream : (s.tookSeg).stream = s.stream := rfl
@[simp] theorem State.tookSeg_pos : (s.tookSeg).pos = s.pos := rfl
@[simp] theorem State.tookSeg_trace : (s.tookSeg).trace = s.trace := rfl
@[simp] theorem State.tookSeg_faultRec : (s.tookSeg).faultRec = s.faultRec := rfl
@[simp] theorem State.tookSeg_hung : (s.tookSeg).hung = s.hung := rfl
@[simp] theorem State.tookSeg_resetReq : (s.tookSeg).resetReq = s.resetReq := rfl
@[simp] theorem State.tookSeg_epoch : (s.tookSeg).epoch = s.epoch := rfl
@[simp] theorem State.tookSeg_env :
    (s.tookSeg).env = { s.env with seg := s.env.seg.tail, drawn := s.env.drawn + 1 } := rfl

/-! ## tookSent -/

@[simp] theorem State.tookSent_cfg : (s.tookSent).cfg = s.cfg := rfl
@[simp] theorem State.tookSent_mapped : (s.tookSent).mapped = s.mapped := rfl
@[simp] theorem State.tookSent_spiOpen : (s.tookSent).spiOpen = s.spiOpen := rfl
@[simp] theorem State.tookSent_halted : (s.tookSent).halted = s.halted := rfl
@[simp] theorem State.tookSent_faulted : (s.tookSent).faulted = s.faulted := rfl
@[simp] theorem State.tookSent_fsel : (s.tookSent).fsel = s.fsel := rfl
@[simp] theorem State.tookSent_latch : (s.tookSent).latch = s.latch := rfl
@[simp] theorem State.tookSent_spiMode : (s.tookSent).spiMode = s.spiMode := rfl
@[simp] theorem State.tookSent_spiBits : (s.tookSent).spiBits = s.spiBits := rfl
@[simp] theorem State.tookSent_spiSpeed : (s.tookSent).spiSpeed = s.spiSpeed := rfl
@[simp] theorem State.tookSent_desc : (s.tookSent).desc = s.desc := rfl
@[simp] theorem State.tookSent_descCnt : (s.tookSent).descCnt = s.descCnt := rfl
@[simp] theorem State.tookSent_txbuf : (s.tookSent).txbuf = s.txbuf := rfl
@[simp] theorem State.tookSent_txlen : (s.tookSent).txlen = s.txlen := rfl
@[simp] theorem State.tookSent_rxbuf : (s.tookSent).rxbuf = s.rxbuf := rfl
@[simp] theorem State.tookSent_result : (s.tookSent).result = s.result := rfl
@[simp] theorem State.tookSent_cause : (s.tookSent).cause = s.cause := rfl
@[simp] theorem State.tookSent_work : (s.tookSent).work = s.work := rfl
@[simp] theorem State.tookSent_pc : (s.tookSent).pc = s.pc := rfl
@[simp] theorem State.tookSent_stream : (s.tookSent).stream = s.stream := rfl
@[simp] theorem State.tookSent_pos : (s.tookSent).pos = s.pos := rfl
@[simp] theorem State.tookSent_trace : (s.tookSent).trace = s.trace := rfl
@[simp] theorem State.tookSent_faultRec : (s.tookSent).faultRec = s.faultRec := rfl
@[simp] theorem State.tookSent_hung : (s.tookSent).hung = s.hung := rfl
@[simp] theorem State.tookSent_resetReq : (s.tookSent).resetReq = s.resetReq := rfl
@[simp] theorem State.tookSent_epoch : (s.tookSent).epoch = s.epoch := rfl
@[simp] theorem State.tookSent_env :
    (s.tookSent).env = { s.env with sent := s.env.sent.tail, drawn := s.env.drawn + 1 } := rfl

/-! ## tookRx -/

@[simp] theorem State.tookRx_cfg : (s.tookRx).cfg = s.cfg := rfl
@[simp] theorem State.tookRx_mapped : (s.tookRx).mapped = s.mapped := rfl
@[simp] theorem State.tookRx_spiOpen : (s.tookRx).spiOpen = s.spiOpen := rfl
@[simp] theorem State.tookRx_halted : (s.tookRx).halted = s.halted := rfl
@[simp] theorem State.tookRx_faulted : (s.tookRx).faulted = s.faulted := rfl
@[simp] theorem State.tookRx_fsel : (s.tookRx).fsel = s.fsel := rfl
@[simp] theorem State.tookRx_latch : (s.tookRx).latch = s.latch := rfl
@[simp] theorem State.tookRx_spiMode : (s.tookRx).spiMode = s.spiMode := rfl
@[simp] theorem State.tookRx_spiBits : (s.tookRx).spiBits = s.spiBits := rfl
@[simp] theorem State.tookRx_spiSpeed : (s.tookRx).spiSpeed = s.spiSpeed := rfl
@[simp] theorem State.tookRx_desc : (s.tookRx).desc = s.desc := rfl
@[simp] theorem State.tookRx_descCnt : (s.tookRx).descCnt = s.descCnt := rfl
@[simp] theorem State.tookRx_txbuf : (s.tookRx).txbuf = s.txbuf := rfl
@[simp] theorem State.tookRx_txlen : (s.tookRx).txlen = s.txlen := rfl
@[simp] theorem State.tookRx_rxbuf : (s.tookRx).rxbuf = s.rxbuf := rfl
@[simp] theorem State.tookRx_result : (s.tookRx).result = s.result := rfl
@[simp] theorem State.tookRx_cause : (s.tookRx).cause = s.cause := rfl
@[simp] theorem State.tookRx_work : (s.tookRx).work = s.work := rfl
@[simp] theorem State.tookRx_pc : (s.tookRx).pc = s.pc := rfl
@[simp] theorem State.tookRx_stream : (s.tookRx).stream = s.stream := rfl
@[simp] theorem State.tookRx_pos : (s.tookRx).pos = s.pos := rfl
@[simp] theorem State.tookRx_trace : (s.tookRx).trace = s.trace := rfl
@[simp] theorem State.tookRx_faultRec : (s.tookRx).faultRec = s.faultRec := rfl
@[simp] theorem State.tookRx_hung : (s.tookRx).hung = s.hung := rfl
@[simp] theorem State.tookRx_resetReq : (s.tookRx).resetReq = s.resetReq := rfl
@[simp] theorem State.tookRx_epoch : (s.tookRx).epoch = s.epoch := rfl
@[simp] theorem State.tookRx_env : (s.tookRx).env = { s.env with rx := s.env.rx.tail, drawn := s.env.drawn + 1 } := rfl

/-! ## tookByte -/

@[simp] theorem State.tookByte_cfg : (s.tookByte).cfg = s.cfg := rfl
@[simp] theorem State.tookByte_mapped : (s.tookByte).mapped = s.mapped := rfl
@[simp] theorem State.tookByte_spiOpen : (s.tookByte).spiOpen = s.spiOpen := rfl
@[simp] theorem State.tookByte_halted : (s.tookByte).halted = s.halted := rfl
@[simp] theorem State.tookByte_faulted : (s.tookByte).faulted = s.faulted := rfl
@[simp] theorem State.tookByte_fsel : (s.tookByte).fsel = s.fsel := rfl
@[simp] theorem State.tookByte_latch : (s.tookByte).latch = s.latch := rfl
@[simp] theorem State.tookByte_spiMode : (s.tookByte).spiMode = s.spiMode := rfl
@[simp] theorem State.tookByte_spiBits : (s.tookByte).spiBits = s.spiBits := rfl
@[simp] theorem State.tookByte_spiSpeed : (s.tookByte).spiSpeed = s.spiSpeed := rfl
@[simp] theorem State.tookByte_desc : (s.tookByte).desc = s.desc := rfl
@[simp] theorem State.tookByte_descCnt : (s.tookByte).descCnt = s.descCnt := rfl
@[simp] theorem State.tookByte_txbuf : (s.tookByte).txbuf = s.txbuf := rfl
@[simp] theorem State.tookByte_txlen : (s.tookByte).txlen = s.txlen := rfl
@[simp] theorem State.tookByte_rxbuf : (s.tookByte).rxbuf = s.rxbuf := rfl
@[simp] theorem State.tookByte_result : (s.tookByte).result = s.result := rfl
@[simp] theorem State.tookByte_cause : (s.tookByte).cause = s.cause := rfl
@[simp] theorem State.tookByte_work : (s.tookByte).work = s.work := rfl
@[simp] theorem State.tookByte_pc : (s.tookByte).pc = s.pc := rfl
@[simp] theorem State.tookByte_stream : (s.tookByte).stream = s.stream := rfl
@[simp] theorem State.tookByte_pos : (s.tookByte).pos = s.pos := rfl
@[simp] theorem State.tookByte_trace : (s.tookByte).trace = s.trace := rfl
@[simp] theorem State.tookByte_faultRec : (s.tookByte).faultRec = s.faultRec := rfl
@[simp] theorem State.tookByte_hung : (s.tookByte).hung = s.hung := rfl
@[simp] theorem State.tookByte_resetReq : (s.tookByte).resetReq = s.resetReq := rfl
@[simp] theorem State.tookByte_epoch : (s.tookByte).epoch = s.epoch := rfl
@[simp] theorem State.tookByte_env :
    (s.tookByte).env = { s.env with anyByte := s.env.anyByte.tail, drawn := s.env.drawn + 1 } := rfl

/-! ## tookWord -/

@[simp] theorem State.tookWord_cfg : (s.tookWord).cfg = s.cfg := rfl
@[simp] theorem State.tookWord_mapped : (s.tookWord).mapped = s.mapped := rfl
@[simp] theorem State.tookWord_spiOpen : (s.tookWord).spiOpen = s.spiOpen := rfl
@[simp] theorem State.tookWord_halted : (s.tookWord).halted = s.halted := rfl
@[simp] theorem State.tookWord_faulted : (s.tookWord).faulted = s.faulted := rfl
@[simp] theorem State.tookWord_fsel : (s.tookWord).fsel = s.fsel := rfl
@[simp] theorem State.tookWord_latch : (s.tookWord).latch = s.latch := rfl
@[simp] theorem State.tookWord_spiMode : (s.tookWord).spiMode = s.spiMode := rfl
@[simp] theorem State.tookWord_spiBits : (s.tookWord).spiBits = s.spiBits := rfl
@[simp] theorem State.tookWord_spiSpeed : (s.tookWord).spiSpeed = s.spiSpeed := rfl
@[simp] theorem State.tookWord_desc : (s.tookWord).desc = s.desc := rfl
@[simp] theorem State.tookWord_descCnt : (s.tookWord).descCnt = s.descCnt := rfl
@[simp] theorem State.tookWord_txbuf : (s.tookWord).txbuf = s.txbuf := rfl
@[simp] theorem State.tookWord_txlen : (s.tookWord).txlen = s.txlen := rfl
@[simp] theorem State.tookWord_rxbuf : (s.tookWord).rxbuf = s.rxbuf := rfl
@[simp] theorem State.tookWord_result : (s.tookWord).result = s.result := rfl
@[simp] theorem State.tookWord_cause : (s.tookWord).cause = s.cause := rfl
@[simp] theorem State.tookWord_work : (s.tookWord).work = s.work := rfl
@[simp] theorem State.tookWord_pc : (s.tookWord).pc = s.pc := rfl
@[simp] theorem State.tookWord_stream : (s.tookWord).stream = s.stream := rfl
@[simp] theorem State.tookWord_pos : (s.tookWord).pos = s.pos := rfl
@[simp] theorem State.tookWord_trace : (s.tookWord).trace = s.trace := rfl
@[simp] theorem State.tookWord_faultRec : (s.tookWord).faultRec = s.faultRec := rfl
@[simp] theorem State.tookWord_hung : (s.tookWord).hung = s.hung := rfl
@[simp] theorem State.tookWord_resetReq : (s.tookWord).resetReq = s.resetReq := rfl
@[simp] theorem State.tookWord_epoch : (s.tookWord).epoch = s.epoch := rfl
@[simp] theorem State.tookWord_env :
    (s.tookWord).env = { s.env with anyWord := s.env.anyWord.tail, drawn := s.env.drawn + 1 } := rfl

/-! ## tookTable -/

@[simp] theorem State.tookTable_cfg : (s.tookTable).cfg = s.cfg := rfl
@[simp] theorem State.tookTable_mapped : (s.tookTable).mapped = s.mapped := rfl
@[simp] theorem State.tookTable_spiOpen : (s.tookTable).spiOpen = s.spiOpen := rfl
@[simp] theorem State.tookTable_halted : (s.tookTable).halted = s.halted := rfl
@[simp] theorem State.tookTable_faulted : (s.tookTable).faulted = s.faulted := rfl
@[simp] theorem State.tookTable_fsel : (s.tookTable).fsel = s.fsel := rfl
@[simp] theorem State.tookTable_latch : (s.tookTable).latch = s.latch := rfl
@[simp] theorem State.tookTable_spiMode : (s.tookTable).spiMode = s.spiMode := rfl
@[simp] theorem State.tookTable_spiBits : (s.tookTable).spiBits = s.spiBits := rfl
@[simp] theorem State.tookTable_spiSpeed : (s.tookTable).spiSpeed = s.spiSpeed := rfl
@[simp] theorem State.tookTable_desc : (s.tookTable).desc = s.desc := rfl
@[simp] theorem State.tookTable_descCnt : (s.tookTable).descCnt = s.descCnt := rfl
@[simp] theorem State.tookTable_txbuf : (s.tookTable).txbuf = s.txbuf := rfl
@[simp] theorem State.tookTable_txlen : (s.tookTable).txlen = s.txlen := rfl
@[simp] theorem State.tookTable_rxbuf : (s.tookTable).rxbuf = s.rxbuf := rfl
@[simp] theorem State.tookTable_result : (s.tookTable).result = s.result := rfl
@[simp] theorem State.tookTable_cause : (s.tookTable).cause = s.cause := rfl
@[simp] theorem State.tookTable_work : (s.tookTable).work = s.work := rfl
@[simp] theorem State.tookTable_pc : (s.tookTable).pc = s.pc := rfl
@[simp] theorem State.tookTable_stream : (s.tookTable).stream = s.stream := rfl
@[simp] theorem State.tookTable_pos : (s.tookTable).pos = s.pos := rfl
@[simp] theorem State.tookTable_trace : (s.tookTable).trace = s.trace := rfl
@[simp] theorem State.tookTable_faultRec : (s.tookTable).faultRec = s.faultRec := rfl
@[simp] theorem State.tookTable_hung : (s.tookTable).hung = s.hung := rfl
@[simp] theorem State.tookTable_resetReq : (s.tookTable).resetReq = s.resetReq := rfl
@[simp] theorem State.tookTable_epoch : (s.tookTable).epoch = s.epoch := rfl
@[simp] theorem State.tookTable_env :
    (s.tookTable).env = { s.env with anyTable := s.env.anyTable.tail, drawn := s.env.drawn + 1 } := rfl

/-! ## setMapped -/

@[simp] theorem State.setMapped_cfg (ok : Bool) : (s.setMapped ok).cfg = s.cfg := rfl
@[simp] theorem State.setMapped_mapped (ok : Bool) : (s.setMapped ok).mapped = ok := rfl
@[simp] theorem State.setMapped_spiOpen (ok : Bool) : (s.setMapped ok).spiOpen = s.spiOpen := rfl
@[simp] theorem State.setMapped_halted (ok : Bool) : (s.setMapped ok).halted = s.halted := rfl
@[simp] theorem State.setMapped_faulted (ok : Bool) : (s.setMapped ok).faulted = s.faulted := rfl
@[simp] theorem State.setMapped_fsel (ok : Bool) : (s.setMapped ok).fsel = s.fsel := rfl
@[simp] theorem State.setMapped_latch (ok : Bool) : (s.setMapped ok).latch = s.latch := rfl
@[simp] theorem State.setMapped_spiMode (ok : Bool) : (s.setMapped ok).spiMode = s.spiMode := rfl
@[simp] theorem State.setMapped_spiBits (ok : Bool) : (s.setMapped ok).spiBits = s.spiBits := rfl
@[simp] theorem State.setMapped_spiSpeed (ok : Bool) : (s.setMapped ok).spiSpeed = s.spiSpeed := rfl
@[simp] theorem State.setMapped_desc (ok : Bool) : (s.setMapped ok).desc = s.desc := rfl
@[simp] theorem State.setMapped_descCnt (ok : Bool) : (s.setMapped ok).descCnt = s.descCnt := rfl
@[simp] theorem State.setMapped_txbuf (ok : Bool) : (s.setMapped ok).txbuf = s.txbuf := rfl
@[simp] theorem State.setMapped_txlen (ok : Bool) : (s.setMapped ok).txlen = s.txlen := rfl
@[simp] theorem State.setMapped_rxbuf (ok : Bool) : (s.setMapped ok).rxbuf = s.rxbuf := rfl
@[simp] theorem State.setMapped_result (ok : Bool) : (s.setMapped ok).result = s.result := rfl
@[simp] theorem State.setMapped_cause (ok : Bool) : (s.setMapped ok).cause = s.cause := rfl
@[simp] theorem State.setMapped_work (ok : Bool) : (s.setMapped ok).work = s.work := rfl
@[simp] theorem State.setMapped_pc (ok : Bool) : (s.setMapped ok).pc = s.pc := rfl
@[simp] theorem State.setMapped_stream (ok : Bool) : (s.setMapped ok).stream = s.stream := rfl
@[simp] theorem State.setMapped_pos (ok : Bool) : (s.setMapped ok).pos = s.pos := rfl
@[simp] theorem State.setMapped_trace (ok : Bool) : (s.setMapped ok).trace = s.trace := rfl
@[simp] theorem State.setMapped_faultRec (ok : Bool) : (s.setMapped ok).faultRec = s.faultRec := rfl
@[simp] theorem State.setMapped_hung (ok : Bool) : (s.setMapped ok).hung = s.hung := rfl
@[simp] theorem State.setMapped_resetReq (ok : Bool) : (s.setMapped ok).resetReq = s.resetReq := rfl
@[simp] theorem State.setMapped_epoch (ok : Bool) : (s.setMapped ok).epoch = s.epoch := rfl
@[simp] theorem State.setMapped_env (ok : Bool) : (s.setMapped ok).env = s.env := rfl

/-! ## setSpiOpen -/

@[simp] theorem State.setSpiOpen_cfg (v : Bool) : (s.setSpiOpen v).cfg = s.cfg := rfl
@[simp] theorem State.setSpiOpen_mapped (v : Bool) : (s.setSpiOpen v).mapped = s.mapped := rfl
@[simp] theorem State.setSpiOpen_spiOpen (v : Bool) : (s.setSpiOpen v).spiOpen = v := rfl
@[simp] theorem State.setSpiOpen_halted (v : Bool) : (s.setSpiOpen v).halted = s.halted := rfl
@[simp] theorem State.setSpiOpen_faulted (v : Bool) : (s.setSpiOpen v).faulted = s.faulted := rfl
@[simp] theorem State.setSpiOpen_fsel (v : Bool) : (s.setSpiOpen v).fsel = s.fsel := rfl
@[simp] theorem State.setSpiOpen_latch (v : Bool) : (s.setSpiOpen v).latch = s.latch := rfl
@[simp] theorem State.setSpiOpen_spiMode (v : Bool) : (s.setSpiOpen v).spiMode = s.spiMode := rfl
@[simp] theorem State.setSpiOpen_spiBits (v : Bool) : (s.setSpiOpen v).spiBits = s.spiBits := rfl
@[simp] theorem State.setSpiOpen_spiSpeed (v : Bool) : (s.setSpiOpen v).spiSpeed = s.spiSpeed := rfl
@[simp] theorem State.setSpiOpen_desc (v : Bool) : (s.setSpiOpen v).desc = s.desc := rfl
@[simp] theorem State.setSpiOpen_descCnt (v : Bool) : (s.setSpiOpen v).descCnt = s.descCnt := rfl
@[simp] theorem State.setSpiOpen_txbuf (v : Bool) : (s.setSpiOpen v).txbuf = s.txbuf := rfl
@[simp] theorem State.setSpiOpen_txlen (v : Bool) : (s.setSpiOpen v).txlen = s.txlen := rfl
@[simp] theorem State.setSpiOpen_rxbuf (v : Bool) : (s.setSpiOpen v).rxbuf = s.rxbuf := rfl
@[simp] theorem State.setSpiOpen_result (v : Bool) : (s.setSpiOpen v).result = s.result := rfl
@[simp] theorem State.setSpiOpen_cause (v : Bool) : (s.setSpiOpen v).cause = s.cause := rfl
@[simp] theorem State.setSpiOpen_work (v : Bool) : (s.setSpiOpen v).work = s.work := rfl
@[simp] theorem State.setSpiOpen_pc (v : Bool) : (s.setSpiOpen v).pc = s.pc := rfl
@[simp] theorem State.setSpiOpen_stream (v : Bool) : (s.setSpiOpen v).stream = s.stream := rfl
@[simp] theorem State.setSpiOpen_pos (v : Bool) : (s.setSpiOpen v).pos = s.pos := rfl
@[simp] theorem State.setSpiOpen_trace (v : Bool) : (s.setSpiOpen v).trace = s.trace := rfl
@[simp] theorem State.setSpiOpen_faultRec (v : Bool) : (s.setSpiOpen v).faultRec = s.faultRec := rfl
@[simp] theorem State.setSpiOpen_hung (v : Bool) : (s.setSpiOpen v).hung = s.hung := rfl
@[simp] theorem State.setSpiOpen_resetReq (v : Bool) : (s.setSpiOpen v).resetReq = s.resetReq := rfl
@[simp] theorem State.setSpiOpen_epoch (v : Bool) : (s.setSpiOpen v).epoch = s.epoch := rfl
@[simp] theorem State.setSpiOpen_env (v : Bool) : (s.setSpiOpen v).env = s.env := rfl

/-! ## setCause -/

@[simp] theorem State.setCause_cfg (c : Byte) : (s.setCause c).cfg = s.cfg := rfl
@[simp] theorem State.setCause_mapped (c : Byte) : (s.setCause c).mapped = s.mapped := rfl
@[simp] theorem State.setCause_spiOpen (c : Byte) : (s.setCause c).spiOpen = s.spiOpen := rfl
@[simp] theorem State.setCause_halted (c : Byte) : (s.setCause c).halted = s.halted := rfl
@[simp] theorem State.setCause_faulted (c : Byte) : (s.setCause c).faulted = s.faulted := rfl
@[simp] theorem State.setCause_fsel (c : Byte) : (s.setCause c).fsel = s.fsel := rfl
@[simp] theorem State.setCause_latch (c : Byte) : (s.setCause c).latch = s.latch := rfl
@[simp] theorem State.setCause_spiMode (c : Byte) : (s.setCause c).spiMode = s.spiMode := rfl
@[simp] theorem State.setCause_spiBits (c : Byte) : (s.setCause c).spiBits = s.spiBits := rfl
@[simp] theorem State.setCause_spiSpeed (c : Byte) : (s.setCause c).spiSpeed = s.spiSpeed := rfl
@[simp] theorem State.setCause_desc (c : Byte) : (s.setCause c).desc = s.desc := rfl
@[simp] theorem State.setCause_descCnt (c : Byte) : (s.setCause c).descCnt = s.descCnt := rfl
@[simp] theorem State.setCause_txbuf (c : Byte) : (s.setCause c).txbuf = s.txbuf := rfl
@[simp] theorem State.setCause_txlen (c : Byte) : (s.setCause c).txlen = s.txlen := rfl
@[simp] theorem State.setCause_rxbuf (c : Byte) : (s.setCause c).rxbuf = s.rxbuf := rfl
@[simp] theorem State.setCause_result (c : Byte) : (s.setCause c).result = s.result := rfl
@[simp] theorem State.setCause_cause (c : Byte) : (s.setCause c).cause = c := rfl
@[simp] theorem State.setCause_work (c : Byte) : (s.setCause c).work = s.work := rfl
@[simp] theorem State.setCause_pc (c : Byte) : (s.setCause c).pc = s.pc := rfl
@[simp] theorem State.setCause_stream (c : Byte) : (s.setCause c).stream = s.stream := rfl
@[simp] theorem State.setCause_pos (c : Byte) : (s.setCause c).pos = s.pos := rfl
@[simp] theorem State.setCause_trace (c : Byte) : (s.setCause c).trace = s.trace := rfl
@[simp] theorem State.setCause_faultRec (c : Byte) : (s.setCause c).faultRec = s.faultRec := rfl
@[simp] theorem State.setCause_hung (c : Byte) : (s.setCause c).hung = s.hung := rfl
@[simp] theorem State.setCause_resetReq (c : Byte) : (s.setCause c).resetReq = s.resetReq := rfl
@[simp] theorem State.setCause_epoch (c : Byte) : (s.setCause c).epoch = s.epoch := rfl
@[simp] theorem State.setCause_env (c : Byte) : (s.setCause c).env = s.env := rfl

/-! ## setResult -/

@[simp] theorem State.setResult_cfg (v : Word) : (s.setResult v).cfg = s.cfg := rfl
@[simp] theorem State.setResult_mapped (v : Word) : (s.setResult v).mapped = s.mapped := rfl
@[simp] theorem State.setResult_spiOpen (v : Word) : (s.setResult v).spiOpen = s.spiOpen := rfl
@[simp] theorem State.setResult_halted (v : Word) : (s.setResult v).halted = s.halted := rfl
@[simp] theorem State.setResult_faulted (v : Word) : (s.setResult v).faulted = s.faulted := rfl
@[simp] theorem State.setResult_fsel (v : Word) : (s.setResult v).fsel = s.fsel := rfl
@[simp] theorem State.setResult_latch (v : Word) : (s.setResult v).latch = s.latch := rfl
@[simp] theorem State.setResult_spiMode (v : Word) : (s.setResult v).spiMode = s.spiMode := rfl
@[simp] theorem State.setResult_spiBits (v : Word) : (s.setResult v).spiBits = s.spiBits := rfl
@[simp] theorem State.setResult_spiSpeed (v : Word) : (s.setResult v).spiSpeed = s.spiSpeed := rfl
@[simp] theorem State.setResult_desc (v : Word) : (s.setResult v).desc = s.desc := rfl
@[simp] theorem State.setResult_descCnt (v : Word) : (s.setResult v).descCnt = s.descCnt := rfl
@[simp] theorem State.setResult_txbuf (v : Word) : (s.setResult v).txbuf = s.txbuf := rfl
@[simp] theorem State.setResult_txlen (v : Word) : (s.setResult v).txlen = s.txlen := rfl
@[simp] theorem State.setResult_rxbuf (v : Word) : (s.setResult v).rxbuf = s.rxbuf := rfl
@[simp] theorem State.setResult_result (v : Word) : (s.setResult v).result = v := rfl
@[simp] theorem State.setResult_cause (v : Word) : (s.setResult v).cause = s.cause := rfl
@[simp] theorem State.setResult_work (v : Word) : (s.setResult v).work = s.work := rfl
@[simp] theorem State.setResult_pc (v : Word) : (s.setResult v).pc = s.pc := rfl
@[simp] theorem State.setResult_stream (v : Word) : (s.setResult v).stream = s.stream := rfl
@[simp] theorem State.setResult_pos (v : Word) : (s.setResult v).pos = s.pos := rfl
@[simp] theorem State.setResult_trace (v : Word) : (s.setResult v).trace = s.trace := rfl
@[simp] theorem State.setResult_faultRec (v : Word) : (s.setResult v).faultRec = s.faultRec := rfl
@[simp] theorem State.setResult_hung (v : Word) : (s.setResult v).hung = s.hung := rfl
@[simp] theorem State.setResult_resetReq (v : Word) : (s.setResult v).resetReq = s.resetReq := rfl
@[simp] theorem State.setResult_epoch (v : Word) : (s.setResult v).epoch = s.epoch := rfl
@[simp] theorem State.setResult_env (v : Word) : (s.setResult v).env = s.env := rfl

/-! ## halt -/

@[simp] theorem State.halt_cfg : (s.halt).cfg = s.cfg := rfl
@[simp] theorem State.halt_mapped : (s.halt).mapped = s.mapped := rfl
@[simp] theorem State.halt_spiOpen : (s.halt).spiOpen = s.spiOpen := rfl
@[simp] theorem State.halt_halted : (s.halt).halted = true := rfl
@[simp] theorem State.halt_faulted : (s.halt).faulted = s.faulted := rfl
@[simp] theorem State.halt_fsel : (s.halt).fsel = s.fsel := rfl
@[simp] theorem State.halt_latch : (s.halt).latch = s.latch := rfl
@[simp] theorem State.halt_spiMode : (s.halt).spiMode = s.spiMode := rfl
@[simp] theorem State.halt_spiBits : (s.halt).spiBits = s.spiBits := rfl
@[simp] theorem State.halt_spiSpeed : (s.halt).spiSpeed = s.spiSpeed := rfl
@[simp] theorem State.halt_desc : (s.halt).desc = s.desc := rfl
@[simp] theorem State.halt_descCnt : (s.halt).descCnt = s.descCnt := rfl
@[simp] theorem State.halt_txbuf : (s.halt).txbuf = s.txbuf := rfl
@[simp] theorem State.halt_txlen : (s.halt).txlen = s.txlen := rfl
@[simp] theorem State.halt_rxbuf : (s.halt).rxbuf = s.rxbuf := rfl
@[simp] theorem State.halt_result : (s.halt).result = s.result := rfl
@[simp] theorem State.halt_cause : (s.halt).cause = causeOpen := rfl
@[simp] theorem State.halt_work : (s.halt).work = s.work := rfl
@[simp] theorem State.halt_pc : (s.halt).pc = s.pc := rfl
@[simp] theorem State.halt_stream : (s.halt).stream = s.stream := rfl
@[simp] theorem State.halt_pos : (s.halt).pos = s.pos := rfl
@[simp] theorem State.halt_trace : (s.halt).trace = s.trace := rfl
@[simp] theorem State.halt_faultRec : (s.halt).faultRec = s.faultRec := rfl
@[simp] theorem State.halt_hung : (s.halt).hung = s.hung := rfl
@[simp] theorem State.halt_resetReq : (s.halt).resetReq = s.resetReq := rfl
@[simp] theorem State.halt_epoch : (s.halt).epoch = s.epoch := rfl
@[simp] theorem State.halt_env : (s.halt).env = s.env := rfl

/-! ## hang -/

@[simp] theorem State.hang_cfg : (s.hang).cfg = s.cfg := rfl
@[simp] theorem State.hang_mapped : (s.hang).mapped = s.mapped := rfl
@[simp] theorem State.hang_spiOpen : (s.hang).spiOpen = s.spiOpen := rfl
@[simp] theorem State.hang_halted : (s.hang).halted = s.halted := rfl
@[simp] theorem State.hang_faulted : (s.hang).faulted = s.faulted := rfl
@[simp] theorem State.hang_fsel : (s.hang).fsel = s.fsel := rfl
@[simp] theorem State.hang_latch : (s.hang).latch = s.latch := rfl
@[simp] theorem State.hang_spiMode : (s.hang).spiMode = s.spiMode := rfl
@[simp] theorem State.hang_spiBits : (s.hang).spiBits = s.spiBits := rfl
@[simp] theorem State.hang_spiSpeed : (s.hang).spiSpeed = s.spiSpeed := rfl
@[simp] theorem State.hang_desc : (s.hang).desc = s.desc := rfl
@[simp] theorem State.hang_descCnt : (s.hang).descCnt = s.descCnt := rfl
@[simp] theorem State.hang_txbuf : (s.hang).txbuf = s.txbuf := rfl
@[simp] theorem State.hang_txlen : (s.hang).txlen = s.txlen := rfl
@[simp] theorem State.hang_rxbuf : (s.hang).rxbuf = s.rxbuf := rfl
@[simp] theorem State.hang_result : (s.hang).result = s.result := rfl
@[simp] theorem State.hang_cause : (s.hang).cause = s.cause := rfl
@[simp] theorem State.hang_work : (s.hang).work = s.work := rfl
@[simp] theorem State.hang_pc : (s.hang).pc = s.pc := rfl
@[simp] theorem State.hang_stream : (s.hang).stream = s.stream := rfl
@[simp] theorem State.hang_pos : (s.hang).pos = s.pos := rfl
@[simp] theorem State.hang_trace : (s.hang).trace = s.trace := rfl
@[simp] theorem State.hang_faultRec : (s.hang).faultRec = s.faultRec := rfl
@[simp] theorem State.hang_hung : (s.hang).hung = true := rfl
@[simp] theorem State.hang_resetReq : (s.hang).resetReq = s.resetReq := rfl
@[simp] theorem State.hang_epoch : (s.hang).epoch = s.epoch := rfl
@[simp] theorem State.hang_env : (s.hang).env = s.env := rfl

/-! ## clearLen -/

@[simp] theorem State.clearLen_cfg : (s.clearLen).cfg = s.cfg := rfl
@[simp] theorem State.clearLen_mapped : (s.clearLen).mapped = s.mapped := rfl
@[simp] theorem State.clearLen_spiOpen : (s.clearLen).spiOpen = s.spiOpen := rfl
@[simp] theorem State.clearLen_halted : (s.clearLen).halted = s.halted := rfl
@[simp] theorem State.clearLen_faulted : (s.clearLen).faulted = s.faulted := rfl
@[simp] theorem State.clearLen_fsel : (s.clearLen).fsel = s.fsel := rfl
@[simp] theorem State.clearLen_latch : (s.clearLen).latch = s.latch := rfl
@[simp] theorem State.clearLen_spiMode : (s.clearLen).spiMode = s.spiMode := rfl
@[simp] theorem State.clearLen_spiBits : (s.clearLen).spiBits = s.spiBits := rfl
@[simp] theorem State.clearLen_spiSpeed : (s.clearLen).spiSpeed = s.spiSpeed := rfl
@[simp] theorem State.clearLen_desc : (s.clearLen).desc = s.desc := rfl
@[simp] theorem State.clearLen_descCnt : (s.clearLen).descCnt = s.descCnt := rfl
@[simp] theorem State.clearLen_txbuf : (s.clearLen).txbuf = s.txbuf := rfl
@[simp] theorem State.clearLen_txlen : (s.clearLen).txlen = 0 := rfl
@[simp] theorem State.clearLen_rxbuf : (s.clearLen).rxbuf = s.rxbuf := rfl
@[simp] theorem State.clearLen_result : (s.clearLen).result = s.result := rfl
@[simp] theorem State.clearLen_cause : (s.clearLen).cause = s.cause := rfl
@[simp] theorem State.clearLen_work : (s.clearLen).work = s.work := rfl
@[simp] theorem State.clearLen_pc : (s.clearLen).pc = s.pc := rfl
@[simp] theorem State.clearLen_stream : (s.clearLen).stream = s.stream := rfl
@[simp] theorem State.clearLen_pos : (s.clearLen).pos = s.pos := rfl
@[simp] theorem State.clearLen_trace : (s.clearLen).trace = s.trace := rfl
@[simp] theorem State.clearLen_faultRec : (s.clearLen).faultRec = s.faultRec := rfl
@[simp] theorem State.clearLen_hung : (s.clearLen).hung = s.hung := rfl
@[simp] theorem State.clearLen_resetReq : (s.clearLen).resetReq = s.resetReq := rfl
@[simp] theorem State.clearLen_epoch : (s.clearLen).epoch = s.epoch := rfl
@[simp] theorem State.clearLen_env : (s.clearLen).env = s.env := rfl

/-! ## retire -/

@[simp] theorem State.retire_cfg (n : Nat) : (s.retire n).cfg = s.cfg := rfl
@[simp] theorem State.retire_mapped (n : Nat) : (s.retire n).mapped = s.mapped := rfl
@[simp] theorem State.retire_spiOpen (n : Nat) : (s.retire n).spiOpen = s.spiOpen := rfl
@[simp] theorem State.retire_halted (n : Nat) : (s.retire n).halted = s.halted := rfl
@[simp] theorem State.retire_faulted (n : Nat) : (s.retire n).faulted = s.faulted := rfl
@[simp] theorem State.retire_fsel (n : Nat) : (s.retire n).fsel = s.fsel := rfl
@[simp] theorem State.retire_latch (n : Nat) : (s.retire n).latch = s.latch := rfl
@[simp] theorem State.retire_spiMode (n : Nat) : (s.retire n).spiMode = s.spiMode := rfl
@[simp] theorem State.retire_spiBits (n : Nat) : (s.retire n).spiBits = s.spiBits := rfl
@[simp] theorem State.retire_spiSpeed (n : Nat) : (s.retire n).spiSpeed = s.spiSpeed := rfl
@[simp] theorem State.retire_desc (n : Nat) : (s.retire n).desc = s.desc := rfl
@[simp] theorem State.retire_descCnt (n : Nat) : (s.retire n).descCnt = s.descCnt := rfl
@[simp] theorem State.retire_txbuf (n : Nat) : (s.retire n).txbuf = s.txbuf := rfl
@[simp] theorem State.retire_txlen (n : Nat) : (s.retire n).txlen = s.txlen := rfl
@[simp] theorem State.retire_rxbuf (n : Nat) : (s.retire n).rxbuf = s.rxbuf := rfl
@[simp] theorem State.retire_result (n : Nat) : (s.retire n).result = s.result := rfl
@[simp] theorem State.retire_cause (n : Nat) : (s.retire n).cause = s.cause := rfl
@[simp] theorem State.retire_work (n : Nat) : (s.retire n).work = s.work := rfl
@[simp] theorem State.retire_pc (n : Nat) : (s.retire n).pc = s.pc + 1 := rfl
@[simp] theorem State.retire_stream (n : Nat) : (s.retire n).stream = s.stream := rfl
@[simp] theorem State.retire_pos (n : Nat) : (s.retire n).pos = s.pos + n := rfl
@[simp] theorem State.retire_trace (n : Nat) : (s.retire n).trace = s.trace := rfl
@[simp] theorem State.retire_faultRec (n : Nat) : (s.retire n).faultRec = s.faultRec := rfl
@[simp] theorem State.retire_hung (n : Nat) : (s.retire n).hung = s.hung := rfl
@[simp] theorem State.retire_resetReq (n : Nat) : (s.retire n).resetReq = s.resetReq := rfl
@[simp] theorem State.retire_epoch (n : Nat) : (s.retire n).epoch = s.epoch := rfl
@[simp] theorem State.retire_env (n : Nat) : (s.retire n).env = s.env := rfl

/-! ## raise -/

@[simp] theorem State.raise_cfg (x : Raised) : (s.raise x).cfg = s.cfg := rfl
@[simp] theorem State.raise_mapped (x : Raised) : (s.raise x).mapped = s.mapped := rfl
@[simp] theorem State.raise_spiOpen (x : Raised) : (s.raise x).spiOpen = s.spiOpen := rfl
@[simp] theorem State.raise_halted (x : Raised) : (s.raise x).halted = s.halted := rfl
@[simp] theorem State.raise_faulted (x : Raised) : (s.raise x).faulted = true := rfl
@[simp] theorem State.raise_fsel (x : Raised) : (s.raise x).fsel = s.fsel := rfl
@[simp] theorem State.raise_latch (x : Raised) : (s.raise x).latch = s.latch := rfl
@[simp] theorem State.raise_spiMode (x : Raised) : (s.raise x).spiMode = s.spiMode := rfl
@[simp] theorem State.raise_spiBits (x : Raised) : (s.raise x).spiBits = s.spiBits := rfl
@[simp] theorem State.raise_spiSpeed (x : Raised) : (s.raise x).spiSpeed = s.spiSpeed := rfl
@[simp] theorem State.raise_desc (x : Raised) : (s.raise x).desc = s.desc := rfl
@[simp] theorem State.raise_descCnt (x : Raised) : (s.raise x).descCnt = s.descCnt := rfl
@[simp] theorem State.raise_txbuf (x : Raised) : (s.raise x).txbuf = s.txbuf := rfl
@[simp] theorem State.raise_txlen (x : Raised) : (s.raise x).txlen = s.txlen := rfl
@[simp] theorem State.raise_rxbuf (x : Raised) : (s.raise x).rxbuf = s.rxbuf := rfl
@[simp] theorem State.raise_result (x : Raised) : (s.raise x).result = s.result := rfl
@[simp] theorem State.raise_cause (x : Raised) : (s.raise x).cause = x.code := rfl
@[simp] theorem State.raise_work (x : Raised) : (s.raise x).work = s.work := rfl
@[simp] theorem State.raise_pc (x : Raised) : (s.raise x).pc = s.pc := rfl
@[simp] theorem State.raise_stream (x : Raised) : (s.raise x).stream = s.stream := rfl
@[simp] theorem State.raise_pos (x : Raised) : (s.raise x).pos = s.pos := rfl
@[simp] theorem State.raise_trace (x : Raised) : (s.raise x).trace = s.trace := rfl
@[simp] theorem State.raise_faultRec (x : Raised) : (s.raise x).faultRec = some x := rfl
@[simp] theorem State.raise_hung (x : Raised) : (s.raise x).hung = s.hung := rfl
@[simp] theorem State.raise_resetReq (x : Raised) : (s.raise x).resetReq = s.resetReq := rfl
@[simp] theorem State.raise_epoch (x : Raised) : (s.raise x).epoch = s.epoch := rfl
@[simp] theorem State.raise_env (x : Raised) : (s.raise x).env = s.env := rfl

/-! ## fail -/

@[simp] theorem State.fail_cfg (c : Byte) : (s.fail c).cfg = s.cfg := rfl
@[simp] theorem State.fail_mapped (c : Byte) : (s.fail c).mapped = s.mapped := rfl
@[simp] theorem State.fail_spiOpen (c : Byte) : (s.fail c).spiOpen = s.spiOpen := rfl
@[simp] theorem State.fail_halted (c : Byte) : (s.fail c).halted = s.halted := rfl
@[simp] theorem State.fail_faulted (c : Byte) : (s.fail c).faulted = s.faulted := rfl
@[simp] theorem State.fail_fsel (c : Byte) : (s.fail c).fsel = s.fsel := rfl
@[simp] theorem State.fail_latch (c : Byte) : (s.fail c).latch = s.latch := rfl
@[simp] theorem State.fail_spiMode (c : Byte) : (s.fail c).spiMode = s.spiMode := rfl
@[simp] theorem State.fail_spiBits (c : Byte) : (s.fail c).spiBits = s.spiBits := rfl
@[simp] theorem State.fail_spiSpeed (c : Byte) : (s.fail c).spiSpeed = s.spiSpeed := rfl
@[simp] theorem State.fail_desc (c : Byte) : (s.fail c).desc = s.desc := rfl
@[simp] theorem State.fail_descCnt (c : Byte) : (s.fail c).descCnt = s.descCnt := rfl
@[simp] theorem State.fail_txbuf (c : Byte) : (s.fail c).txbuf = s.txbuf := rfl
@[simp] theorem State.fail_txlen (c : Byte) : (s.fail c).txlen = s.txlen := rfl
@[simp] theorem State.fail_rxbuf (c : Byte) : (s.fail c).rxbuf = s.rxbuf := rfl
@[simp] theorem State.fail_result (c : Byte) : (s.fail c).result = -1 := rfl
@[simp] theorem State.fail_cause (c : Byte) : (s.fail c).cause = c := rfl
@[simp] theorem State.fail_work (c : Byte) : (s.fail c).work = s.work := rfl
@[simp] theorem State.fail_pc (c : Byte) : (s.fail c).pc = s.pc := rfl
@[simp] theorem State.fail_stream (c : Byte) : (s.fail c).stream = s.stream := rfl
@[simp] theorem State.fail_pos (c : Byte) : (s.fail c).pos = s.pos := rfl
@[simp] theorem State.fail_trace (c : Byte) : (s.fail c).trace = s.trace := rfl
@[simp] theorem State.fail_faultRec (c : Byte) : (s.fail c).faultRec = s.faultRec := rfl
@[simp] theorem State.fail_hung (c : Byte) : (s.fail c).hung = s.hung := rfl
@[simp] theorem State.fail_resetReq (c : Byte) : (s.fail c).resetReq = s.resetReq := rfl
@[simp] theorem State.fail_epoch (c : Byte) : (s.fail c).epoch = s.epoch := rfl
@[simp] theorem State.fail_env (c : Byte) : (s.fail c).env = s.env := rfl

/-! ## emit -/

@[simp] theorem State.emit_cfg (e : Event) : (s.emit e).cfg = s.cfg := rfl
@[simp] theorem State.emit_mapped (e : Event) : (s.emit e).mapped = s.mapped := rfl
@[simp] theorem State.emit_spiOpen (e : Event) : (s.emit e).spiOpen = s.spiOpen := rfl
@[simp] theorem State.emit_halted (e : Event) : (s.emit e).halted = s.halted := rfl
@[simp] theorem State.emit_faulted (e : Event) : (s.emit e).faulted = s.faulted := rfl
@[simp] theorem State.emit_fsel (e : Event) : (s.emit e).fsel = s.fsel := rfl
@[simp] theorem State.emit_latch (e : Event) : (s.emit e).latch = s.latch := rfl
@[simp] theorem State.emit_spiMode (e : Event) : (s.emit e).spiMode = s.spiMode := rfl
@[simp] theorem State.emit_spiBits (e : Event) : (s.emit e).spiBits = s.spiBits := rfl
@[simp] theorem State.emit_spiSpeed (e : Event) : (s.emit e).spiSpeed = s.spiSpeed := rfl
@[simp] theorem State.emit_desc (e : Event) : (s.emit e).desc = s.desc := rfl
@[simp] theorem State.emit_descCnt (e : Event) : (s.emit e).descCnt = s.descCnt := rfl
@[simp] theorem State.emit_txbuf (e : Event) : (s.emit e).txbuf = s.txbuf := rfl
@[simp] theorem State.emit_txlen (e : Event) : (s.emit e).txlen = s.txlen := rfl
@[simp] theorem State.emit_rxbuf (e : Event) : (s.emit e).rxbuf = s.rxbuf := rfl
@[simp] theorem State.emit_result (e : Event) : (s.emit e).result = s.result := rfl
@[simp] theorem State.emit_cause (e : Event) : (s.emit e).cause = s.cause := rfl
@[simp] theorem State.emit_work (e : Event) : (s.emit e).work = s.work := rfl
@[simp] theorem State.emit_pc (e : Event) : (s.emit e).pc = s.pc := rfl
@[simp] theorem State.emit_stream (e : Event) : (s.emit e).stream = s.stream := rfl
@[simp] theorem State.emit_pos (e : Event) : (s.emit e).pos = s.pos := rfl
@[simp] theorem State.emit_trace (e : Event) : (s.emit e).trace = s.trace ++ [e] := rfl
@[simp] theorem State.emit_faultRec (e : Event) : (s.emit e).faultRec = s.faultRec := rfl
@[simp] theorem State.emit_hung (e : Event) : (s.emit e).hung = s.hung := rfl
@[simp] theorem State.emit_resetReq (e : Event) : (s.emit e).resetReq = s.resetReq := rfl
@[simp] theorem State.emit_epoch (e : Event) : (s.emit e).epoch = s.epoch := rfl
@[simp] theorem State.emit_env (e : Event) : (s.emit e).env = s.env := rfl

/-! ## writeRx -/

@[simp] theorem State.writeRx_cfg (i : Nat) (b : Byte) : (s.writeRx i b).cfg = s.cfg := rfl
@[simp] theorem State.writeRx_mapped (i : Nat) (b : Byte) : (s.writeRx i b).mapped = s.mapped := rfl
@[simp] theorem State.writeRx_spiOpen (i : Nat) (b : Byte) : (s.writeRx i b).spiOpen = s.spiOpen := rfl
@[simp] theorem State.writeRx_halted (i : Nat) (b : Byte) : (s.writeRx i b).halted = s.halted := rfl
@[simp] theorem State.writeRx_faulted (i : Nat) (b : Byte) : (s.writeRx i b).faulted = s.faulted := rfl
@[simp] theorem State.writeRx_fsel (i : Nat) (b : Byte) : (s.writeRx i b).fsel = s.fsel := rfl
@[simp] theorem State.writeRx_latch (i : Nat) (b : Byte) : (s.writeRx i b).latch = s.latch := rfl
@[simp] theorem State.writeRx_spiMode (i : Nat) (b : Byte) : (s.writeRx i b).spiMode = s.spiMode := rfl
@[simp] theorem State.writeRx_spiBits (i : Nat) (b : Byte) : (s.writeRx i b).spiBits = s.spiBits := rfl
@[simp] theorem State.writeRx_spiSpeed (i : Nat) (b : Byte) : (s.writeRx i b).spiSpeed = s.spiSpeed := rfl
@[simp] theorem State.writeRx_desc (i : Nat) (b : Byte) : (s.writeRx i b).desc = s.desc := rfl
@[simp] theorem State.writeRx_descCnt (i : Nat) (b : Byte) : (s.writeRx i b).descCnt = s.descCnt := rfl
@[simp] theorem State.writeRx_txbuf (i : Nat) (b : Byte) : (s.writeRx i b).txbuf = s.txbuf := rfl
@[simp] theorem State.writeRx_txlen (i : Nat) (b : Byte) : (s.writeRx i b).txlen = s.txlen := rfl
@[simp] theorem State.writeRx_rxbuf (i : Nat) (b : Byte) : (s.writeRx i b).rxbuf = Memory.write s.rxbuf i b := rfl
@[simp] theorem State.writeRx_result (i : Nat) (b : Byte) : (s.writeRx i b).result = s.result := rfl
@[simp] theorem State.writeRx_cause (i : Nat) (b : Byte) : (s.writeRx i b).cause = s.cause := rfl
@[simp] theorem State.writeRx_work (i : Nat) (b : Byte) : (s.writeRx i b).work = s.work := rfl
@[simp] theorem State.writeRx_pc (i : Nat) (b : Byte) : (s.writeRx i b).pc = s.pc := rfl
@[simp] theorem State.writeRx_stream (i : Nat) (b : Byte) : (s.writeRx i b).stream = s.stream := rfl
@[simp] theorem State.writeRx_pos (i : Nat) (b : Byte) : (s.writeRx i b).pos = s.pos := rfl
@[simp] theorem State.writeRx_trace (i : Nat) (b : Byte) : (s.writeRx i b).trace = s.trace := rfl
@[simp] theorem State.writeRx_faultRec (i : Nat) (b : Byte) : (s.writeRx i b).faultRec = s.faultRec := rfl
@[simp] theorem State.writeRx_hung (i : Nat) (b : Byte) : (s.writeRx i b).hung = s.hung := rfl
@[simp] theorem State.writeRx_resetReq (i : Nat) (b : Byte) : (s.writeRx i b).resetReq = s.resetReq := rfl
@[simp] theorem State.writeRx_epoch (i : Nat) (b : Byte) : (s.writeRx i b).epoch = s.epoch := rfl
@[simp] theorem State.writeRx_env (i : Nat) (b : Byte) : (s.writeRx i b).env = s.env := rfl

/-! ## writeFsel -/

@[simp] theorem State.writeFsel_cfg (k : Nat) (v : Word) : (s.writeFsel k v).cfg = s.cfg := rfl
@[simp] theorem State.writeFsel_mapped (k : Nat) (v : Word) : (s.writeFsel k v).mapped = s.mapped := rfl
@[simp] theorem State.writeFsel_spiOpen (k : Nat) (v : Word) : (s.writeFsel k v).spiOpen = s.spiOpen := rfl
@[simp] theorem State.writeFsel_halted (k : Nat) (v : Word) : (s.writeFsel k v).halted = s.halted := rfl
@[simp] theorem State.writeFsel_faulted (k : Nat) (v : Word) : (s.writeFsel k v).faulted = s.faulted := rfl
@[simp] theorem State.writeFsel_fsel (k : Nat) (v : Word) : (s.writeFsel k v).fsel = s.fsel.setIfInBounds k v := rfl
@[simp] theorem State.writeFsel_latch (k : Nat) (v : Word) : (s.writeFsel k v).latch = s.latch := rfl
@[simp] theorem State.writeFsel_spiMode (k : Nat) (v : Word) : (s.writeFsel k v).spiMode = s.spiMode := rfl
@[simp] theorem State.writeFsel_spiBits (k : Nat) (v : Word) : (s.writeFsel k v).spiBits = s.spiBits := rfl
@[simp] theorem State.writeFsel_spiSpeed (k : Nat) (v : Word) : (s.writeFsel k v).spiSpeed = s.spiSpeed := rfl
@[simp] theorem State.writeFsel_desc (k : Nat) (v : Word) : (s.writeFsel k v).desc = s.desc := rfl
@[simp] theorem State.writeFsel_descCnt (k : Nat) (v : Word) : (s.writeFsel k v).descCnt = s.descCnt := rfl
@[simp] theorem State.writeFsel_txbuf (k : Nat) (v : Word) : (s.writeFsel k v).txbuf = s.txbuf := rfl
@[simp] theorem State.writeFsel_txlen (k : Nat) (v : Word) : (s.writeFsel k v).txlen = s.txlen := rfl
@[simp] theorem State.writeFsel_rxbuf (k : Nat) (v : Word) : (s.writeFsel k v).rxbuf = s.rxbuf := rfl
@[simp] theorem State.writeFsel_result (k : Nat) (v : Word) : (s.writeFsel k v).result = s.result := rfl
@[simp] theorem State.writeFsel_cause (k : Nat) (v : Word) : (s.writeFsel k v).cause = s.cause := rfl
@[simp] theorem State.writeFsel_work (k : Nat) (v : Word) : (s.writeFsel k v).work = s.work := rfl
@[simp] theorem State.writeFsel_pc (k : Nat) (v : Word) : (s.writeFsel k v).pc = s.pc := rfl
@[simp] theorem State.writeFsel_stream (k : Nat) (v : Word) : (s.writeFsel k v).stream = s.stream := rfl
@[simp] theorem State.writeFsel_pos (k : Nat) (v : Word) : (s.writeFsel k v).pos = s.pos := rfl
@[simp] theorem State.writeFsel_trace (k : Nat) (v : Word) :
    (s.writeFsel k v).trace = s.trace ++ [.gpioW (s.cfg.fselIdx[k]?.getD 0) v] := rfl
@[simp] theorem State.writeFsel_faultRec (k : Nat) (v : Word) : (s.writeFsel k v).faultRec = s.faultRec := rfl
@[simp] theorem State.writeFsel_hung (k : Nat) (v : Word) : (s.writeFsel k v).hung = s.hung := rfl
@[simp] theorem State.writeFsel_resetReq (k : Nat) (v : Word) : (s.writeFsel k v).resetReq = s.resetReq := rfl
@[simp] theorem State.writeFsel_epoch (k : Nat) (v : Word) : (s.writeFsel k v).epoch = s.epoch := rfl
@[simp] theorem State.writeFsel_env (k : Nat) (v : Word) : (s.writeFsel k v).env = s.env := rfl

/-! ## writeSet -/

@[simp] theorem State.writeSet_cfg (m : Word) : (s.writeSet m).cfg = s.cfg := rfl
@[simp] theorem State.writeSet_mapped (m : Word) : (s.writeSet m).mapped = s.mapped := rfl
@[simp] theorem State.writeSet_spiOpen (m : Word) : (s.writeSet m).spiOpen = s.spiOpen := rfl
@[simp] theorem State.writeSet_halted (m : Word) : (s.writeSet m).halted = s.halted := rfl
@[simp] theorem State.writeSet_faulted (m : Word) : (s.writeSet m).faulted = s.faulted := rfl
@[simp] theorem State.writeSet_fsel (m : Word) : (s.writeSet m).fsel = s.fsel := rfl
@[simp] theorem State.writeSet_latch (m : Word) : (s.writeSet m).latch = s.latch ||| m := rfl
@[simp] theorem State.writeSet_spiMode (m : Word) : (s.writeSet m).spiMode = s.spiMode := rfl
@[simp] theorem State.writeSet_spiBits (m : Word) : (s.writeSet m).spiBits = s.spiBits := rfl
@[simp] theorem State.writeSet_spiSpeed (m : Word) : (s.writeSet m).spiSpeed = s.spiSpeed := rfl
@[simp] theorem State.writeSet_desc (m : Word) : (s.writeSet m).desc = s.desc := rfl
@[simp] theorem State.writeSet_descCnt (m : Word) : (s.writeSet m).descCnt = s.descCnt := rfl
@[simp] theorem State.writeSet_txbuf (m : Word) : (s.writeSet m).txbuf = s.txbuf := rfl
@[simp] theorem State.writeSet_txlen (m : Word) : (s.writeSet m).txlen = s.txlen := rfl
@[simp] theorem State.writeSet_rxbuf (m : Word) : (s.writeSet m).rxbuf = s.rxbuf := rfl
@[simp] theorem State.writeSet_result (m : Word) : (s.writeSet m).result = s.result := rfl
@[simp] theorem State.writeSet_cause (m : Word) : (s.writeSet m).cause = s.cause := rfl
@[simp] theorem State.writeSet_work (m : Word) : (s.writeSet m).work = s.work := rfl
@[simp] theorem State.writeSet_pc (m : Word) : (s.writeSet m).pc = s.pc := rfl
@[simp] theorem State.writeSet_stream (m : Word) : (s.writeSet m).stream = s.stream := rfl
@[simp] theorem State.writeSet_pos (m : Word) : (s.writeSet m).pos = s.pos := rfl
@[simp] theorem State.writeSet_trace (m : Word) : (s.writeSet m).trace = s.trace ++ [.gpioW s.cfg.setIdx m] := rfl
@[simp] theorem State.writeSet_faultRec (m : Word) : (s.writeSet m).faultRec = s.faultRec := rfl
@[simp] theorem State.writeSet_hung (m : Word) : (s.writeSet m).hung = s.hung := rfl
@[simp] theorem State.writeSet_resetReq (m : Word) : (s.writeSet m).resetReq = s.resetReq := rfl
@[simp] theorem State.writeSet_epoch (m : Word) : (s.writeSet m).epoch = s.epoch := rfl
@[simp] theorem State.writeSet_env (m : Word) : (s.writeSet m).env = s.env := rfl

/-! ## writeClr -/

@[simp] theorem State.writeClr_cfg (m : Word) : (s.writeClr m).cfg = s.cfg := rfl
@[simp] theorem State.writeClr_mapped (m : Word) : (s.writeClr m).mapped = s.mapped := rfl
@[simp] theorem State.writeClr_spiOpen (m : Word) : (s.writeClr m).spiOpen = s.spiOpen := rfl
@[simp] theorem State.writeClr_halted (m : Word) : (s.writeClr m).halted = s.halted := rfl
@[simp] theorem State.writeClr_faulted (m : Word) : (s.writeClr m).faulted = s.faulted := rfl
@[simp] theorem State.writeClr_fsel (m : Word) : (s.writeClr m).fsel = s.fsel := rfl
@[simp] theorem State.writeClr_latch (m : Word) : (s.writeClr m).latch = s.latch &&& ~~~m := rfl
@[simp] theorem State.writeClr_spiMode (m : Word) : (s.writeClr m).spiMode = s.spiMode := rfl
@[simp] theorem State.writeClr_spiBits (m : Word) : (s.writeClr m).spiBits = s.spiBits := rfl
@[simp] theorem State.writeClr_spiSpeed (m : Word) : (s.writeClr m).spiSpeed = s.spiSpeed := rfl
@[simp] theorem State.writeClr_desc (m : Word) : (s.writeClr m).desc = s.desc := rfl
@[simp] theorem State.writeClr_descCnt (m : Word) : (s.writeClr m).descCnt = s.descCnt := rfl
@[simp] theorem State.writeClr_txbuf (m : Word) : (s.writeClr m).txbuf = s.txbuf := rfl
@[simp] theorem State.writeClr_txlen (m : Word) : (s.writeClr m).txlen = s.txlen := rfl
@[simp] theorem State.writeClr_rxbuf (m : Word) : (s.writeClr m).rxbuf = s.rxbuf := rfl
@[simp] theorem State.writeClr_result (m : Word) : (s.writeClr m).result = s.result := rfl
@[simp] theorem State.writeClr_cause (m : Word) : (s.writeClr m).cause = s.cause := rfl
@[simp] theorem State.writeClr_work (m : Word) : (s.writeClr m).work = s.work := rfl
@[simp] theorem State.writeClr_pc (m : Word) : (s.writeClr m).pc = s.pc := rfl
@[simp] theorem State.writeClr_stream (m : Word) : (s.writeClr m).stream = s.stream := rfl
@[simp] theorem State.writeClr_pos (m : Word) : (s.writeClr m).pos = s.pos := rfl
@[simp] theorem State.writeClr_trace (m : Word) : (s.writeClr m).trace = s.trace ++ [.gpioW s.cfg.clrIdx m] := rfl
@[simp] theorem State.writeClr_faultRec (m : Word) : (s.writeClr m).faultRec = s.faultRec := rfl
@[simp] theorem State.writeClr_hung (m : Word) : (s.writeClr m).hung = s.hung := rfl
@[simp] theorem State.writeClr_resetReq (m : Word) : (s.writeClr m).resetReq = s.resetReq := rfl
@[simp] theorem State.writeClr_epoch (m : Word) : (s.writeClr m).epoch = s.epoch := rfl
@[simp] theorem State.writeClr_env (m : Word) : (s.writeClr m).env = s.env := rfl

/-! ## setFn -/

@[simp] theorem State.setFn_cfg (p : Nat) (f : PinFn) : (s.setFn p f).cfg = s.cfg := by simp [State.setFn]
@[simp] theorem State.setFn_mapped (p : Nat) (f : PinFn) : (s.setFn p f).mapped = s.mapped := by simp [State.setFn]
@[simp] theorem State.setFn_spiOpen (p : Nat) (f : PinFn) : (s.setFn p f).spiOpen = s.spiOpen := by simp [State.setFn]
@[simp] theorem State.setFn_halted (p : Nat) (f : PinFn) : (s.setFn p f).halted = s.halted := by simp [State.setFn]
@[simp] theorem State.setFn_faulted (p : Nat) (f : PinFn) : (s.setFn p f).faulted = s.faulted := by simp [State.setFn]
@[simp] theorem State.setFn_latch (p : Nat) (f : PinFn) : (s.setFn p f).latch = s.latch := by simp [State.setFn]
@[simp] theorem State.setFn_spiMode (p : Nat) (f : PinFn) : (s.setFn p f).spiMode = s.spiMode := by simp [State.setFn]
@[simp] theorem State.setFn_spiBits (p : Nat) (f : PinFn) : (s.setFn p f).spiBits = s.spiBits := by simp [State.setFn]
@[simp] theorem State.setFn_spiSpeed (p : Nat) (f : PinFn) :
    (s.setFn p f).spiSpeed = s.spiSpeed := by simp [State.setFn]
@[simp] theorem State.setFn_desc (p : Nat) (f : PinFn) : (s.setFn p f).desc = s.desc := by simp [State.setFn]
@[simp] theorem State.setFn_descCnt (p : Nat) (f : PinFn) : (s.setFn p f).descCnt = s.descCnt := by simp [State.setFn]
@[simp] theorem State.setFn_txbuf (p : Nat) (f : PinFn) : (s.setFn p f).txbuf = s.txbuf := by simp [State.setFn]
@[simp] theorem State.setFn_txlen (p : Nat) (f : PinFn) : (s.setFn p f).txlen = s.txlen := by simp [State.setFn]
@[simp] theorem State.setFn_rxbuf (p : Nat) (f : PinFn) : (s.setFn p f).rxbuf = s.rxbuf := by simp [State.setFn]
@[simp] theorem State.setFn_result (p : Nat) (f : PinFn) : (s.setFn p f).result = s.result := by simp [State.setFn]
@[simp] theorem State.setFn_cause (p : Nat) (f : PinFn) : (s.setFn p f).cause = s.cause := by simp [State.setFn]
@[simp] theorem State.setFn_work (p : Nat) (f : PinFn) : (s.setFn p f).work = s.work := by simp [State.setFn]
@[simp] theorem State.setFn_pc (p : Nat) (f : PinFn) : (s.setFn p f).pc = s.pc := by simp [State.setFn]
@[simp] theorem State.setFn_stream (p : Nat) (f : PinFn) : (s.setFn p f).stream = s.stream := by simp [State.setFn]
@[simp] theorem State.setFn_pos (p : Nat) (f : PinFn) : (s.setFn p f).pos = s.pos := by simp [State.setFn]
@[simp] theorem State.setFn_faultRec (p : Nat) (f : PinFn) :
    (s.setFn p f).faultRec = s.faultRec := by simp [State.setFn]
@[simp] theorem State.setFn_hung (p : Nat) (f : PinFn) : (s.setFn p f).hung = s.hung := by simp [State.setFn]
@[simp] theorem State.setFn_resetReq (p : Nat) (f : PinFn) :
    (s.setFn p f).resetReq = s.resetReq := by simp [State.setFn]
@[simp] theorem State.setFn_epoch (p : Nat) (f : PinFn) : (s.setFn p f).epoch = s.epoch := by simp [State.setFn]
@[simp] theorem State.setFn_env (p : Nat) (f : PinFn) : (s.setFn p f).env = s.env := by simp [State.setFn]

/-! ## busyWait -/

@[simp] theorem State.busyWait_cfg : (s.busyWait).cfg = s.cfg := rfl
@[simp] theorem State.busyWait_mapped : (s.busyWait).mapped = s.mapped := rfl
@[simp] theorem State.busyWait_spiOpen : (s.busyWait).spiOpen = s.spiOpen := rfl
@[simp] theorem State.busyWait_halted : (s.busyWait).halted = s.halted := rfl
@[simp] theorem State.busyWait_faulted : (s.busyWait).faulted = s.faulted := rfl
@[simp] theorem State.busyWait_fsel : (s.busyWait).fsel = s.fsel := rfl
@[simp] theorem State.busyWait_latch : (s.busyWait).latch = s.latch := rfl
@[simp] theorem State.busyWait_spiMode : (s.busyWait).spiMode = s.spiMode := rfl
@[simp] theorem State.busyWait_spiBits : (s.busyWait).spiBits = s.spiBits := rfl
@[simp] theorem State.busyWait_spiSpeed : (s.busyWait).spiSpeed = s.spiSpeed := rfl
@[simp] theorem State.busyWait_desc : (s.busyWait).desc = s.desc := rfl
@[simp] theorem State.busyWait_descCnt : (s.busyWait).descCnt = s.descCnt := rfl
@[simp] theorem State.busyWait_txbuf : (s.busyWait).txbuf = s.txbuf := rfl
@[simp] theorem State.busyWait_txlen : (s.busyWait).txlen = s.txlen := rfl
@[simp] theorem State.busyWait_rxbuf : (s.busyWait).rxbuf = s.rxbuf := rfl
@[simp] theorem State.busyWait_result : (s.busyWait).result = s.result := rfl
@[simp] theorem State.busyWait_cause : (s.busyWait).cause = s.cause := rfl
@[simp] theorem State.busyWait_work : (s.busyWait).work = { s.work with dlyI := s.cfg.rstDelayIter } := rfl
@[simp] theorem State.busyWait_pc : (s.busyWait).pc = s.pc := rfl
@[simp] theorem State.busyWait_stream : (s.busyWait).stream = s.stream := rfl
@[simp] theorem State.busyWait_pos : (s.busyWait).pos = s.pos := rfl
@[simp] theorem State.busyWait_trace : (s.busyWait).trace = s.trace ++ [.delay] := rfl
@[simp] theorem State.busyWait_faultRec : (s.busyWait).faultRec = s.faultRec := rfl
@[simp] theorem State.busyWait_hung : (s.busyWait).hung = s.hung := rfl
@[simp] theorem State.busyWait_resetReq : (s.busyWait).resetReq = s.resetReq := rfl
@[simp] theorem State.busyWait_epoch : (s.busyWait).epoch = s.epoch := rfl
@[simp] theorem State.busyWait_env : (s.busyWait).env = s.env := rfl

/-! ## startPulses -/

@[simp] theorem State.startPulses_cfg : (s.startPulses).cfg = s.cfg := rfl
@[simp] theorem State.startPulses_mapped : (s.startPulses).mapped = s.mapped := rfl
@[simp] theorem State.startPulses_spiOpen : (s.startPulses).spiOpen = s.spiOpen := rfl
@[simp] theorem State.startPulses_halted : (s.startPulses).halted = s.halted := rfl
@[simp] theorem State.startPulses_faulted : (s.startPulses).faulted = s.faulted := rfl
@[simp] theorem State.startPulses_fsel : (s.startPulses).fsel = s.fsel := rfl
@[simp] theorem State.startPulses_latch : (s.startPulses).latch = s.latch := rfl
@[simp] theorem State.startPulses_spiMode : (s.startPulses).spiMode = s.spiMode := rfl
@[simp] theorem State.startPulses_spiBits : (s.startPulses).spiBits = s.spiBits := rfl
@[simp] theorem State.startPulses_spiSpeed : (s.startPulses).spiSpeed = s.spiSpeed := rfl
@[simp] theorem State.startPulses_desc : (s.startPulses).desc = s.desc := rfl
@[simp] theorem State.startPulses_descCnt : (s.startPulses).descCnt = s.descCnt := rfl
@[simp] theorem State.startPulses_txbuf : (s.startPulses).txbuf = s.txbuf := rfl
@[simp] theorem State.startPulses_txlen : (s.startPulses).txlen = s.txlen := rfl
@[simp] theorem State.startPulses_rxbuf : (s.startPulses).rxbuf = s.rxbuf := rfl
@[simp] theorem State.startPulses_result : (s.startPulses).result = s.result := rfl
@[simp] theorem State.startPulses_cause : (s.startPulses).cause = s.cause := rfl
@[simp] theorem State.startPulses_work : (s.startPulses).work = { s.work with pulseI := 0 } := rfl
@[simp] theorem State.startPulses_pc : (s.startPulses).pc = s.pc := rfl
@[simp] theorem State.startPulses_stream : (s.startPulses).stream = s.stream := rfl
@[simp] theorem State.startPulses_pos : (s.startPulses).pos = s.pos := rfl
@[simp] theorem State.startPulses_trace : (s.startPulses).trace = s.trace := rfl
@[simp] theorem State.startPulses_faultRec : (s.startPulses).faultRec = s.faultRec := rfl
@[simp] theorem State.startPulses_hung : (s.startPulses).hung = s.hung := rfl
@[simp] theorem State.startPulses_resetReq : (s.startPulses).resetReq = s.resetReq := rfl
@[simp] theorem State.startPulses_epoch : (s.startPulses).epoch = s.epoch := rfl
@[simp] theorem State.startPulses_env : (s.startPulses).env = s.env := rfl

/-! ## startBytes -/

@[simp] theorem State.startBytes_cfg : (s.startBytes).cfg = s.cfg := rfl
@[simp] theorem State.startBytes_mapped : (s.startBytes).mapped = s.mapped := rfl
@[simp] theorem State.startBytes_spiOpen : (s.startBytes).spiOpen = s.spiOpen := rfl
@[simp] theorem State.startBytes_halted : (s.startBytes).halted = s.halted := rfl
@[simp] theorem State.startBytes_faulted : (s.startBytes).faulted = s.faulted := rfl
@[simp] theorem State.startBytes_fsel : (s.startBytes).fsel = s.fsel := rfl
@[simp] theorem State.startBytes_latch : (s.startBytes).latch = s.latch := rfl
@[simp] theorem State.startBytes_spiMode : (s.startBytes).spiMode = s.spiMode := rfl
@[simp] theorem State.startBytes_spiBits : (s.startBytes).spiBits = s.spiBits := rfl
@[simp] theorem State.startBytes_spiSpeed : (s.startBytes).spiSpeed = s.spiSpeed := rfl
@[simp] theorem State.startBytes_desc : (s.startBytes).desc = s.desc := rfl
@[simp] theorem State.startBytes_descCnt : (s.startBytes).descCnt = s.descCnt := rfl
@[simp] theorem State.startBytes_txbuf : (s.startBytes).txbuf = s.txbuf := rfl
@[simp] theorem State.startBytes_txlen : (s.startBytes).txlen = s.txlen := rfl
@[simp] theorem State.startBytes_rxbuf : (s.startBytes).rxbuf = s.rxbuf := rfl
@[simp] theorem State.startBytes_result : (s.startBytes).result = s.result := rfl
@[simp] theorem State.startBytes_cause : (s.startBytes).cause = s.cause := rfl
@[simp] theorem State.startBytes_work : (s.startBytes).work = { s.work with byteI := 0 } := rfl
@[simp] theorem State.startBytes_pc : (s.startBytes).pc = s.pc := rfl
@[simp] theorem State.startBytes_stream : (s.startBytes).stream = s.stream := rfl
@[simp] theorem State.startBytes_pos : (s.startBytes).pos = s.pos := rfl
@[simp] theorem State.startBytes_trace : (s.startBytes).trace = s.trace := rfl
@[simp] theorem State.startBytes_faultRec : (s.startBytes).faultRec = s.faultRec := rfl
@[simp] theorem State.startBytes_hung : (s.startBytes).hung = s.hung := rfl
@[simp] theorem State.startBytes_resetReq : (s.startBytes).resetReq = s.resetReq := rfl
@[simp] theorem State.startBytes_epoch : (s.startBytes).epoch = s.epoch := rfl
@[simp] theorem State.startBytes_env : (s.startBytes).env = s.env := rfl

/-! ## startChunks -/

@[simp] theorem State.startChunks_cfg : (s.startChunks).cfg = s.cfg := rfl
@[simp] theorem State.startChunks_mapped : (s.startChunks).mapped = s.mapped := rfl
@[simp] theorem State.startChunks_spiOpen : (s.startChunks).spiOpen = s.spiOpen := rfl
@[simp] theorem State.startChunks_halted : (s.startChunks).halted = s.halted := rfl
@[simp] theorem State.startChunks_faulted : (s.startChunks).faulted = s.faulted := rfl
@[simp] theorem State.startChunks_fsel : (s.startChunks).fsel = s.fsel := rfl
@[simp] theorem State.startChunks_latch : (s.startChunks).latch = s.latch := rfl
@[simp] theorem State.startChunks_spiMode : (s.startChunks).spiMode = s.spiMode := rfl
@[simp] theorem State.startChunks_spiBits : (s.startChunks).spiBits = s.spiBits := rfl
@[simp] theorem State.startChunks_spiSpeed : (s.startChunks).spiSpeed = s.spiSpeed := rfl
@[simp] theorem State.startChunks_desc : (s.startChunks).desc = s.desc := rfl
@[simp] theorem State.startChunks_descCnt : (s.startChunks).descCnt = s.descCnt := rfl
@[simp] theorem State.startChunks_txbuf : (s.startChunks).txbuf = s.txbuf := rfl
@[simp] theorem State.startChunks_txlen : (s.startChunks).txlen = s.txlen := rfl
@[simp] theorem State.startChunks_rxbuf : (s.startChunks).rxbuf = s.rxbuf := rfl
@[simp] theorem State.startChunks_result : (s.startChunks).result = s.result := rfl
@[simp] theorem State.startChunks_cause : (s.startChunks).cause = s.cause := rfl
@[simp] theorem State.startChunks_work : (s.startChunks).work = { s.work with chunkI := 0 } := rfl
@[simp] theorem State.startChunks_pc : (s.startChunks).pc = s.pc := rfl
@[simp] theorem State.startChunks_stream : (s.startChunks).stream = s.stream := rfl
@[simp] theorem State.startChunks_pos : (s.startChunks).pos = s.pos := rfl
@[simp] theorem State.startChunks_trace : (s.startChunks).trace = s.trace := rfl
@[simp] theorem State.startChunks_faultRec : (s.startChunks).faultRec = s.faultRec := rfl
@[simp] theorem State.startChunks_hung : (s.startChunks).hung = s.hung := rfl
@[simp] theorem State.startChunks_resetReq : (s.startChunks).resetReq = s.resetReq := rfl
@[simp] theorem State.startChunks_epoch : (s.startChunks).epoch = s.epoch := rfl
@[simp] theorem State.startChunks_env : (s.startChunks).env = s.env := rfl

/-! ## pulse -/

@[simp] theorem State.pulse_cfg : (s.pulse).cfg = s.cfg := by simp [State.pulse]
@[simp] theorem State.pulse_mapped : (s.pulse).mapped = s.mapped := by simp [State.pulse]
@[simp] theorem State.pulse_spiOpen : (s.pulse).spiOpen = s.spiOpen := by simp [State.pulse]
@[simp] theorem State.pulse_halted : (s.pulse).halted = s.halted := by simp [State.pulse]
@[simp] theorem State.pulse_faulted : (s.pulse).faulted = s.faulted := by simp [State.pulse]
@[simp] theorem State.pulse_fsel : (s.pulse).fsel = s.fsel := by simp [State.pulse]
@[simp] theorem State.pulse_spiMode : (s.pulse).spiMode = s.spiMode := by simp [State.pulse]
@[simp] theorem State.pulse_spiBits : (s.pulse).spiBits = s.spiBits := by simp [State.pulse]
@[simp] theorem State.pulse_spiSpeed : (s.pulse).spiSpeed = s.spiSpeed := by simp [State.pulse]
@[simp] theorem State.pulse_desc : (s.pulse).desc = s.desc := by simp [State.pulse]
@[simp] theorem State.pulse_descCnt : (s.pulse).descCnt = s.descCnt := by simp [State.pulse]
@[simp] theorem State.pulse_txbuf : (s.pulse).txbuf = s.txbuf := by simp [State.pulse]
@[simp] theorem State.pulse_txlen : (s.pulse).txlen = s.txlen := by simp [State.pulse]
@[simp] theorem State.pulse_rxbuf : (s.pulse).rxbuf = s.rxbuf := by simp [State.pulse]
@[simp] theorem State.pulse_result : (s.pulse).result = s.result := by simp [State.pulse]
@[simp] theorem State.pulse_cause : (s.pulse).cause = s.cause := by simp [State.pulse]
@[simp] theorem State.pulse_pc : (s.pulse).pc = s.pc := by simp [State.pulse]
@[simp] theorem State.pulse_stream : (s.pulse).stream = s.stream := by simp [State.pulse]
@[simp] theorem State.pulse_pos : (s.pulse).pos = s.pos := by simp [State.pulse]
@[simp] theorem State.pulse_faultRec : (s.pulse).faultRec = s.faultRec := by simp [State.pulse]
@[simp] theorem State.pulse_hung : (s.pulse).hung = s.hung := by simp [State.pulse]
@[simp] theorem State.pulse_resetReq : (s.pulse).resetReq = s.resetReq := by simp [State.pulse]
@[simp] theorem State.pulse_epoch : (s.pulse).epoch = s.epoch := by simp [State.pulse]
@[simp] theorem State.pulse_env : (s.pulse).env = s.env := by simp [State.pulse]

/-! ## rolesOut -/

@[simp] theorem State.rolesOut_cfg : (s.rolesOut).cfg = s.cfg := by simp [State.rolesOut]
@[simp] theorem State.rolesOut_mapped : (s.rolesOut).mapped = s.mapped := by simp [State.rolesOut]
@[simp] theorem State.rolesOut_spiOpen : (s.rolesOut).spiOpen = s.spiOpen := by simp [State.rolesOut]
@[simp] theorem State.rolesOut_halted : (s.rolesOut).halted = s.halted := by simp [State.rolesOut]
@[simp] theorem State.rolesOut_faulted : (s.rolesOut).faulted = s.faulted := by simp [State.rolesOut]
@[simp] theorem State.rolesOut_latch : (s.rolesOut).latch = s.latch := by simp [State.rolesOut]
@[simp] theorem State.rolesOut_spiMode : (s.rolesOut).spiMode = s.spiMode := by simp [State.rolesOut]
@[simp] theorem State.rolesOut_spiBits : (s.rolesOut).spiBits = s.spiBits := by simp [State.rolesOut]
@[simp] theorem State.rolesOut_spiSpeed : (s.rolesOut).spiSpeed = s.spiSpeed := by simp [State.rolesOut]
@[simp] theorem State.rolesOut_desc : (s.rolesOut).desc = s.desc := by simp [State.rolesOut]
@[simp] theorem State.rolesOut_descCnt : (s.rolesOut).descCnt = s.descCnt := by simp [State.rolesOut]
@[simp] theorem State.rolesOut_txbuf : (s.rolesOut).txbuf = s.txbuf := by simp [State.rolesOut]
@[simp] theorem State.rolesOut_txlen : (s.rolesOut).txlen = s.txlen := by simp [State.rolesOut]
@[simp] theorem State.rolesOut_rxbuf : (s.rolesOut).rxbuf = s.rxbuf := by simp [State.rolesOut]
@[simp] theorem State.rolesOut_result : (s.rolesOut).result = s.result := by simp [State.rolesOut]
@[simp] theorem State.rolesOut_cause : (s.rolesOut).cause = s.cause := by simp [State.rolesOut]
@[simp] theorem State.rolesOut_work : (s.rolesOut).work = s.work := by simp [State.rolesOut]
@[simp] theorem State.rolesOut_pc : (s.rolesOut).pc = s.pc := by simp [State.rolesOut]
@[simp] theorem State.rolesOut_stream : (s.rolesOut).stream = s.stream := by simp [State.rolesOut]
@[simp] theorem State.rolesOut_pos : (s.rolesOut).pos = s.pos := by simp [State.rolesOut]
@[simp] theorem State.rolesOut_faultRec : (s.rolesOut).faultRec = s.faultRec := by simp [State.rolesOut]
@[simp] theorem State.rolesOut_hung : (s.rolesOut).hung = s.hung := by simp [State.rolesOut]
@[simp] theorem State.rolesOut_resetReq : (s.rolesOut).resetReq = s.resetReq := by simp [State.rolesOut]
@[simp] theorem State.rolesOut_epoch : (s.rolesOut).epoch = s.epoch := by simp [State.rolesOut]
@[simp] theorem State.rolesOut_env : (s.rolesOut).env = s.env := by simp [State.rolesOut]

/-! ## restorePin -/

@[simp] theorem State.restorePin_cfg (p : Nat) : (s.restorePin p).cfg = s.cfg := by simp [State.restorePin]
@[simp] theorem State.restorePin_mapped (p : Nat) : (s.restorePin p).mapped = s.mapped := by simp [State.restorePin]
@[simp] theorem State.restorePin_spiOpen (p : Nat) : (s.restorePin p).spiOpen = s.spiOpen := by simp [State.restorePin]
@[simp] theorem State.restorePin_halted (p : Nat) : (s.restorePin p).halted = s.halted := by simp [State.restorePin]
@[simp] theorem State.restorePin_faulted (p : Nat) : (s.restorePin p).faulted = s.faulted := by simp [State.restorePin]
@[simp] theorem State.restorePin_latch (p : Nat) : (s.restorePin p).latch = s.latch := by simp [State.restorePin]
@[simp] theorem State.restorePin_spiMode (p : Nat) : (s.restorePin p).spiMode = s.spiMode := by simp [State.restorePin]
@[simp] theorem State.restorePin_spiBits (p : Nat) : (s.restorePin p).spiBits = s.spiBits := by simp [State.restorePin]
@[simp] theorem State.restorePin_spiSpeed (p : Nat) :
    (s.restorePin p).spiSpeed = s.spiSpeed := by simp [State.restorePin]
@[simp] theorem State.restorePin_desc (p : Nat) : (s.restorePin p).desc = s.desc := by simp [State.restorePin]
@[simp] theorem State.restorePin_descCnt (p : Nat) : (s.restorePin p).descCnt = s.descCnt := by simp [State.restorePin]
@[simp] theorem State.restorePin_txbuf (p : Nat) : (s.restorePin p).txbuf = s.txbuf := by simp [State.restorePin]
@[simp] theorem State.restorePin_txlen (p : Nat) : (s.restorePin p).txlen = s.txlen := by simp [State.restorePin]
@[simp] theorem State.restorePin_rxbuf (p : Nat) : (s.restorePin p).rxbuf = s.rxbuf := by simp [State.restorePin]
@[simp] theorem State.restorePin_result (p : Nat) : (s.restorePin p).result = s.result := by simp [State.restorePin]
@[simp] theorem State.restorePin_cause (p : Nat) : (s.restorePin p).cause = s.cause := by simp [State.restorePin]
@[simp] theorem State.restorePin_work (p : Nat) : (s.restorePin p).work = s.work := by simp [State.restorePin]
@[simp] theorem State.restorePin_pc (p : Nat) : (s.restorePin p).pc = s.pc := by simp [State.restorePin]
@[simp] theorem State.restorePin_stream (p : Nat) : (s.restorePin p).stream = s.stream := by simp [State.restorePin]
@[simp] theorem State.restorePin_pos (p : Nat) : (s.restorePin p).pos = s.pos := by simp [State.restorePin]
@[simp] theorem State.restorePin_faultRec (p : Nat) :
    (s.restorePin p).faultRec = s.faultRec := by simp [State.restorePin]
@[simp] theorem State.restorePin_hung (p : Nat) : (s.restorePin p).hung = s.hung := by simp [State.restorePin]
@[simp] theorem State.restorePin_resetReq (p : Nat) :
    (s.restorePin p).resetReq = s.resetReq := by simp [State.restorePin]
@[simp] theorem State.restorePin_epoch (p : Nat) : (s.restorePin p).epoch = s.epoch := by simp [State.restorePin]
@[simp] theorem State.restorePin_env (p : Nat) : (s.restorePin p).env = s.env := by simp [State.restorePin]

/-! ## restoreRoles -/

@[simp] theorem State.restoreRoles_cfg : (s.restoreRoles).cfg = s.cfg := by simp [State.restoreRoles]
@[simp] theorem State.restoreRoles_mapped : (s.restoreRoles).mapped = s.mapped := by simp [State.restoreRoles]
@[simp] theorem State.restoreRoles_spiOpen : (s.restoreRoles).spiOpen = s.spiOpen := by simp [State.restoreRoles]
@[simp] theorem State.restoreRoles_halted : (s.restoreRoles).halted = s.halted := by simp [State.restoreRoles]
@[simp] theorem State.restoreRoles_faulted : (s.restoreRoles).faulted = s.faulted := by simp [State.restoreRoles]
@[simp] theorem State.restoreRoles_latch : (s.restoreRoles).latch = s.latch := by simp [State.restoreRoles]
@[simp] theorem State.restoreRoles_spiMode : (s.restoreRoles).spiMode = s.spiMode := by simp [State.restoreRoles]
@[simp] theorem State.restoreRoles_spiBits : (s.restoreRoles).spiBits = s.spiBits := by simp [State.restoreRoles]
@[simp] theorem State.restoreRoles_spiSpeed : (s.restoreRoles).spiSpeed = s.spiSpeed := by simp [State.restoreRoles]
@[simp] theorem State.restoreRoles_desc : (s.restoreRoles).desc = s.desc := by simp [State.restoreRoles]
@[simp] theorem State.restoreRoles_descCnt : (s.restoreRoles).descCnt = s.descCnt := by simp [State.restoreRoles]
@[simp] theorem State.restoreRoles_txbuf : (s.restoreRoles).txbuf = s.txbuf := by simp [State.restoreRoles]
@[simp] theorem State.restoreRoles_txlen : (s.restoreRoles).txlen = s.txlen := by simp [State.restoreRoles]
@[simp] theorem State.restoreRoles_rxbuf : (s.restoreRoles).rxbuf = s.rxbuf := by simp [State.restoreRoles]
@[simp] theorem State.restoreRoles_result : (s.restoreRoles).result = s.result := by simp [State.restoreRoles]
@[simp] theorem State.restoreRoles_cause : (s.restoreRoles).cause = s.cause := by simp [State.restoreRoles]
@[simp] theorem State.restoreRoles_work : (s.restoreRoles).work = s.work := by simp [State.restoreRoles]
@[simp] theorem State.restoreRoles_pc : (s.restoreRoles).pc = s.pc := by simp [State.restoreRoles]
@[simp] theorem State.restoreRoles_stream : (s.restoreRoles).stream = s.stream := by simp [State.restoreRoles]
@[simp] theorem State.restoreRoles_pos : (s.restoreRoles).pos = s.pos := by simp [State.restoreRoles]
@[simp] theorem State.restoreRoles_faultRec : (s.restoreRoles).faultRec = s.faultRec := by simp [State.restoreRoles]
@[simp] theorem State.restoreRoles_hung : (s.restoreRoles).hung = s.hung := by simp [State.restoreRoles]
@[simp] theorem State.restoreRoles_resetReq : (s.restoreRoles).resetReq = s.resetReq := by simp [State.restoreRoles]
@[simp] theorem State.restoreRoles_epoch : (s.restoreRoles).epoch = s.epoch := by simp [State.restoreRoles]
@[simp] theorem State.restoreRoles_env : (s.restoreRoles).env = s.env := by simp [State.restoreRoles]

/-! ## close -/

@[simp] theorem State.close_cfg : (s.close).cfg = s.cfg := by simp [State.close]
@[simp] theorem State.close_mapped : (s.close).mapped = s.mapped := by simp [State.close]
@[simp] theorem State.close_spiOpen : (s.close).spiOpen = false := by simp [State.close]
@[simp] theorem State.close_halted : (s.close).halted = s.halted := by simp [State.close]
@[simp] theorem State.close_faulted : (s.close).faulted = s.faulted := by simp [State.close]
@[simp] theorem State.close_fsel : (s.close).fsel = s.fsel := by simp [State.close]
@[simp] theorem State.close_latch : (s.close).latch = s.latch := by simp [State.close]
@[simp] theorem State.close_spiMode : (s.close).spiMode = s.spiMode := by simp [State.close]
@[simp] theorem State.close_spiBits : (s.close).spiBits = s.spiBits := by simp [State.close]
@[simp] theorem State.close_spiSpeed : (s.close).spiSpeed = s.spiSpeed := by simp [State.close]
@[simp] theorem State.close_desc : (s.close).desc = s.nextTable := by simp [State.close]
@[simp] theorem State.close_descCnt : (s.close).descCnt = 0 := by simp [State.close]
@[simp] theorem State.close_txbuf : (s.close).txbuf = s.txbuf := by simp [State.close]
@[simp] theorem State.close_txlen : (s.close).txlen = s.txlen := by simp [State.close]
@[simp] theorem State.close_rxbuf : (s.close).rxbuf = s.rxbuf := by simp [State.close]
@[simp] theorem State.close_result : (s.close).result = s.result := by simp [State.close]
@[simp] theorem State.close_cause : (s.close).cause = s.cause := by simp [State.close]
@[simp] theorem State.close_work : (s.close).work = s.work := by simp [State.close]
@[simp] theorem State.close_pc : (s.close).pc = s.pc := by simp [State.close]
@[simp] theorem State.close_stream : (s.close).stream = s.stream := by simp [State.close]
@[simp] theorem State.close_pos : (s.close).pos = s.pos := by simp [State.close]
@[simp] theorem State.close_trace : (s.close).trace = s.trace ++ [.spiClose] := by simp [State.close]
@[simp] theorem State.close_faultRec : (s.close).faultRec = s.faultRec := by simp [State.close]
@[simp] theorem State.close_hung : (s.close).hung = s.hung := by simp [State.close]
@[simp] theorem State.close_resetReq : (s.close).resetReq = s.resetReq := by simp [State.close]
@[simp] theorem State.close_epoch : (s.close).epoch = s.epoch := by simp [State.close]
@[simp] theorem State.close_env : (s.close).env = s.tookTable.env := by simp [State.close]

/-! ## pushDesc -/

@[simp] theorem State.pushDesc_cfg (l : Nat) : (s.pushDesc l).cfg = s.cfg := rfl
@[simp] theorem State.pushDesc_mapped (l : Nat) : (s.pushDesc l).mapped = s.mapped := rfl
@[simp] theorem State.pushDesc_spiOpen (l : Nat) : (s.pushDesc l).spiOpen = s.spiOpen := rfl
@[simp] theorem State.pushDesc_halted (l : Nat) : (s.pushDesc l).halted = s.halted := rfl
@[simp] theorem State.pushDesc_faulted (l : Nat) : (s.pushDesc l).faulted = s.faulted := rfl
@[simp] theorem State.pushDesc_fsel (l : Nat) : (s.pushDesc l).fsel = s.fsel := rfl
@[simp] theorem State.pushDesc_latch (l : Nat) : (s.pushDesc l).latch = s.latch := rfl
@[simp] theorem State.pushDesc_spiMode (l : Nat) : (s.pushDesc l).spiMode = s.spiMode := rfl
@[simp] theorem State.pushDesc_spiBits (l : Nat) : (s.pushDesc l).spiBits = s.spiBits := rfl
@[simp] theorem State.pushDesc_spiSpeed (l : Nat) : (s.pushDesc l).spiSpeed = s.spiSpeed := rfl
@[simp] theorem State.pushDesc_desc (l : Nat) :
    (s.pushDesc l).desc = s.desc.setIfInBounds s.descCnt (descOf s.descCnt l) := rfl
@[simp] theorem State.pushDesc_descCnt (l : Nat) : (s.pushDesc l).descCnt = s.descCnt + 1 := rfl
@[simp] theorem State.pushDesc_txbuf (l : Nat) : (s.pushDesc l).txbuf = s.txbuf := rfl
@[simp] theorem State.pushDesc_txlen (l : Nat) : (s.pushDesc l).txlen = s.txlen := rfl
@[simp] theorem State.pushDesc_rxbuf (l : Nat) : (s.pushDesc l).rxbuf = s.rxbuf := rfl
@[simp] theorem State.pushDesc_result (l : Nat) : (s.pushDesc l).result = s.result := rfl
@[simp] theorem State.pushDesc_cause (l : Nat) : (s.pushDesc l).cause = s.cause := rfl
@[simp] theorem State.pushDesc_work (l : Nat) : (s.pushDesc l).work = s.work := rfl
@[simp] theorem State.pushDesc_pc (l : Nat) : (s.pushDesc l).pc = s.pc := rfl
@[simp] theorem State.pushDesc_stream (l : Nat) : (s.pushDesc l).stream = s.stream := rfl
@[simp] theorem State.pushDesc_pos (l : Nat) : (s.pushDesc l).pos = s.pos := rfl
@[simp] theorem State.pushDesc_trace (l : Nat) : (s.pushDesc l).trace = s.trace := rfl
@[simp] theorem State.pushDesc_faultRec (l : Nat) : (s.pushDesc l).faultRec = s.faultRec := rfl
@[simp] theorem State.pushDesc_hung (l : Nat) : (s.pushDesc l).hung = s.hung := rfl
@[simp] theorem State.pushDesc_resetReq (l : Nat) : (s.pushDesc l).resetReq = s.resetReq := rfl
@[simp] theorem State.pushDesc_epoch (l : Nat) : (s.pushDesc l).epoch = s.epoch := rfl
@[simp] theorem State.pushDesc_env (l : Nat) : (s.pushDesc l).env = s.env := rfl

/-! ## exchangeByte -/

@[simp] theorem State.exchangeByte_cfg (d : Desc) : (s.exchangeByte d).cfg = s.cfg := by simp [State.exchangeByte]
@[simp] theorem State.exchangeByte_mapped (d : Desc) :
    (s.exchangeByte d).mapped = s.mapped := by simp [State.exchangeByte]
@[simp] theorem State.exchangeByte_spiOpen (d : Desc) :
    (s.exchangeByte d).spiOpen = s.spiOpen := by simp [State.exchangeByte]
@[simp] theorem State.exchangeByte_halted (d : Desc) :
    (s.exchangeByte d).halted = s.halted := by simp [State.exchangeByte]
@[simp] theorem State.exchangeByte_faulted (d : Desc) :
    (s.exchangeByte d).faulted = s.faulted := by simp [State.exchangeByte]
@[simp] theorem State.exchangeByte_fsel (d : Desc) : (s.exchangeByte d).fsel = s.fsel := by simp [State.exchangeByte]
@[simp] theorem State.exchangeByte_latch (d : Desc) :
    (s.exchangeByte d).latch = s.latch := by simp [State.exchangeByte]
@[simp] theorem State.exchangeByte_spiMode (d : Desc) :
    (s.exchangeByte d).spiMode = s.spiMode := by simp [State.exchangeByte]
@[simp] theorem State.exchangeByte_spiBits (d : Desc) :
    (s.exchangeByte d).spiBits = s.spiBits := by simp [State.exchangeByte]
@[simp] theorem State.exchangeByte_spiSpeed (d : Desc) :
    (s.exchangeByte d).spiSpeed = s.spiSpeed := by simp [State.exchangeByte]
@[simp] theorem State.exchangeByte_desc (d : Desc) : (s.exchangeByte d).desc = s.desc := by simp [State.exchangeByte]
@[simp] theorem State.exchangeByte_descCnt (d : Desc) :
    (s.exchangeByte d).descCnt = s.descCnt := by simp [State.exchangeByte]
@[simp] theorem State.exchangeByte_txbuf (d : Desc) :
    (s.exchangeByte d).txbuf = s.txbuf := by simp [State.exchangeByte]
@[simp] theorem State.exchangeByte_txlen (d : Desc) :
    (s.exchangeByte d).txlen = s.txlen := by simp [State.exchangeByte]
@[simp] theorem State.exchangeByte_rxbuf (d : Desc) :
    (s.exchangeByte d).rxbuf = Memory.write s.rxbuf (d.rxOff.toNat + s.work.byteI) s.nextRx := by simp [State.exchangeByte]
@[simp] theorem State.exchangeByte_result (d : Desc) :
    (s.exchangeByte d).result = s.result := by simp [State.exchangeByte]
@[simp] theorem State.exchangeByte_cause (d : Desc) :
    (s.exchangeByte d).cause = s.cause := by simp [State.exchangeByte]
@[simp] theorem State.exchangeByte_work (d : Desc) :
    (s.exchangeByte d).work = { s.work with byteI := s.work.byteI + 1, shiftOut := s.txByte (d.txOff.toNat + s.work.byteI), shiftIn := s.nextRx } := by simp [State.exchangeByte]
@[simp] theorem State.exchangeByte_pc (d : Desc) : (s.exchangeByte d).pc = s.pc := by simp [State.exchangeByte]
@[simp] theorem State.exchangeByte_stream (d : Desc) :
    (s.exchangeByte d).stream = s.stream := by simp [State.exchangeByte]
@[simp] theorem State.exchangeByte_pos (d : Desc) : (s.exchangeByte d).pos = s.pos := by simp [State.exchangeByte]
@[simp] theorem State.exchangeByte_trace (d : Desc) :
    (s.exchangeByte d).trace = s.trace ++ [.spiByte (s.txByte (d.txOff.toNat + s.work.byteI)) s.nextRx] := by simp [State.exchangeByte]
@[simp] theorem State.exchangeByte_faultRec (d : Desc) :
    (s.exchangeByte d).faultRec = s.faultRec := by simp [State.exchangeByte]
@[simp] theorem State.exchangeByte_hung (d : Desc) : (s.exchangeByte d).hung = s.hung := by simp [State.exchangeByte]
@[simp] theorem State.exchangeByte_resetReq (d : Desc) :
    (s.exchangeByte d).resetReq = s.resetReq := by simp [State.exchangeByte]
@[simp] theorem State.exchangeByte_epoch (d : Desc) :
    (s.exchangeByte d).epoch = s.epoch := by simp [State.exchangeByte]
@[simp] theorem State.exchangeByte_env (d : Desc) :
    (s.exchangeByte d).env = s.tookRx.env := by simp [State.exchangeByte]

end Sys2Proof.Machine
end

