-- ==== Sys2Proof/Laws/Memory.lean ====
section
/-! SUPPORT. Buffers: a read after a write, a read after a string of writes, and the canonical form. -/

namespace Sys2Proof.Machine

@[simp] theorem Memory.read_nil (a : Nat) : Memory.read [] a = none := rfl

theorem Memory.read_write (m : Memory) (a : Nat) (b : Byte) (x : Nat) :
    Memory.read (Memory.write m a b) x = if x = a then some b else Memory.read m x := by
  induction m with
  | nil => simp [Memory.write, Memory.read]
  | cons c m ih =>
    obtain ⟨k, v⟩ := c
    simp only [Memory.write]
    split
    · simp [Memory.read]
    · split
      · next h1 h2 => subst h2; by_cases hx : x = a <;> simp [Memory.read, hx]
      · next h1 h2 =>
        simp only [Memory.read, ih]
        by_cases hx : x = k
        · subst hx; simp [Ne.symm h2]
        · simp [hx]

theorem Memory.read_writeBytes (bs : List Byte) (m : Memory) (a x : Nat) :
    Memory.read (Memory.writeBytes m a bs) x =
      if a ≤ x ∧ x < a + bs.length then bs[x - a]? else Memory.read m x := by
  induction bs generalizing m a with
  | nil => simp only [Memory.writeBytes, List.length_nil]; split <;> [omega; rfl]
  | cons b bs ih =>
    simp only [Memory.writeBytes, ih, List.length_cons, Memory.read_write]
    by_cases h : x = a
    · subst h; simp
    · by_cases h1 : a + 1 ≤ x ∧ x < a + 1 + bs.length
      · rw [if_pos h1, if_pos (by omega), show x - a = (x - (a + 1)) + 1 by omega]
        simp
      · rw [if_neg h1, if_neg h, if_neg (by omega)]

theorem Memory.mem_write (m : Memory) (a : Nat) (b : Byte) (c : Host.Cell) (h : c ∈ Memory.write m a b) :
    c = (a, b) ∨ c ∈ m := by
  induction m with
  | nil => simpa [Memory.write] using h
  | cons d m ih =>
    obtain ⟨k, v⟩ := d
    simp only [Memory.write] at h
    split at h
    · simpa using h
    · split at h
      · rcases List.mem_cons.1 h with h | h
        · exact .inl h
        · exact .inr (List.mem_cons_of_mem _ h)
      · rcases List.mem_cons.1 h with h | h
        · exact .inr (by simp [h])
        · rcases ih h with h | h
          · exact .inl h
          · exact .inr (List.mem_cons_of_mem _ h)

theorem Memory.wf_write (m : Memory) (a : Nat) (b : Byte) (h : Memory.wf m) : Memory.wf (Memory.write m a b) := by
  induction m with
  | nil => simp [Memory.write, Memory.wf]
  | cons d m ih =>
    obtain ⟨k, v⟩ := d
    obtain ⟨h1, h2⟩ := List.pairwise_cons.1 h
    simp only [Memory.write]
    split
    · next hlt =>
      refine List.pairwise_cons.2 ⟨?_, h⟩
      intro c hc
      rcases List.mem_cons.1 hc with rfl | hc
      · exact hlt
      · have := h1 c hc; simp only at this ⊢; omega
    · split
      · next hlt heq => subst heq; exact List.pairwise_cons.2 ⟨h1, h2⟩
      · next hlt hne =>
        refine List.pairwise_cons.2 ⟨?_, ih h2⟩
        intro c hc
        rcases Memory.mem_write m a b c hc with rfl | hc
        · simp only; omega
        · exact h1 c hc

theorem Memory.wf_writeBytes (bs : List Byte) (m : Memory) (a : Nat) (h : Memory.wf m) :
    Memory.wf (Memory.writeBytes m a bs) := by
  induction bs generalizing m a with
  | nil => exact h
  | cons b bs ih => exact ih _ _ (Memory.wf_write m a b h)

theorem Memory.mem_writeBytes (bs : List Byte) (m : Memory) (a : Nat) (c : Host.Cell)
    (h : c ∈ Memory.writeBytes m a bs) : (a ≤ c.1 ∧ c.1 < a + bs.length) ∨ c ∈ m := by
  induction bs generalizing m a with
  | nil => exact .inr h
  | cons b bs ih =>
    rcases ih _ _ h with h | h
    · simp only [List.length_cons]; omega
    · rcases Memory.mem_write m a b c h with rfl | h
      · simp
      · exact .inr h

/-- Canonical buffers with equal reads are equal. -/
theorem Memory.ext_of_read (m n : Memory) (hm : Memory.wf m) (hn : Memory.wf n)
    (h : ∀ a, Memory.read m a = Memory.read n a) : m = n := by
  have read_lt : ∀ (l : Memory) (a : Nat), (∀ c ∈ l, a < c.1) → Memory.read l a = none := by
    intro l a hl
    induction l with
    | nil => rfl
    | cons d l ih =>
      obtain ⟨k, v⟩ := d
      have hk : a < k := hl (k, v) (by simp)
      simp only [Memory.read, show a ≠ k by omega, if_false]
      exact ih (fun c hc => hl c (List.mem_cons_of_mem _ hc))
  induction m generalizing n with
  | nil =>
    cases n with
    | nil => rfl
    | cons d n => obtain ⟨k, v⟩ := d; simpa [Memory.read] using h k
  | cons c m ih =>
    obtain ⟨k, v⟩ := c
    cases n with
    | nil => simpa [Memory.read] using h k
    | cons d n =>
      obtain ⟨k', v'⟩ := d
      obtain ⟨m1, m2⟩ := List.pairwise_cons.1 hm
      obtain ⟨n1, n2⟩ := List.pairwise_cons.1 hn
      have hk : k = k' := by
        rcases Nat.lt_trichotomy k k' with hlt | heq | hlt
        · have h1 := h k
          rw [read_lt ((k', v') :: n) k] at h1
          · simp [Memory.read] at h1
          · intro c hc
            rcases List.mem_cons.1 hc with rfl | hc
            · exact hlt
            · have := n1 c hc; simp only at this; omega
        · exact heq
        · have h1 := h k'
          rw [read_lt ((k, v) :: m) k'] at h1
          · simp [Memory.read] at h1
          · intro c hc
            rcases List.mem_cons.1 hc with rfl | hc
            · exact hlt
            · have := m1 c hc; simp only at this; omega
      subst hk
      have hv : v = v' := by simpa [Memory.read] using h k
      subst hv
      refine congrArg _ (ih n m2 n2 fun a => ?_)
      by_cases ha : a = k
      · subst ha; rw [read_lt m a m1, read_lt n a n1]
      · simpa [Memory.read, ha] using h a

end Sys2Proof.Machine
end

