-- ==== Sys2Proof/Laws/Ops.lean ====
section
/-! SUPPORT. What each shared operation of Machine/Ops.lean can do, said once. -/

namespace Sys2Proof.Machine

/-! ## How a command begins -/

theorem accept_of_ready (s t : State) (h1 : s.halted = false) (h2 : s.hung = false) : accept s t = .next t := by
  simp [accept, h1, h2]

/-- Whatever a command does, it does it in a state that is neither halted nor hanging. -/
theorem accept_next (s t u : State) (h : accept s t = .next u) : s.halted = false ∧ s.hung = false ∧ u = t := by
  unfold accept at h
  split at h
  · cases h
  · split at h
    · cases h
    · next h1 h2 => injection h with h; exact ⟨by simpa using h1, by simpa using h2, h.symm⟩

theorem needsWindow_mapped (s t : State) (h : s.mapped = true) : s.needsWindow t = t := by
  simp [State.needsWindow, h]

theorem needsWindow_unmapped (s t : State) (h : s.mapped = false) : s.needsWindow t = s.raise .unmappedAccess := by
  simp [State.needsWindow, h]

theorem needsPin_legal (s t : State) (pin : Byte) (h : pin.toNat < s.cfg.npins) : s.needsPin pin t = t := by
  simp [State.needsPin, h]

theorem needsPin_illegal (s t : State) (pin : Byte) (h : s.cfg.npins ≤ pin.toNat) :
    s.needsPin pin t = s.raise .illegalOperand := by
  simp [State.needsPin, Nat.not_lt.2 h]

/-! ## Appends -/

theorem append_fits (s : State) (bs : List Byte) (h : s.txlen + bs.length < s.cfg.capacity) :
    s.append bs = { s with txbuf := Memory.writeBytes s.txbuf s.txlen bs, txlen := s.txlen + bs.length } := by
  simp [State.append, Nat.not_le.2 h]

theorem append_dropped (s : State) (bs : List Byte) (h : s.cfg.capacity ≤ s.txlen + bs.length) :
    s.append bs = s := by
  simp [State.append, h]

/-- An append touches the buffer and the length, nothing else. -/
theorem append_only (s : State) (bs : List Byte) :
    s.append bs = { s with txbuf := (s.append bs).txbuf, txlen := (s.append bs).txlen } := by
  unfold State.append; split <;> rfl

theorem appendRev_only (s : State) (bs : List Byte) :
    s.appendRev bs = { s with txbuf := (s.appendRev bs).txbuf, txlen := (s.appendRev bs).txlen } :=
  append_only s _

@[simp] theorem append_cfg (s : State) (bs : List Byte) : (s.append bs).cfg = s.cfg := by
  rw [append_only]

@[simp] theorem appendRev_cfg (s : State) (bs : List Byte) : (s.appendRev bs).cfg = s.cfg := append_cfg s _

/-- The length after an append (R193). -/
theorem append_txlen (s : State) (bs : List Byte) :
    (s.append bs).txlen =
      if s.txlen + bs.length < s.cfg.capacity then s.txlen + bs.length else s.txlen := by
  split
  · next h => rw [append_fits s bs h]
  · next h => rw [append_dropped s bs (Nat.not_lt.1 h)]

/-- The bytes after an append (R191, R193). -/
theorem append_read (s : State) (bs : List Byte) (a : Nat) :
    Memory.read (s.append bs).txbuf a =
      if s.txlen + bs.length < s.cfg.capacity ∧ s.txlen ≤ a ∧ a < s.txlen + bs.length then bs[a - s.txlen]?
      else Memory.read s.txbuf a := by
  by_cases h : s.txlen + bs.length < s.cfg.capacity
  · rw [append_fits s bs h]; simp [Memory.read_writeBytes, h]
  · rw [append_dropped s bs (Nat.not_lt.1 h)]; simp [h]

theorem append_wf (s : State) (bs : List Byte) (h : Memory.wf s.txbuf) : Memory.wf (s.append bs).txbuf := by
  by_cases hc : s.txlen + bs.length < s.cfg.capacity
  · rw [append_fits s bs hc]; exact Memory.wf_writeBytes _ _ _ h
  · rw [append_dropped s bs (Nat.not_lt.1 hc)]; exact h

/-- Every written index stays below `C - 1`, so `TXBUF[C-1]` is never written (R193). -/
theorem append_inside (s : State) (bs : List Byte) (h : ∀ c ∈ s.txbuf, c.1 + 1 < s.cfg.capacity) :
    ∀ c ∈ (s.append bs).txbuf, c.1 + 1 < s.cfg.capacity := by
  by_cases hc : s.txlen + bs.length < s.cfg.capacity
  · rw [append_fits s bs hc]
    intro c hmem
    rcases Memory.mem_writeBytes bs _ _ c hmem with h1 | h1
    · omega
    · exact h c h1
  · rw [append_dropped s bs (Nat.not_lt.1 hc)]; exact h

/-! ## Repeated single-byte appends -/

@[simp] theorem emitCopies_zero (s : State) (b : Byte) : s.emitCopies b 0 = s := rfl

theorem emitCopies_succ (s : State) (b : Byte) (n : Nat) :
    s.emitCopies b (n + 1) = (s.emitCopies b n).append [b] := rfl

theorem emitCopies_only (s : State) (b : Byte) (n : Nat) :
    s.emitCopies b n = { s with txbuf := (s.emitCopies b n).txbuf, txlen := (s.emitCopies b n).txlen } := by
  induction n with
  | zero => rfl
  | succ n ih => rw [emitCopies_succ, append_only, ih]

@[simp] theorem emitCopies_cfg (s : State) (b : Byte) (n : Nat) : (s.emitCopies b n).cfg = s.cfg := by
  rw [emitCopies_only]

/-- The bytes actually added: `min(n, C - 1 - TXLEN)` (R200). -/
theorem emitCopies_txlen (s : State) (b : Byte) (n : Nat) :
    (s.emitCopies b n).txlen = s.txlen + min n (s.cfg.capacity - 1 - s.txlen) := by
  induction n with
  | zero => simp
  | succ n ih => rw [emitCopies_succ, append_txlen, ih, emitCopies_cfg]; simp only [List.length_singleton]; split <;> omega

theorem emitCopies_read (s : State) (b : Byte) (n a : Nat) :
    Memory.read (s.emitCopies b n).txbuf a =
      if s.txlen ≤ a ∧ a < s.txlen + min n (s.cfg.capacity - 1 - s.txlen) then some b
      else Memory.read s.txbuf a := by
  induction n with
  | zero => rw [if_neg (by omega)]; rfl
  | succ n ih =>
    rw [emitCopies_succ, append_read, ih, emitCopies_txlen, emitCopies_cfg]
    simp only [List.length_singleton]
    by_cases hroom : s.txlen + min n (s.cfg.capacity - 1 - s.txlen) + 1 < s.cfg.capacity
    · by_cases ha : a = s.txlen + min n (s.cfg.capacity - 1 - s.txlen)
      · rw [if_pos (by omega), if_pos (by omega), ha]; simp
      · rw [if_neg (by omega)]
        by_cases hin : s.txlen ≤ a ∧ a < s.txlen + min n (s.cfg.capacity - 1 - s.txlen)
        · rw [if_pos hin, if_pos (by omega)]
        · rw [if_neg hin, if_neg (by omega)]
    · rw [if_neg (by omega)]
      by_cases hin : s.txlen ≤ a ∧ a < s.txlen + min n (s.cfg.capacity - 1 - s.txlen)
      · rw [if_pos hin, if_pos (by omega)]
      · rw [if_neg hin, if_neg (by omega)]

theorem emitCopies_wf (s : State) (b : Byte) (n : Nat) (h : Memory.wf s.txbuf) :
    Memory.wf (s.emitCopies b n).txbuf := by
  induction n with
  | zero => exact h
  | succ n ih => exact append_wf _ _ ih

theorem emitCopies_inside (s : State) (b : Byte) (n : Nat) (h : ∀ c ∈ s.txbuf, c.1 + 1 < s.cfg.capacity) :
    ∀ c ∈ (s.emitCopies b n).txbuf, c.1 + 1 < s.cfg.capacity := by
  induction n with
  | zero => exact h
  | succ n ih =>
    have h1 := append_inside (s.emitCopies b n) [b]
    rw [emitCopies_cfg] at h1
    exact h1 ih

end Sys2Proof.Machine
end

