-- ==== Sys2Proof/Laws/Window.lean ====
section
/-! SUPPORT. The GPIO window: what a function-field write changes, bit by bit, and what a reset sequence leaves. -/

namespace Sys2Proof.Machine

/-! ## One function field -/

/-- A field write sets the three bits of the field and keeps every other bit (R120). -/
theorem withField_getLsbD (old : Word) (p : Nat) (c : BitVec 3) (i : Nat) (hi : i < 32) :
    (withField old p c).getLsbD i =
      if fselShift p ≤ i ∧ i < fselShift p + 3 then c.getLsbD (i - fselShift p) else old.getLsbD i := by
  have hm : ∀ j, (7#32).getLsbD j = decide (j < 3) := by
    intro j
    rcases Nat.lt_or_ge j 32 with h | h
    · interval_cases j <;> decide
    · rw [BitVec.getLsbD_of_ge _ _ h]; simp; omega
  simp only [withField, BitVec.getLsbD_or, BitVec.getLsbD_and, BitVec.getLsbD_not, BitVec.getLsbD_shiftLeft, hm,
    BitVec.getLsbD_setWidth, hi, decide_true, Bool.true_and]
  by_cases h1 : i < fselShift p
  · rw [if_neg (by omega)]; simp [h1]
  · by_cases h2 : i < fselShift p + 3
    · rw [if_pos ⟨by omega, h2⟩]; simp [h1, show i - fselShift p < 3 by omega, show i - fselShift p < 32 by omega]
    · rw [if_neg (by omega)]
      simp [h1, show ¬ i - fselShift p < 3 by omega, BitVec.getLsbD_of_ge c (i - fselShift p) (by omega)]

theorem fieldOf_getLsbD (v : Word) (p i : Nat) (hi : i < 3) :
    (fieldOf v p).getLsbD i = v.getLsbD (fselShift p + i) := by
  simp [fieldOf, hi]

theorem fselShift_le (p : Nat) : fselShift p ≤ 27 := by unfold fselShift; omega

theorem fieldOf_withField_self (old : Word) (p : Nat) (c : BitVec 3) : fieldOf (withField old p c) p = c := by
  refine BitVec.eq_of_getLsbD_eq fun i hi => ?_
  have := fselShift_le p
  rw [fieldOf_getLsbD _ _ _ hi, withField_getLsbD _ _ _ _ (by omega), if_pos (by omega)]
  congr 1; omega

theorem fieldOf_withField_other (old : Word) (p q : Nat) (c : BitVec 3) (h : p % 10 ≠ q % 10) :
    fieldOf (withField old p c) q = fieldOf old q := by
  refine BitVec.eq_of_getLsbD_eq fun i hi => ?_
  have := fselShift_le q
  rw [fieldOf_getLsbD _ _ _ hi, fieldOf_getLsbD _ _ _ hi, withField_getLsbD _ _ _ _ (by omega), if_neg]
  unfold fselShift; omega

theorem fselAt_setFn (s : State) (p : Nat) (f : PinFn) (k : Nat) (hp : p < 60) :
    (s.setFn p f).fselAt k =
      if k = fselReg p then withField (s.fselAt k) p (s.cfg.codes.of f) else s.fselAt k := by
  have h : fselReg p < 6 := by unfold fselReg; omega
  simp only [State.setFn, State.fselAt, State.writeFsel_fsel, Vector.getElem?_setIfInBounds]
  by_cases hk : k = fselReg p
  · subst hk; simp [h]
  · simp [hk, Ne.symm hk]

/-- A function-field write changes the function of its pin and of no other (R120). -/
theorem field_setFn (s : State) (p : Nat) (f : PinFn) (q : Nat) (hp : p < 60) :
    (s.setFn p f).field q = if q = p then s.cfg.codes.of f else s.field q := by
  simp only [State.field, fselAt_setFn s p f _ hp]
  by_cases hq : q = p
  · subst hq; simp [fieldOf_withField_self]
  · rw [if_neg hq]
    by_cases hk : fselReg q = fselReg p
    · rw [if_pos hk, fieldOf_withField_other]
      unfold fselReg at hk; omega
    · rw [if_neg hk]

/-- The bits [31:30] of a function register belong to no pin and no field write changes them (R25). -/
theorem top_setFn (s : State) (p : Nat) (f : PinFn) (k i : Nat) (hp : p < 60) (h1 : 30 ≤ i) (h2 : i < 32) :
    ((s.setFn p f).fselAt k).getLsbD i = (s.fselAt k).getLsbD i := by
  rw [fselAt_setFn s p f k hp]
  split
  · have := fselShift_le p
    rw [withField_getLsbD _ _ _ _ h2, if_neg (by omega)]
  · rfl

/-- Which function a code stands for, with injective codes (R26). -/
theorem fnOf_code (c : FselCodes) (h : ∀ f g : PinFn, c.of f = c.of g → f = g) (f : PinFn) : fnOf c (c.of f) = f := by
  have e := fun g => fun (hg : c.of f = c.of g) => h f g hg
  unfold fnOf
  split_ifs with h1 h2 h3 h4 h5 h6 h7
  · exact (e .inp h1).symm
  · exact (e .out h2).symm
  · exact (e .alt0 h3).symm
  · exact (e .alt1 h4).symm
  · exact (e .alt2 h5).symm
  · exact (e .alt3 h6).symm
  · exact (e .alt4 h7).symm
  · cases f <;> first | rfl | exact absurd rfl ‹¬ _ = _›

theorem setFn_only (s : State) (p : Nat) (f : PinFn) :
    s.setFn p f = { s with fsel := (s.setFn p f).fsel, trace := (s.setFn p f).trace } := rfl

/-! ## Pulses -/

theorem pulse_latch (s : State) :
    s.pulse.latch = (s.latch ||| pinBit s.cfg.pinRst) &&& ~~~pinBit s.cfg.pinRst := by
  simp [State.pulse]

theorem pulse_work (s : State) :
    s.pulse.work = { s.work with pulseI := s.work.pulseI + 1, dlyI := s.cfg.rstDelayIter } := by
  simp [State.pulse]

/-- The four events of one pulse (R144). -/
def pulseEvents (c : Config) : List Event :=
  [.gpioW c.setIdx (pinBit c.pinRst), .delay, .gpioW c.clrIdx (pinBit c.pinRst), .delay]

theorem pulse_trace (s : State) : s.pulse.trace = s.trace ++ pulseEvents s.cfg := by
  simp [State.pulse, pulseEvents]

@[simp] theorem pulses_zero (s : State) : s.pulses 0 = s := rfl

theorem pulses_succ (s : State) (n : Nat) : s.pulses (n + 1) = (s.pulses n).pulse := rfl

theorem pulse_only (s : State) :
    s.pulse = { s with latch := s.pulse.latch, work := s.pulse.work, trace := s.pulse.trace } := by
  ext1 <;> simp

theorem pulses_only (s : State) (n : Nat) :
    s.pulses n = { s with latch := (s.pulses n).latch, work := (s.pulses n).work, trace := (s.pulses n).trace } := by
  induction n with
  | zero => rfl
  | succ n ih => rw [pulses_succ, pulse_only, ih]

@[simp] theorem pulses_cfg (s : State) (n : Nat) : (s.pulses n).cfg = s.cfg := by rw [pulses_only]

theorem or_then_clear (a b : Word) : (a ||| b) &&& ~~~b = a &&& ~~~b := by
  ext i hi
  simp only [BitVec.getElem_and, BitVec.getElem_or, BitVec.getElem_not]
  cases a[i] <;> cases b[i] <;> rfl

theorem clear_twice (a b : Word) : a &&& ~~~b &&& ~~~b = a &&& ~~~b := by
  rw [BitVec.and_assoc, BitVec.and_self]

theorem pulses_latch (s : State) (n : Nat) (h : 0 < n) :
    (s.pulses n).latch = s.latch &&& ~~~pinBit s.cfg.pinRst := by
  induction n with
  | zero => omega
  | succ n ih =>
    rw [pulses_succ, pulse_latch, pulses_cfg]
    rcases Nat.eq_zero_or_pos n with rfl | hn
    · rw [pulses_zero, or_then_clear]
    · rw [ih hn, or_then_clear, clear_twice]

theorem pulses_trace (s : State) (n : Nat) :
    (s.pulses n).trace = s.trace ++ (List.replicate n (pulseEvents s.cfg)).flatten := by
  induction n with
  | zero => simp
  | succ n ih => rw [pulses_succ, pulse_trace, ih, pulses_cfg, List.replicate_succ']; simp

theorem pulses_work (s : State) (n : Nat) (h : 0 < n) :
    (s.pulses n).work = { s.work with pulseI := s.work.pulseI + n, dlyI := s.cfg.rstDelayIter } := by
  induction n with
  | zero => omega
  | succ n ih =>
    rw [pulses_succ, pulse_work, pulses_cfg]
    rcases Nat.eq_zero_or_pos n with rfl | hn
    · simp
    · rw [ih hn]; simp [Nat.add_assoc]

/-! ## The reset sequence -/

/-- A reset sequence touches the function registers, the latches, the working registers and the trace, nothing else
(R141). -/
theorem resetSeq_only (s : State) :
    s.resetSeq = { s with fsel := s.resetSeq.fsel, latch := s.resetSeq.latch, work := s.resetSeq.work,
                          trace := s.resetSeq.trace } := by
  ext1 <;> simp [State.resetSeq] <;> rw [pulses_only] <;> simp

@[simp] theorem resetSeq_cfg (s : State) : s.resetSeq.cfg = s.cfg := by rw [resetSeq_only]

theorem resetSeq_latch (s : State) :
    s.resetSeq.latch = (s.latch ||| pinBit s.cfg.pinSck) &&& ~~~pinBit s.cfg.pinRst := by
  simp only [State.resetSeq, State.restoreRoles_latch]
  rw [pulses_latch _ _ (by decide)]; simp

theorem resetSeq_work (s : State) :
    s.resetSeq.work = { s.work with pulseI := nPulses, dlyI := s.cfg.rstDelayIter } := by
  simp only [State.resetSeq, State.restoreRoles_work]
  rw [pulses_work _ _ (by decide)]; simp [nPulses]

theorem resetSeq_fsel (s : State) :
    s.resetSeq.fsel = s.rolesOut.restoreRoles.fsel := by
  have h : ∀ t : State, (t.pulses nPulses).restoreRoles.fsel = t.restoreRoles.fsel := by
    intro t
    rw [pulses_only]
    simp [State.restoreRoles, State.restorePin, State.setFn, State.fselAt]
  rw [State.resetSeq, h]
  simp [State.restoreRoles, State.restorePin, State.setFn, State.fselAt]

theorem field_of_fsel (s t : State) (h : s.fsel = t.fsel) (q : Nat) : s.field q = t.field q := by
  simp [State.field, State.fselAt, h]

/-- The functions after a reset sequence: the three role pins in `ALT0`, every other pin as it was (R146). -/
theorem resetSeq_field (s : State) (h : s.cfg.Valid) (q : Nat) :
    s.resetSeq.field q =
      if q = s.cfg.pinRst ∨ q = s.cfg.pinSck ∨ q = s.cfg.pinAux then s.cfg.codes.alt0 else s.field q := by
  have h0 := h.npins_le
  have h1 := h.rst_lt
  have h2 := h.sck_lt
  have h3 := h.aux_lt
  rw [field_of_fsel _ _ (resetSeq_fsel s)]
  simp only [State.restoreRoles, State.restorePin, State.rolesOut, State.setFn_cfg]
  simp only [field_setFn _ s.cfg.pinRst _ _ (by omega), field_setFn _ s.cfg.pinSck _ _ (by omega),
    field_setFn _ s.cfg.pinAux _ _ (by omega), State.setFn_cfg, FselCodes.of]
  split_ifs <;> first | rfl | tauto

/-- The bits of a function register that belong to no pin keep their value (R25). -/
theorem resetSeq_top (s : State) (h : s.cfg.Valid) (k i : Nat) (h4 : 30 ≤ i) (h5 : i < 32) :
    (s.resetSeq.fselAt k).getLsbD i = (s.fselAt k).getLsbD i := by
  have h0 := h.npins_le
  have h1 := h.rst_lt
  have h2 := h.sck_lt
  have h3 := h.aux_lt
  have e : s.resetSeq.fselAt k = s.rolesOut.restoreRoles.fselAt k := by
    simp only [State.fselAt, resetSeq_fsel]
  rw [e]
  simp only [State.restoreRoles, State.restorePin, State.rolesOut, State.setFn_cfg]
  simp only [top_setFn _ s.cfg.pinRst _ k i (by omega) h4 h5, top_setFn _ s.cfg.pinSck _ k i (by omega) h4 h5,
    top_setFn _ s.cfg.pinAux _ k i (by omega) h4 h5]

/-- Function registers are equal when all sixty fields and all top bits are (R25). -/
theorem fsel_ext (a b : State) (h : ∀ q, q < 60 → a.field q = b.field q)
    (ht : ∀ k i, k < 6 → 30 ≤ i → i < 32 → (a.fselAt k).getLsbD i = (b.fselAt k).getLsbD i) : a.fsel = b.fsel := by
  refine Vector.ext fun k hk => ?_
  have e : ∀ s : State, s.fselAt k = s.fsel[k] := by intro s; simp [State.fselAt, hk]
  rw [← e a, ← e b]
  refine BitVec.eq_of_getLsbD_eq fun i hi => ?_
  by_cases h30 : i < 30
  · have h1 := h (10 * k + i / 3) (by omega)
    have r : fselReg (10 * k + i / 3) = k := by unfold fselReg; omega
    simp only [State.field, r] at h1
    have h2 := congrArg (fun v => v.getLsbD (i % 3)) h1
    simp only [fieldOf_getLsbD _ _ _ (Nat.mod_lt i (by decide : 3 > 0))] at h2
    rwa [show fselShift (10 * k + i / 3) + i % 3 = i by unfold fselShift; omega] at h2
  · exact ht k i hk (by omega) hi

/-- A second reset sequence leaves the function registers as the first left them (R146). -/
theorem resetSeq_fsel_fixed (s t : State) (h : s.cfg.Valid) (hc : t.cfg = s.cfg) (hf : t.fsel = s.resetSeq.fsel) :
    t.resetSeq.fsel = s.resetSeq.fsel := by
  have ht : t.cfg.Valid := by rw [hc]; exact h
  refine fsel_ext _ _ (fun q _ => ?_) (fun k i _ h4 h5 => ?_)
  · rw [resetSeq_field t ht, field_of_fsel t _ hf, resetSeq_field s h, hc]; split_ifs <;> rfl
  · rw [resetSeq_top t ht k i h4 h5, State.fselAt, hf]; rfl

/-! ## The events of a reset sequence -/

/-- A list of function-field writes, one after another. -/
def State.setFns (s : State) (ws : List (Nat × PinFn)) : State := ws.foldl (fun t w => t.setFn w.1 w.2) s

theorem setFns_fsel (ws : List (Nat × PinFn)) (s : State) : (s.setFns ws).fsel = fselAfter s.cfg s.fsel ws := by
  induction ws generalizing s with
  | nil => rfl
  | cons w ws ih => exact (ih (s.setFn w.1 w.2)).trans rfl

theorem setFns_trace (ws : List (Nat × PinFn)) (s : State) :
    (s.setFns ws).trace = s.trace ++ fselEvents s.cfg s.fsel ws := by
  induction ws generalizing s with
  | nil => simp [State.setFns, fselEvents]
  | cons w ws ih =>
    have h := ih (s.setFn w.1 w.2)
    have e : (s.setFn w.1 w.2).trace =
        s.trace ++ [.gpioW (s.cfg.fselIdx[fselReg w.1]?.getD 0)
          (withField (s.fsel[fselReg w.1]?.getD 0) w.1 (s.cfg.codes.of w.2))] := rfl
    rw [e, List.append_assoc] at h
    exact h

theorem fselAfter_append (c : Config) (us ws : List (Nat × PinFn)) (f : Vector Word 6) :
    fselAfter c f (us ++ ws) = fselAfter c (fselAfter c f us) ws := by
  induction us generalizing f with
  | nil => rfl
  | cons u us ih => exact ih _

theorem resetSeq_trace (s : State) : s.resetSeq.trace = s.trace ++ resetEvents s.cfg s.fsel := by
  have hA : s.rolesOut = s.setFns (stepA s.cfg) := rfl
  have hD : ∀ t : State, t.restoreRoles = t.setFns (stepD t.cfg) := fun t => rfl
  have hP : ∀ t : State, ((t.startPulses).pulses nPulses).fsel = t.fsel := by
    intro t; rw [pulses_only]; rfl
  rw [State.resetSeq, hD, setFns_trace, pulses_trace]
  simp only [pulses_cfg, State.startPulses_cfg, State.writeSet_cfg, State.rolesOut_cfg, hP, State.writeSet_fsel,
    State.startPulses_trace, State.writeSet_trace]
  rw [hA, setFns_trace, setFns_fsel]
  simp [resetEvents, pulseTrainEvents, pulseEvents, pinBit, nPulses]

theorem resetSeq_fsel_eq (s : State) : s.resetSeq.fsel = fselAfterReset s.cfg s.fsel := by
  have hD : ∀ t : State, t.restoreRoles = t.setFns (stepD t.cfg) := fun t => rfl
  rw [resetSeq_fsel, hD, setFns_fsel, fselAfterReset, fselAfter_append, State.rolesOut_cfg]
  rfl

/-! ## The pins after a reset sequence -/

theorem pinBit_getLsbD (p i : Nat) (hi : i < 32) : (pinBit p).getLsbD i = decide (i = p) := by
  unfold pinBit
  simp only [BitVec.getLsbD_shiftLeft, hi, decide_true, Bool.true_and]
  by_cases h : i < p
  · simp [h]; omega
  · simp only [h, decide_false, Bool.not_false, Bool.true_and]
    rw [BitVec.getLsbD_one]; simp; omega

/-- A second reset sequence leaves the latches as the first left them (R146). -/
theorem resetSeq_latch_fixed (s t : State) (hc : t.cfg = s.cfg) (hl : t.latch = s.resetSeq.latch) :
    t.resetSeq.latch = s.resetSeq.latch := by
  rw [resetSeq_latch, hl, resetSeq_latch, hc]
  ext i hi
  simp only [BitVec.getElem_and, BitVec.getElem_or, BitVec.getElem_not]
  cases s.latch[i] <;> cases (pinBit s.cfg.pinSck)[i] <;> cases (pinBit s.cfg.pinRst)[i] <;> rfl

/-- The pins of any state whose function registers and latches are those a reset sequence left (R146). -/
theorem afterResetSeq_of (s t : State) (hv : s.cfg.Valid) (hc : t.cfg = s.cfg) (hf : t.fsel = s.resetSeq.fsel)
    (hl : t.latch = s.resetSeq.latch) : AfterResetSeq s t := by
  have field : ∀ q, t.field q = s.resetSeq.field q := field_of_fsel _ _ hf
  have top : ∀ k, t.fselAt k = s.resetSeq.fselAt k := fun k => by simp [State.fselAt, hf]
  have fn : ∀ p f, t.field p = s.cfg.codes.of f → t.fn p = f := by
    intro p f h; unfold State.fn; rw [h, hc]; exact fnOf_code _ hv.codes_injective f
  have rn := hv.roles_distinct
  have h1 := hv.sck_le
  have h2 := hv.rst_le
  simp only [List.nodup_cons, List.mem_cons, List.not_mem_nil, or_false, not_or] at rn
  have latch : ∀ p, p < 32 → t.latch.getLsbD p =
      ((s.latch.getLsbD p || decide (p = s.cfg.pinSck)) && !decide (p = s.cfg.pinRst)) := by
    intro p hp
    rw [hl, resetSeq_latch, BitVec.getLsbD_and, BitVec.getLsbD_or, BitVec.getLsbD_not, pinBit_getLsbD _ _ hp,
      pinBit_getLsbD _ _ hp]
    simp [hp]
  refine ⟨fn _ _ ?_, fn _ _ ?_, fn _ _ ?_, ?_, ?_, fun p h3 h4 => ?_, fun q h3 h4 h5 => ?_, fun k b h3 h4 => ?_⟩
  · rw [field, resetSeq_field s hv, if_pos (.inl rfl)]; rfl
  · rw [field, resetSeq_field s hv, if_pos (.inr (.inl rfl))]; rfl
  · rw [field, resetSeq_field s hv, if_pos (.inr (.inr rfl))]; rfl
  · rw [latch _ (by omega)]; simp; tauto
  · rw [latch _ (by omega)]; simp
  · rcases Nat.lt_or_ge p 32 with hp | hp
    · rw [latch _ hp]; simp [h3, h4]
    · rw [BitVec.getLsbD_of_ge _ _ hp, BitVec.getLsbD_of_ge _ _ hp]
  · rw [field, resetSeq_field s hv, if_neg (by tauto)]
  · rw [top, resetSeq_top s hv _ _ h3 h4]

end Sys2Proof.Machine
end

