-- ==== Sys2Proof/Laws/Transfer.lean ====
section
/-! SUPPORT. The transfer engine: the descriptor table, one descriptor's exchange, a run of descriptors that succeed, one
that does not, and what each leaves unchanged. -/

namespace Sys2Proof.Machine

/-! ## Chunk lengths -/

theorem chunkLens_length (len : Nat) : (chunkLens len).length = descCount len := by
  unfold chunkLens descCount chunkMax
  split <;> simp

theorem chunkLens_getElem? (len k : Nat) (h : k < descCount len) : (chunkLens len)[k]? = some (chunkLen len k) := by
  unfold descCount at h
  unfold chunkLens chunkLen chunkMax
  by_cases hk : k < len / 4096
  · rw [List.getElem?_append_left (by simpa using hk), List.getElem?_replicate, if_pos hk]
    congr 1; omega
  · rw [List.getElem?_append_right (by simpa using Nat.not_lt.1 hk)]
    split_ifs at h ⊢ with hr
    · omega
    · have : k = len / 4096 := by omega
      subst this
      simp; omega

theorem descCount_le (len : Nat) (h : len ≤ xferMax) : descCount len ≤ 16 := by
  unfold descCount; unfold xferMax at h; split <;> omega

theorem chunkLen_pos (len k : Nat) (h : k < descCount len) : 0 < chunkLen len k := by
  unfold descCount at h; unfold chunkLen; split_ifs at h <;> omega

theorem chunk_start (len k : Nat) (h : k < descCount len) : 4096 * k < len := by
  unfold descCount at h; split_ifs at h <;> omega

theorem chunk_end (len k : Nat) (h : k < descCount len) :
    4096 * k + chunkLen len k = min (4096 * (k + 1)) len := by
  have := chunk_start len k h; unfold chunkLen; omega

theorem descCount_end (len : Nat) : min (4096 * descCount len) len = len := by
  unfold descCount; split_ifs <;> omega

/-! ## The descriptor table -/

theorem pushDescs_cnt (ls : List Nat) (s : State) : (ls.foldl State.pushDesc s).descCnt = s.descCnt + ls.length := by
  induction ls generalizing s with
  | nil => rfl
  | cons l ls ih => simp only [List.foldl_cons, ih, State.pushDesc_descCnt, List.length_cons]; omega

theorem pushDescs_desc (ls : List Nat) (s : State) (j : Nat) (h : s.descCnt + ls.length ≤ 16) :
    (ls.foldl State.pushDesc s).desc[j]? =
      if s.descCnt ≤ j ∧ j < s.descCnt + ls.length then (ls[j - s.descCnt]?).map (descOf j) else s.desc[j]? := by
  induction ls generalizing s with
  | nil => rw [if_neg (by simp)]; rfl
  | cons l ls ih =>
    simp only [List.length_cons] at h
    rw [List.foldl_cons, ih _ (by simp only [State.pushDesc_descCnt]; omega)]
    simp only [State.pushDesc_descCnt, State.pushDesc_desc, List.length_cons, Vector.getElem?_setIfInBounds]
    by_cases hj : j = s.descCnt
    · subst hj; rw [if_neg (by omega), if_pos (by omega)]; simp; omega
    · by_cases hin : s.descCnt + 1 ≤ j ∧ j < s.descCnt + 1 + ls.length
      · rw [if_pos hin, if_pos (by omega), show j - s.descCnt = (j - (s.descCnt + 1)) + 1 by omega]; simp
      · rw [if_neg hin, if_neg (Ne.symm hj), if_neg (by omega)]

theorem pushDescs_only (ls : List Nat) (s : State) :
    ls.foldl State.pushDesc s =
      { s with desc := (ls.foldl State.pushDesc s).desc, descCnt := (ls.foldl State.pushDesc s).descCnt } := by
  induction ls generalizing s with
  | nil => rfl
  | cons l ls ih =>
    rw [List.foldl_cons, ih]
    rfl

theorem buildDescs_only (s : State) (len : Nat) :
    s.buildDescs len = { s with desc := (s.buildDescs len).desc, descCnt := (s.buildDescs len).descCnt } := by
  unfold State.buildDescs; rw [pushDescs_only]

theorem buildDescs_cnt (s : State) (len : Nat) : (s.buildDescs len).descCnt = descCount len := by
  unfold State.buildDescs; rw [pushDescs_cnt, chunkLens_length]; simp

theorem buildDescs_desc (s : State) (len k : Nat) (h : len ≤ xferMax) (hk : k < descCount len) :
    (s.buildDescs len).desc[k]? = some (descOf k (chunkLen len k)) := by
  have := descCount_le len h
  unfold State.buildDescs
  rw [pushDescs_desc _ _ _ (by simp only [chunkLens_length]; omega)]
  simp only [chunkLens_length, Nat.sub_zero, Nat.zero_add]
  rw [if_pos ⟨Nat.zero_le _, hk⟩, chunkLens_getElem? len k hk]; rfl

/-! ## Exchanging bytes -/

/-- The `j`-th byte the chain will send back. -/
def State.rxAt (s : State) (j : Nat) : Byte := (s.env.rx[j]?).getD (Config.freeByte (s.env.drawn + j))

theorem exchange_succ (s : State) (d : Desc) (n : Nat) :
    s.exchange d (n + 1) = (s.exchange d n).exchangeByte d := rfl

theorem exchangeByte_only (s : State) (d : Desc) :
    s.exchangeByte d = { s with rxbuf := (s.exchangeByte d).rxbuf, work := (s.exchangeByte d).work,
                                trace := (s.exchangeByte d).trace, env := (s.exchangeByte d).env } := by
  ext1 <;> simp

theorem exchange_only (s : State) (d : Desc) (n : Nat) :
    s.exchange d n = { s with rxbuf := (s.exchange d n).rxbuf, work := (s.exchange d n).work,
                              trace := (s.exchange d n).trace, env := (s.exchange d n).env } := by
  induction n with
  | zero => rfl
  | succ n ih => rw [exchange_succ, exchangeByte_only, ih]

theorem exchange_work (s : State) (d : Desc) (n : Nat) :
    (s.exchange d n).work.byteI = s.work.byteI + n ∧ (s.exchange d n).work.chunkI = s.work.chunkI ∧
      (s.exchange d n).work.pulseI = s.work.pulseI ∧ (s.exchange d n).work.dlyI = s.work.dlyI ∧
      (s.exchange d n).work.repI = s.work.repI := by
  induction n with
  | zero => exact ⟨rfl, rfl, rfl, rfl, rfl⟩
  | succ n ih => rw [exchange_succ, State.exchangeByte_work]; exact ⟨by simp only [ih.1]; omega, ih.2⟩

theorem exchange_env (s : State) (d : Desc) (n : Nat) :
    (s.exchange d n).env = { s.env with rx := s.env.rx.drop n, drawn := s.env.drawn + n } := by
  induction n with
  | zero => rfl
  | succ n ih =>
    rw [exchange_succ, State.exchangeByte_env, State.tookRx_env, ih]
    simp [Nat.add_assoc]

theorem exchange_nextRx (s : State) (d : Desc) (n : Nat) : (s.exchange d n).nextRx = s.rxAt n := by
  rw [State.nextRx, exchange_env, State.rxAt, List.headD_eq_head?_getD, List.head?_drop]

theorem exchange_txByte (s : State) (d : Desc) (n i : Nat) : (s.exchange d n).txByte i = s.txByte i := by
  simp only [State.txByte]; rw [exchange_only]

theorem exchange_trace (s : State) (d : Desc) (n : Nat) :
    (s.exchange d n).trace = s.trace ++
      (List.range n).map fun j => .spiByte (s.txByte (d.txOff.toNat + s.work.byteI + j)) (s.rxAt j) := by
  induction n with
  | zero => simp [State.exchange]
  | succ n ih =>
    rw [exchange_succ, State.exchangeByte_trace, ih, exchange_nextRx, exchange_txByte, (exchange_work s d n).1,
      List.range_succ]
    simp [Nat.add_assoc]

theorem exchange_read (s : State) (d : Desc) (n x : Nat) :
    Memory.read (s.exchange d n).rxbuf x =
      if d.rxOff.toNat + s.work.byteI ≤ x ∧ x < d.rxOff.toNat + s.work.byteI + n then
        some (s.rxAt (x - (d.rxOff.toNat + s.work.byteI)))
      else Memory.read s.rxbuf x := by
  induction n with
  | zero => rw [if_neg (by omega)]; rfl
  | succ n ih =>
    rw [exchange_succ, State.exchangeByte_rxbuf, Memory.read_write, ih, exchange_nextRx, (exchange_work s d n).1]
    by_cases hx : x = d.rxOff.toNat + (s.work.byteI + n)
    · rw [if_pos hx, if_pos (by omega)]; congr 2; omega
    · rw [if_neg hx]
      by_cases hin : d.rxOff.toNat + s.work.byteI ≤ x ∧ x < d.rxOff.toNat + s.work.byteI + n
      · rw [if_pos hin, if_pos (by omega)]
      · rw [if_neg hin, if_neg (by omega)]

theorem exchange_wf (s : State) (d : Desc) (n : Nat) (h : Memory.wf s.rxbuf) : Memory.wf (s.exchange d n).rxbuf := by
  induction n with
  | zero => exact h
  | succ n ih => rw [exchange_succ, State.exchangeByte_rxbuf]; exact Memory.wf_write _ _ _ ih

theorem exchange_inside (s : State) (d : Desc) (n b : Nat) (h : ∀ c ∈ s.rxbuf, c.1 < b)
    (hb : d.rxOff.toNat + s.work.byteI + n ≤ b) : ∀ c ∈ (s.exchange d n).rxbuf, c.1 < b := by
  induction n with
  | zero => exact h
  | succ n ih =>
    rw [exchange_succ, State.exchangeByte_rxbuf, (exchange_work s d n).1]
    intro c hc
    rcases Memory.mem_write _ _ _ _ hc with rfl | hc
    · simp only; omega
    · exact ih (by omega) c hc

/-! ## Bytes that become unspecified -/

theorem spoilRx_succ (s : State) (a n : Nat) :
    s.spoilRx a (n + 1) = (s.spoilRx a n).tookByte.writeRx (a + n) (s.spoilRx a n).nextByte := rfl

theorem spoilRx_only (s : State) (a n : Nat) :
    s.spoilRx a n = { s with rxbuf := (s.spoilRx a n).rxbuf, env := (s.spoilRx a n).env } := by
  induction n with
  | zero => rfl
  | succ n ih => rw [spoilRx_succ]; ext1 <;> simp <;> rw [ih]

theorem spoilRx_read (s : State) (a n x : Nat) (h : x < a ∨ a + n ≤ x) :
    Memory.read (s.spoilRx a n).rxbuf x = Memory.read s.rxbuf x := by
  induction n with
  | zero => rfl
  | succ n ih =>
    rw [spoilRx_succ, State.writeRx_rxbuf, Memory.read_write, if_neg (by omega), State.tookByte_rxbuf, ih (by omega)]

theorem spoilRx_wf (s : State) (a n : Nat) (h : Memory.wf s.rxbuf) : Memory.wf (s.spoilRx a n).rxbuf := by
  induction n with
  | zero => exact h
  | succ n ih => rw [spoilRx_succ, State.writeRx_rxbuf, State.tookByte_rxbuf]; exact Memory.wf_write _ _ _ ih

theorem spoilRx_inside (s : State) (a n b : Nat) (h : ∀ c ∈ s.rxbuf, c.1 < b) (hb : a + n ≤ b) :
    ∀ c ∈ (s.spoilRx a n).rxbuf, c.1 < b := by
  induction n with
  | zero => exact h
  | succ n ih =>
    rw [spoilRx_succ, State.writeRx_rxbuf, State.tookByte_rxbuf]
    intro c hc
    rcases Memory.mem_write _ _ _ _ hc with rfl | hc
    · simp only; omega
    · exact ih (by omega) c hc

/-! ## One descriptor -/

/-- Descriptor `k` of length `l` as numbers. -/
theorem descOf_offsets (k l : Nat) (hk : k < 16) (hl : l ≤ 4096) :
    (descOf k l).txOff.toNat = 4096 * k ∧ (descOf k l).rxOff.toNat = 4096 * k ∧ (descOf k l).len.toNat = l := by
  simp only [descOf, chunkMax, BitVec.toNat_ofNat]
  refine ⟨?_, ?_, ?_⟩ <;> rw [Nat.mod_eq_of_lt] <;> omega

theorem segmentOk_only (s : State) :
    s.segmentOk = { s with rxbuf := s.segmentOk.rxbuf, work := s.segmentOk.work, trace := s.segmentOk.trace,
                           env := s.segmentOk.env } := by
  unfold State.segmentOk
  ext1 <;> simp <;> rw [exchange_only] <;> simp

theorem segmentBad_only (s : State) :
    s.segmentBad = { s with rxbuf := s.segmentBad.rxbuf, work := s.segmentBad.work, trace := s.segmentBad.trace,
                            env := s.segmentBad.env } := by
  unfold State.segmentBad
  rw [spoilRx_only, exchange_only]
  ext1 <;> simp

/-- What a successful descriptor does when the current entry is descriptor `k` of length `l` (R174, R175). -/
theorem segmentOk_facts (s : State) (k l : Nat) (hk : k < 16) (hl : l ≤ 4096) (hc : s.work.chunkI = k)
    (hd : s.desc[k]? = some (descOf k l)) :
    s.segmentOk.work.chunkI = k + 1 ∧
    s.segmentOk.env = { s.env with rx := s.env.rx.drop l, drawn := s.env.drawn + l } ∧
    s.segmentOk.trace = s.trace ++ (.spiSeg k (4096 * k) l true ::
      (((List.range l).map fun j => .spiByte (s.txByte (4096 * k + j)) (s.rxAt j)) ++ [.segDelay])) ∧
    ∀ x, Memory.read s.segmentOk.rxbuf x =
      if 4096 * k ≤ x ∧ x < 4096 * k + l then some (s.rxAt (x - 4096 * k)) else Memory.read s.rxbuf x := by
  obtain ⟨h1, h2, h3⟩ := descOf_offsets k l hk hl
  have hcur : s.currentDesc = descOf k l := by simp [State.currentDesc, hc, hd]
  have hb : ∀ e, (s.emit e).startBytes.work.byteI = 0 := fun e => rfl
  have htx : ∀ e i, (s.emit e).startBytes.txByte i = s.txByte i := fun e i => rfl
  have hrx : ∀ e i, (s.emit e).startBytes.rxAt i = s.rxAt i := fun e i => rfl
  unfold State.segmentOk
  refine ⟨by simp [hc], ?_, ?_, ?_⟩
  · simp only [hcur, h3, State.emit_env, exchange_env]; rfl
  · simp only [hcur, h1, h3, State.emit_trace, exchange_trace, hb, htx, hrx, hc, Nat.add_zero,
      State.startBytes_trace]
    simp
  · intro x
    simp only [hcur, h2, h3, State.emit_rxbuf, exchange_read, hb, hrx, Nat.add_zero, State.startBytes_rxbuf]

/-- What a descriptor that fails or hangs does when the current entry is descriptor `k` of length `l` (R177). -/
theorem segmentBad_facts (s : State) (k l : Nat) (hk : k < 16) (hl : l ≤ 4096) (hc : s.work.chunkI = k)
    (hd : s.desc[k]? = some (descOf k l)) :
    s.segmentBad.trace = s.trace ++ (.spiSeg k (4096 * k) l false ::
      ((List.range (min s.nextSent l)).map fun j =>
        .spiByte (s.txByte (4096 * k + j)) (s.tookSent.rxAt j))) ∧
    (∀ x, x < 4096 * k ∨ 4096 * k + l ≤ x → Memory.read s.segmentBad.rxbuf x = Memory.read s.rxbuf x) := by
  obtain ⟨h1, h2, h3⟩ := descOf_offsets k l hk hl
  have hcur : s.currentDesc = descOf k l := by simp [State.currentDesc, hc, hd]
  have hb : ∀ e, (s.emit e).startBytes.tookSent.work.byteI = 0 := fun e => rfl
  have htx : ∀ e i, (s.emit e).startBytes.tookSent.txByte i = s.txByte i := fun e i => rfl
  have hrx : ∀ e i, (s.emit e).startBytes.tookSent.rxAt i = s.tookSent.rxAt i := fun e i => rfl
  have hn : ∀ e, (s.emit e).startBytes.nextSent = s.nextSent := fun e => rfl
  unfold State.segmentBad
  refine ⟨?_, ?_⟩
  · rw [spoilRx_only]
    simp only [hcur, h1, h3, exchange_trace, hb, htx, hrx, hn, hc, Nat.add_zero, State.startBytes_trace,
      State.tookSent_trace, State.emit_trace]
    simp
  · intro x hx
    simp only [hcur, h2, h3]
    rw [spoilRx_read _ _ _ _ hx, exchange_read, if_neg]
    · simp
    · simp only [hb, h2, hn]; omega

/-! ## A run of descriptors -/

theorem submit_zero (s : State) : s.submit 0 = (s, .ok) := rfl

theorem submit_ok (s : State) (n : Nat) (h : s.nextSeg = .ok) :
    s.submit (n + 1) = s.tookSeg.segmentOk.submit n := by
  rw [State.submit, h]

theorem submit_bad (s : State) (n : Nat) (h : s.nextSeg ≠ .ok) :
    s.submit (n + 1) = (s.tookSeg.segmentBad, s.nextSeg) := by
  rw [State.submit]
  cases hs : s.nextSeg with
  | ok => exact absurd hs h
  | fail => rfl
  | hang => rfl

/-- A submission touches the receive buffer, the working registers, the trace and the environment's queues, nothing else. -/
theorem submit_only (n : Nat) (s : State) :
    (s.submit n).1 = { s with rxbuf := (s.submit n).1.rxbuf, work := (s.submit n).1.work,
                              trace := (s.submit n).1.trace, env := (s.submit n).1.env } := by
  induction n generalizing s with
  | zero => rfl
  | succ n ih =>
    by_cases h : s.nextSeg = .ok
    · rw [submit_ok s n h, ih, segmentOk_only]; ext1 <;> simp
    · rw [submit_bad s n h]; dsimp only; rw [segmentBad_only]; ext1 <;> simp

/-- The environment's answers agree with a plan: `seg` outcomes to come, and received bytes from an offset of `rx`. -/
structure State.Fed (s : State) (segs : List SegOutcome) (rx : List Byte) (off : Nat) : Prop where
  seg : s.env.seg = segs
  rx : s.env.rx = rx.drop off

theorem Fed.rxAt {s : State} {segs : List SegOutcome} {rx : List Byte} {off : Nat} (h : s.Fed segs rx off) (j : Nat)
    (hj : off + j < rx.length) : s.rxAt j = rx.getD (off + j) 0 := by
  simp [State.rxAt, h.rx, List.getElem?_drop, List.getElem?_eq_getElem hj]

/-- `m` descriptors of a transfer of `len` bytes, from the `k`-th on, when the environment lets each succeed (R173 to
R175): what they put on the trace, what they store, and where they leave the queues. -/
theorem submit_run (m : Nat) (s : State) (len k : Nat) (segs : List SegOutcome) (rx : List Byte)
    (hl : len ≤ xferMax) (hm : k + m ≤ descCount len) (hrx : min (4096 * (k + m)) len ≤ rx.length)
    (hc : s.work.chunkI = k)
    (hd : ∀ j, j < descCount len → s.desc[j]? = some (descOf j (chunkLen len j)))
    (hf : s.Fed (List.replicate m .ok ++ segs) rx (min (4096 * k) len)) :
    ∃ t : State, (∀ n, s.submit (m + n) = t.submit n) ∧
      t = { s with rxbuf := t.rxbuf, work := t.work, trace := t.trace, env := t.env } ∧
      t.work.chunkI = k + m ∧
      t.Fed segs rx (min (4096 * (k + m)) len) ∧
      t.env.sent = s.env.sent ∧
      t.trace = s.trace ++ (List.range m).flatMap (fun i =>
        .spiSeg (k + i) (4096 * (k + i)) (chunkLen len (k + i)) true ::
          (((List.range (chunkLen len (k + i))).map fun j =>
            .spiByte (s.txByte (4096 * (k + i) + j)) (rx.getD (4096 * (k + i) + j) 0)) ++ [.segDelay])) ∧
      ∀ x, Memory.read t.rxbuf x =
        if min (4096 * k) len ≤ x ∧ x < min (4096 * (k + m)) len then some (rx.getD x 0)
        else Memory.read s.rxbuf x := by
  induction m generalizing s k with
  | zero =>
    refine ⟨s, fun n => by rw [Nat.zero_add], rfl, by simpa using hc, by simpa using hf, rfl, by simp, fun x => ?_⟩
    rw [if_neg (by rw [Nat.add_zero]; omega)]
  | succ m ih =>
    have hk : k < descCount len := by omega
    have hk16 : k < 16 := lt_of_lt_of_le hk (descCount_le len hl)
    have hst := chunk_start len k hk
    have hend := chunk_end len k hk
    have hle : chunkLen len k ≤ 4096 := by unfold chunkLen; omega
    have hok : s.nextSeg = .ok := by simp [State.nextSeg, hf.seg, List.replicate_succ]
    obtain ⟨f1, f2, f3, f4⟩ := segmentOk_facts s.tookSeg k (chunkLen len k) hk16 hle (by simpa using hc)
      (by simpa using hd k hk)
    have fo := segmentOk_only s.tookSeg
    have hat : ∀ j, j < chunkLen len k → s.tookSeg.rxAt j = rx.getD (4096 * k + j) 0 := by
      intro j hj
      have h1 : s.tookSeg.Fed (List.replicate m .ok ++ segs) rx (min (4096 * k) len) :=
        ⟨by simp [hf.seg, List.replicate_succ], by simpa using hf.rx⟩
      rw [Fed.rxAt h1 j (by omega)]
      congr 2; omega
    have hfed : s.tookSeg.segmentOk.Fed (List.replicate m .ok ++ segs) rx (min (4096 * (k + 1)) len) := by
      refine ⟨?_, ?_⟩
      · rw [f2]; simp [hf.seg, List.replicate_succ]
      · rw [f2]; simp only [State.tookSeg_env, hf.rx, List.drop_drop]; congr 1; omega
    obtain ⟨t, g1, g2, g3, g4, g4', g5, g6⟩ := ih s.tookSeg.segmentOk (k + 1) (by omega)
      (by rw [show k + 1 + m = k + (m + 1) by omega]; exact hrx) (by rw [f1])
      (fun j hj => by rw [fo]; simpa using hd j hj) hfed
    have htx : ∀ i, s.tookSeg.segmentOk.txByte i = s.txByte i := by
      intro i; simp only [State.txByte]; rw [fo]; simp
    refine ⟨t, fun n => ?_, ?_, by omega, ?_, ?_, ?_, fun x => ?_⟩
    · rw [show m + 1 + n = (m + n) + 1 by omega, submit_ok s _ hok, g1]
    · rw [g2, fo]; ext1 <;> simp
    · rw [show k + (m + 1) = k + 1 + m by omega]; exact g4
    · rw [g4', f2]; simp
    · rw [g5, f3, List.range_succ_eq_map, List.flatMap_cons, List.flatMap_map, List.append_assoc]
      have e1 : s.tookSeg.trace = s.trace := rfl
      rw [e1]
      congr 1
      simp only [htx, Nat.add_zero, Nat.succ_eq_add_one]
      congr 1
      · congr 2
        refine List.map_congr_left fun j hj => ?_
        rw [hat j (List.mem_range.1 hj)]; rfl
      · refine List.flatMap_congr fun i _ => ?_
        rw [show k + 1 + i = k + (i + 1) by omega]
    · rw [g6 x, f4 x, show k + (m + 1) = k + 1 + m by omega]
      by_cases h1 : min (4096 * (k + 1)) len ≤ x ∧ x < min (4096 * (k + 1 + m)) len
      · rw [if_pos h1, if_pos (by omega)]
      · rw [if_neg h1]
        by_cases h2 : 4096 * k ≤ x ∧ x < 4096 * k + chunkLen len k
        · rw [if_pos h2, if_pos (by omega), hat _ (by omega)]; congr 2; omega
        · rw [if_neg h2, if_neg (by omega)]; rfl

/-! ## Configuration -/

/-- A configuration touches the three registers, the trace and the environment's queues, nothing else. -/
theorem configure_only (is : List Nat) (s : State) :
    (s.configure is).1 = { s with spiMode := (s.configure is).1.spiMode, spiBits := (s.configure is).1.spiBits,
                                  spiSpeed := (s.configure is).1.spiSpeed, trace := (s.configure is).1.trace,
                                  env := (s.configure is).1.env } := by
  induction is generalizing s with
  | nil => rfl
  | cons i is ih =>
    unfold State.configure
    dsimp only
    split
    · rw [ih]
      unfold State.cfgEffect
      split_ifs <;> ext1 <;> simp
    · unfold State.cfgSpoil
      dsimp only
      split_ifs <;> ext1 <;> simp

/-- Four successes: the registers are written and four events stand on the trace (R166). -/
theorem configure_ok (s : State) (h : s.env.cfgOk.take 4 = [true, true, true, true]) :
    s.configure cfgSteps =
      ({ s with spiMode := 0, spiBits := 8, spiSpeed := 2000000
                trace := s.trace ++ [.spiCfg 0 true, .spiCfg 1 true, .spiCfg 2 true, .spiCfg 3 true]
                env := { s.env with cfgOk := s.env.cfgOk.drop 4, drawn := s.env.drawn + 4 } }, true) := by
  obtain ⟨q, hq⟩ : ∃ q, s.env.cfgOk = true :: true :: true :: true :: q := by
    refine ⟨s.env.cfgOk.drop 4, ?_⟩
    conv_lhs => rw [← List.take_append_drop 4 s.env.cfgOk, h]
    rfl
  simp [State.configure, cfgSteps, State.cfgEffect, State.nextCfg, hq, spiModeVal, spiBitsVal, spiSpeedVal,
    State.emit, State.tookCfg]

end Sys2Proof.Machine
end

