-- ==== Sys2Proof/Laws/Commands.lean ====
section
/-! SUPPORT. What a whole `TRANSFER` can do, said once: which fields it may touch, the ways it ends, and what it does to the
receive buffer; and what any row can do when it answers a next state. -/

namespace Sys2Proof.Machine

/-! ## Rewrites of the fields that the parts of a transfer keep -/

@[simp] theorem resetSeq_mapped (s : State) : s.resetSeq.mapped = s.mapped := by rw [resetSeq_only]
@[simp] theorem resetSeq_spiOpen (s : State) : s.resetSeq.spiOpen = s.spiOpen := by rw [resetSeq_only]
@[simp] theorem resetSeq_halted (s : State) : s.resetSeq.halted = s.halted := by rw [resetSeq_only]
@[simp] theorem resetSeq_faulted (s : State) : s.resetSeq.faulted = s.faulted := by rw [resetSeq_only]
@[simp] theorem resetSeq_spiMode (s : State) : s.resetSeq.spiMode = s.spiMode := by rw [resetSeq_only]
@[simp] theorem resetSeq_spiBits (s : State) : s.resetSeq.spiBits = s.spiBits := by rw [resetSeq_only]
@[simp] theorem resetSeq_spiSpeed (s : State) : s.resetSeq.spiSpeed = s.spiSpeed := by rw [resetSeq_only]
@[simp] theorem resetSeq_desc (s : State) : s.resetSeq.desc = s.desc := by rw [resetSeq_only]
@[simp] theorem resetSeq_descCnt (s : State) : s.resetSeq.descCnt = s.descCnt := by rw [resetSeq_only]
@[simp] theorem resetSeq_txbuf (s : State) : s.resetSeq.txbuf = s.txbuf := by rw [resetSeq_only]
@[simp] theorem resetSeq_txlen (s : State) : s.resetSeq.txlen = s.txlen := by rw [resetSeq_only]
@[simp] theorem resetSeq_rxbuf (s : State) : s.resetSeq.rxbuf = s.rxbuf := by rw [resetSeq_only]
@[simp] theorem resetSeq_result (s : State) : s.resetSeq.result = s.result := by rw [resetSeq_only]
@[simp] theorem resetSeq_cause (s : State) : s.resetSeq.cause = s.cause := by rw [resetSeq_only]
@[simp] theorem resetSeq_pc (s : State) : s.resetSeq.pc = s.pc := by rw [resetSeq_only]
@[simp] theorem resetSeq_stream (s : State) : s.resetSeq.stream = s.stream := by rw [resetSeq_only]
@[simp] theorem resetSeq_pos (s : State) : s.resetSeq.pos = s.pos := by rw [resetSeq_only]
@[simp] theorem resetSeq_faultRec (s : State) : s.resetSeq.faultRec = s.faultRec := by rw [resetSeq_only]
@[simp] theorem resetSeq_hung (s : State) : s.resetSeq.hung = s.hung := by rw [resetSeq_only]
@[simp] theorem resetSeq_resetReq (s : State) : s.resetSeq.resetReq = s.resetReq := by rw [resetSeq_only]
@[simp] theorem resetSeq_epoch (s : State) : s.resetSeq.epoch = s.epoch := by rw [resetSeq_only]
@[simp] theorem resetSeq_env (s : State) : s.resetSeq.env = s.env := by rw [resetSeq_only]

/-- The state in which step 5 begins: the table is built and `CHUNK_I` is 0 (R170). -/
def State.ready (s : State) (len : Nat) : State := (s.buildDescs len).startChunks

theorem ready_only (s : State) (len : Nat) :
    s.ready len = { s with desc := (s.ready len).desc, descCnt := descCount len, work := (s.ready len).work } := by
  have h := buildDescs_cnt s len
  unfold State.ready
  rw [← h, buildDescs_only]
  ext1 <;> simp

theorem ready_chunkI (s : State) (len : Nat) : (s.ready len).work.chunkI = 0 := rfl

theorem ready_desc (s : State) (len k : Nat) (h : len ≤ xferMax) (hk : k < descCount len) :
    (s.ready len).desc[k]? = some (descOf k (chunkLen len k)) := buildDescs_desc s len k h hk

/-- Step 5 of a transfer, from the state in which the device is configured. -/
def State.submitted (s : State) (len : Nat) : State × SegOutcome := (s.ready len).submit (descCount len)

theorem submitted_only (s : State) (len : Nat) :
    (s.submitted len).1 = { s with desc := (s.submitted len).1.desc, descCnt := descCount len,
                                   rxbuf := (s.submitted len).1.rxbuf, work := (s.submitted len).1.work,
                                   trace := (s.submitted len).1.trace, env := (s.submitted len).1.env } := by
  unfold State.submitted
  rw [submit_only, ready_only]

theorem transferData_eq (s : State) (len : Nat) :
    s.transferData len =
      match (s.submitted len).2 with
      | .ok => ((s.submitted len).1.close.resetSeq.setResult 0).retire lenHN
      | .fail => ((s.submitted len).1.close.fail causeXfer).retire lenHN
      | .hang => (s.submitted len).1.hang := by
  unfold State.transferData State.submitted State.ready
  simp only [State.startChunks_descCnt, buildDescs_cnt]
  all_goals rfl

/-! ## The receive buffer -/

/-- A submission keeps the canonical form, and what it stores lies within the transfer's length (R73, R162). -/
theorem submit_rx (n : Nat) (s : State) (len : Nat) (hl : len ≤ xferMax)
    (hd : ∀ j, j < descCount len → s.desc[j]? = some (descOf j (chunkLen len j)))
    (hn : s.work.chunkI + n = descCount len) :
    (∀ x, len ≤ x → Memory.read (s.submit n).1.rxbuf x = Memory.read s.rxbuf x) ∧
    (Memory.wf s.rxbuf → Memory.wf (s.submit n).1.rxbuf) ∧
    ∀ b, len ≤ b → (∀ c ∈ s.rxbuf, c.1 < b) → ∀ c ∈ (s.submit n).1.rxbuf, c.1 < b := by
  induction n generalizing s with
  | zero => exact ⟨fun _ _ => rfl, id, fun _ _ h => h⟩
  | succ n ih =>
    have hk : s.work.chunkI < descCount len := by omega
    have hk16 : s.work.chunkI < 16 := lt_of_lt_of_le hk (descCount_le len hl)
    have hend := chunk_end len _ hk
    have hle : chunkLen len s.work.chunkI ≤ 4096 := by unfold chunkLen; omega
    have hdk := hd _ hk
    obtain ⟨o1, o2, o3⟩ := descOf_offsets s.work.chunkI _ hk16 hle
    have hcur : s.tookSeg.currentDesc = descOf s.work.chunkI (chunkLen len s.work.chunkI) := by
      simp [State.currentDesc, hdk]
    have hb : ∀ e, (s.tookSeg.emit e).startBytes.work.byteI = 0 := fun e => rfl
    have hb' : ∀ e, (s.tookSeg.emit e).startBytes.tookSent.work.byteI = 0 := fun e => rfl
    by_cases h : s.nextSeg = .ok
    · rw [submit_ok s n h]
      obtain ⟨f1, f2, f3, f4⟩ := segmentOk_facts s.tookSeg s.work.chunkI _ hk16 hle rfl hdk
      have fo := segmentOk_only s.tookSeg
      obtain ⟨i1, i2, i3⟩ := ih s.tookSeg.segmentOk (fun j hj => by rw [fo]; simpa using hd j hj) (by rw [f1]; omega)
      have w : Memory.wf s.rxbuf → Memory.wf s.tookSeg.segmentOk.rxbuf := by
        intro hw
        unfold State.segmentOk
        exact exchange_wf _ _ _ hw
      have b : ∀ b, len ≤ b → (∀ c ∈ s.rxbuf, c.1 < b) → ∀ c ∈ s.tookSeg.segmentOk.rxbuf, c.1 < b := by
        intro b hlb hin
        unfold State.segmentOk
        exact exchange_inside _ _ _ b hin (by rw [hcur, o2, o3, hb]; omega)
      refine ⟨fun x hx => ?_, fun hw => i2 (w hw), fun b' hb' hin => i3 b' hb' (b b' hb' hin)⟩
      rw [i1 x hx, f4 x, if_neg (by omega)]; rfl
    · rw [submit_bad s n h]
      refine ⟨fun x hx => ?_, fun hw => ?_, fun b hlb hin => ?_⟩
      · exact (segmentBad_facts s.tookSeg _ _ hk16 hle rfl hdk).2 x (by omega)
      · unfold State.segmentBad
        exact spoilRx_wf _ _ _ (exchange_wf _ _ _ hw)
      · unfold State.segmentBad
        refine spoilRx_inside _ _ _ b (exchange_inside _ _ _ b hin ?_) ?_
        · rw [hcur, o2, o3, hb']; omega
        · rw [hcur, o2, o3]; omega

/-! ## Which fields a transfer may touch, and how it ends -/

/-- The part of the state no transfer touches (R60). -/
structure State.SameAside (s t : State) : Prop where
  cfg : t.cfg = s.cfg
  mapped : t.mapped = s.mapped
  faulted : t.faulted = s.faulted
  faultRec : t.faultRec = s.faultRec
  txbuf : t.txbuf = s.txbuf
  txlen : t.txlen = s.txlen
  stream : t.stream = s.stream
  resetReq : t.resetReq = s.resetReq
  epoch : t.epoch = s.epoch

/-- How a transfer that opened the device ends: it returned, or it hangs (R236). -/
inductive State.Ran (s t : State) : Prop where
  | returned (result : t.result = 0 ∨ t.result = -1) (closed : t.spiOpen = false) (emptied : t.descCnt = 0)
      (pc : t.pc = s.pc + 1) (pos : t.pos = s.pos + 5) (halted : t.halted = s.halted) (hung : t.hung = s.hung)
  | hangs (len : Nat) (bound : len ≤ xferMax) (result : t.result = s.result) (cause : t.cause = s.cause)
      (spiOpen : t.spiOpen = true) (descCnt : t.descCnt = descCount len) (pc : t.pc = s.pc) (pos : t.pos = s.pos)
      (halted : t.halted = s.halted) (hung : t.hung = true)

/-- How a transfer ends: as one that opened the device, or by halting the block (R229, R236). -/
inductive State.Ended (s t : State) : Prop where
  | ran (h : s.Ran t)
  | fatal (result : t.result = s.result) (spiOpen : t.spiOpen = s.spiOpen) (descCnt : t.descCnt = s.descCnt)
      (pc : t.pc = s.pc) (pos : t.pos = s.pos) (halted : t.halted = true) (cause : t.cause = 2) (hung : t.hung = s.hung)
      (last : t.trace.getLast? = some (.spiOpen false))

/-- What a transfer may do to the receive buffer (R73, R162). -/
structure RxKept (s t : State) (len : Nat) : Prop where
  above : ∀ x, len ≤ x → Memory.read t.rxbuf x = Memory.read s.rxbuf x
  wf : Memory.wf s.rxbuf → Memory.wf t.rxbuf
  inside : ∀ b, len ≤ b → (∀ c ∈ s.rxbuf, c.1 < b) → ∀ c ∈ t.rxbuf, c.1 < b

theorem RxKept.of_eq {s t : State} (len : Nat) (h : t.rxbuf = s.rxbuf) : RxKept s t len := by
  refine ⟨fun x _ => by rw [h], fun hw => by rw [h]; exact hw, fun b _ hi => by rw [h]; exact hi⟩

theorem submitted_rx (s : State) (len : Nat) (hl : len ≤ xferMax) : RxKept s (s.submitted len).1 len := by
  obtain ⟨h1, h2, h3⟩ := submit_rx (descCount len) (s.ready len) len hl (fun j hj => ready_desc s len j hl hj)
    (by rw [ready_chunkI]; omega)
  have e : (s.ready len).rxbuf = s.rxbuf := by rw [ready_only]
  rw [e] at h1 h2 h3
  exact ⟨h1, h2, h3⟩

theorem State.SameAside.trans {s t u : State} (h : s.SameAside t) (g : t.SameAside u) : s.SameAside u :=
  ⟨g.cfg.trans h.cfg, g.mapped.trans h.mapped, g.faulted.trans h.faulted, g.faultRec.trans h.faultRec,
    g.txbuf.trans h.txbuf, g.txlen.trans h.txlen, g.stream.trans h.stream, g.resetReq.trans h.resetReq,
    g.epoch.trans h.epoch⟩

theorem State.Ran.of_kept {s t u : State} (g : t.Ran u) (pc : t.pc = s.pc) (pos : t.pos = s.pos)
    (halted : t.halted = s.halted) (hung : t.hung = s.hung) (result : t.result = s.result)
    (cause : t.cause = s.cause) : s.Ran u := by
  cases g with
  | returned a b c d e f g => exact .returned a b c (pc ▸ d) (pos ▸ e) (f.trans halted) (g.trans hung)
  | hangs len a b c d e f g h i =>
    exact .hangs len a (b.trans result) (c.trans cause) d e (f.trans pc) (g.trans pos) (h.trans halted) i

/-- Steps 4 to 6 (R170 to R181). -/
theorem transferData_ends (s : State) (len : Nat) (hl : len ≤ xferMax) (ho : s.spiOpen = true) :
    s.SameAside (s.transferData len) ∧ s.Ran (s.transferData len) ∧ RxKept s (s.transferData len) len := by
  have h := submitted_only s len
  have r := submitted_rx s len hl
  rw [transferData_eq]
  generalize s.submitted len = m at h r ⊢
  obtain ⟨t, o⟩ := m
  dsimp only at h r ⊢
  have same : s.SameAside t := by refine ⟨?_, ?_, ?_, ?_, ?_, ?_, ?_, ?_, ?_⟩ <;> rw [h]
  have pc : t.pc = s.pc := by rw [h]
  have pos : t.pos = s.pos := by rw [h]
  have halted : t.halted = s.halted := by rw [h]
  have hung : t.hung = s.hung := by rw [h]
  cases o with
  | ok =>
    refine ⟨same.trans ⟨?_, ?_, ?_, ?_, ?_, ?_, ?_, ?_, ?_⟩, .returned ?_ ?_ ?_ ?_ ?_ ?_ ?_, ⟨?_, ?_, ?_⟩⟩ <;>
      simp [pc, pos, halted, hung, lenHN]
    exacts [r.above, r.wf, fun b => by simpa using r.inside b]
  | fail =>
    refine ⟨same.trans ⟨?_, ?_, ?_, ?_, ?_, ?_, ?_, ?_, ?_⟩, .returned ?_ ?_ ?_ ?_ ?_ ?_ ?_, ⟨?_, ?_, ?_⟩⟩ <;>
      simp [pc, pos, halted, hung, lenHN]
    exacts [r.above, r.wf, fun b => by simpa using r.inside b]
  | hang =>
    refine ⟨same.trans ⟨rfl, rfl, rfl, rfl, rfl, rfl, rfl, rfl, rfl⟩,
      .hangs len hl ?_ ?_ ?_ ?_ pc pos halted rfl, ⟨r.above, r.wf, r.inside⟩⟩ <;> dsimp only [State.hang] <;>
      rw [h]
    exact ho

/-- Steps 3 to 6 (R166 to R181). -/
theorem transferOpened_ends (s : State) (len : Nat) (hl : len ≤ xferMax) (ho : s.spiOpen = true) :
    s.SameAside (s.transferOpened len) ∧ s.Ran (s.transferOpened len) ∧ RxKept s (s.transferOpened len) len := by
  have h := configure_only cfgSteps s
  unfold State.transferOpened
  generalize s.configure cfgSteps = m at h ⊢
  obtain ⟨t, o⟩ := m
  dsimp only at h ⊢
  have same : s.SameAside t := by refine ⟨?_, ?_, ?_, ?_, ?_, ?_, ?_, ?_, ?_⟩ <;> rw [h]
  have pc : t.pc = s.pc := by rw [h]
  have pos : t.pos = s.pos := by rw [h]
  have halted : t.halted = s.halted := by rw [h]
  have hung : t.hung = s.hung := by rw [h]
  have rx : t.rxbuf = s.rxbuf := by rw [h]
  cases o with
  | true =>
    rw [if_pos rfl]
    obtain ⟨a, b, c⟩ := transferData_ends t len hl (by rw [h]; exact ho)
    exact ⟨same.trans a, b.of_kept pc pos halted hung (by rw [h]) (by rw [h]),
      ⟨rx ▸ c.above, rx ▸ c.wf, rx ▸ c.inside⟩⟩
  | false =>
    rw [if_neg (by decide)]
    refine ⟨same.trans ⟨?_, ?_, ?_, ?_, ?_, ?_, ?_, ?_, ?_⟩, .returned ?_ ?_ ?_ ?_ ?_ ?_ ?_, RxKept.of_eq len ?_⟩ <;>
      simp [pc, pos, halted, hung, rx, lenHN]

/-- A whole transfer of a legal length, whatever the environment answers (R160). -/
theorem transfer_ends (s : State) (len : Nat) (hl : len ≤ xferMax) :
    s.SameAside (s.transfer len) ∧ s.Ended (s.transfer len) ∧ RxKept s (s.transfer len) len := by
  unfold State.transfer
  dsimp only
  split
  · obtain ⟨a, b, c⟩ := transferOpened_ends
      ((s.resetSeq.tookOpen.emit (.spiOpen s.resetSeq.nextOpen)).setSpiOpen true) len hl rfl
    have same : s.SameAside ((s.resetSeq.tookOpen.emit (.spiOpen s.resetSeq.nextOpen)).setSpiOpen true) := by
      refine ⟨?_, ?_, ?_, ?_, ?_, ?_, ?_, ?_, ?_⟩ <;> simp
    refine ⟨same.trans a, .ran (b.of_kept ?_ ?_ ?_ ?_ ?_ ?_), ⟨?_, ?_, ?_⟩⟩ <;> try simp
    exacts [by simpa using c.above, by simpa using c.wf, fun b => by simpa using c.inside b]
  · next h =>
    refine ⟨⟨?_, ?_, ?_, ?_, ?_, ?_, ?_, ?_, ?_⟩, .fatal ?_ ?_ ?_ ?_ ?_ ?_ ?_ ?_ ?_, RxKept.of_eq len ?_⟩ <;>
      simp [causeOpen, h]

/-! ## What any row can do -/

theorem xferBound_le (c : Config) (n : Nat) (h : n ≤ xferBound c) : n ≤ xferMax ∧ n ≤ c.capacity := by
  unfold xferBound at h; omega

theorem emitLoop_only (s : State) (b : Byte) (n : Nat) :
    s.emitLoop b n = { s with txbuf := (s.emitCopies b n).txbuf, txlen := (s.emitCopies b n).txlen,
                              work := { s.work with repI := n } } := by
  unfold State.emitLoop; dsimp only; rw [emitCopies_only]

theorem emitFrame_only (s : State) (a : Half) (len : Nat) (p : List Byte) :
    s.emitFrame a len p = { s with txbuf := (s.emitFrame a len p).txbuf, txlen := (s.emitFrame a len p).txlen } := by
  unfold State.emitFrame
  split
  · rw [appendRev_only, append_only]
  · rfl

/-- Everything a row can do when it answers a next state. -/
inductive RowEffect (s : State) : Instr → State → Prop where
  /-- A fault: a wire frame, or a window command whose checks fail. -/
  | raises (i : Instr) (x : Raised) (h : i.isCommand = false ∨ needsMapping i = true) : RowEffect s i (s.raise x)
  /-- `INIT`. -/
  | maps : RowEffect s .init (s.mapWindow.retire lenH0)
  /-- A pin function command, of `n` bytes. -/
  | setsFn (i : Instr) (pin : Byte) (f : PinFn) (n : Nat)
      (h : i = .pinInp pin ∧ n = lenHP ∨ i = .pinOut pin ∧ n = lenHP ∨ ∃ alt, i = .pinAlt pin alt ∧ n = lenHPA) :
      RowEffect s i ((s.setFn pin.toNat f).retire n)
  /-- `PIN_SET`. -/
  | sets (m : Word) : RowEffect s (.pinSet m) ((s.writeSet m).retire lenHM)
  /-- `PIN_CLR`. -/
  | clears (m : Word) : RowEffect s (.pinClr m) ((s.writeClr m).retire lenHM)
  /-- `RESET_SEQ`. -/
  | resets : RowEffect s .resetSeq (s.resetSeq.retire lenH0)
  /-- `TRANSFER` of a legal length. -/
  | transfers (len : Word) (hm : s.mapped = true) (hl : len.toNat ≤ xferBound s.cfg) :
      RowEffect s (.transfer len) (s.transfer len.toNat)
  /-- `CLEAR`. -/
  | empties : RowEffect s .clear (s.clearLen.retire lenH0)
  /-- A single append, of a command of `n` bytes. -/
  | appends (i : Instr) (bs : List Byte) (n : Nat)
      (h : (∃ k d, i = .append k d ∧ bs = d ∧ n = lenHB k) ∨ (∃ k d, i = .appendRev k d ∧ bs = d.map rev8 ∧ n = lenHB k) ∨
        i = .emitBreak ∧ bs = [opBreak] ∧ n = lenH0 ∨ i = .emitFsync ∧ bs = [opFsync] ∧ n = lenH0) :
      RowEffect s i ((s.append bs).retire n)
  /-- Repeated emission. -/
  | repeats (i : Instr) (b : Byte) (n : Word) (h : i = .emitFasync n ∧ b = opFasync ∨ i = .emitNop n ∧ b = opNop) :
      RowEffect s i ((s.emitLoop b n.toNat).retire lenHN)
  /-- `EMIT_DATA`. -/
  | frames (a : Half) (len : Word) (p : List Byte) :
      RowEffect s (.emitData a len p) ((s.emitFrame a len.toNat p).retire (lenHD len))

/-- A window command's effect stands behind the window check. -/
theorem RowEffect.window {s : State} {i : Instr} (hi : needsMapping i = true) {u : State} (h : RowEffect s i u) :
    RowEffect s i (s.needsWindow u) := by
  unfold State.needsWindow; split
  · exact h
  · exact .raises _ _ (.inr hi)

/-- A pin command's effect stands behind the range check. -/
theorem RowEffect.pin {s : State} {i : Instr} (hi : needsMapping i = true) {u : State} (p : Byte)
    (h : RowEffect s i u) : RowEffect s i (s.needsPin p u) := by
  unfold State.needsPin; split
  · exact h
  · exact .raises _ _ (.inr hi)

/-- A row that answers a next state was given to a block that takes a command, and did one of these. -/
theorem exec_next (i : Instr) (s t : State) (h : exec i s = .next t) :
    s.halted = false ∧ s.hung = false ∧ RowEffect s i t := by
  cases i with
  | init => obtain ⟨a, b, rfl⟩ := accept_next _ _ _ h; exact ⟨a, b, .maps⟩
  | pinInp p =>
    obtain ⟨a, b, rfl⟩ := accept_next _ _ _ h
    exact ⟨a, b, .window rfl (.pin rfl p (.setsFn _ p _ _ (.inl ⟨rfl, rfl⟩)))⟩
  | pinOut p =>
    obtain ⟨a, b, rfl⟩ := accept_next _ _ _ h
    exact ⟨a, b, .window rfl (.pin rfl p (.setsFn _ p _ _ (.inr (.inl ⟨rfl, rfl⟩))))⟩
  | pinAlt p alt =>
    obtain ⟨a, b, rfl⟩ := accept_next _ _ _ h
    refine ⟨a, b, .window rfl (.pin rfl p ?_)⟩
    split
    · exact .setsFn _ p _ _ (.inr (.inr ⟨alt, rfl, rfl⟩))
    · exact .raises _ _ (.inr rfl)
  | pinSet m => obtain ⟨a, b, rfl⟩ := accept_next _ _ _ h; exact ⟨a, b, .window rfl (.sets m)⟩
  | pinClr m => obtain ⟨a, b, rfl⟩ := accept_next _ _ _ h; exact ⟨a, b, .window rfl (.clears m)⟩
  | resetSeq => obtain ⟨a, b, rfl⟩ := accept_next _ _ _ h; exact ⟨a, b, .window rfl .resets⟩
  | transfer len =>
    obtain ⟨a, b, rfl⟩ := accept_next _ _ _ h
    refine ⟨a, b, ?_⟩
    unfold State.needsWindow
    split
    · next hm =>
      split
      · next hl => exact .transfers len hm hl
      · exact .raises _ _ (.inr rfl)
    · exact .raises _ _ (.inr rfl)
  | clear => obtain ⟨a, b, rfl⟩ := accept_next _ _ _ h; exact ⟨a, b, .empties⟩
  | append n d =>
    obtain ⟨a, b, rfl⟩ := accept_next _ _ _ h; exact ⟨a, b, .appends _ _ _ (.inl ⟨n, d, rfl, rfl, rfl⟩)⟩
  | appendRev n d =>
    obtain ⟨a, b, rfl⟩ := accept_next _ _ _ h; exact ⟨a, b, .appends _ _ _ (.inr (.inl ⟨n, d, rfl, rfl, rfl⟩))⟩
  | emitBreak =>
    obtain ⟨a, b, rfl⟩ := accept_next _ _ _ h; exact ⟨a, b, .appends _ _ _ (.inr (.inr (.inl ⟨rfl, rfl, rfl⟩)))⟩
  | emitFsync =>
    obtain ⟨a, b, rfl⟩ := accept_next _ _ _ h; exact ⟨a, b, .appends _ _ _ (.inr (.inr (.inr ⟨rfl, rfl, rfl⟩)))⟩
  | emitFasync n => obtain ⟨a, b, rfl⟩ := accept_next _ _ _ h; exact ⟨a, b, .repeats _ _ n (.inl ⟨rfl, rfl⟩)⟩
  | emitNop n => obtain ⟨a, b, rfl⟩ := accept_next _ _ _ h; exact ⟨a, b, .repeats _ _ n (.inr ⟨rfl, rfl⟩)⟩
  | emitData ad n d => obtain ⟨a, b, rfl⟩ := accept_next _ _ _ h; exact ⟨a, b, .frames ad n d⟩
  | wireNop => obtain ⟨a, b, rfl⟩ := accept_next _ _ _ h; exact ⟨a, b, .raises _ _ (.inl rfl)⟩
  | wireBreak => obtain ⟨a, b, rfl⟩ := accept_next _ _ _ h; exact ⟨a, b, .raises _ _ (.inl rfl)⟩
  | wireFasync => obtain ⟨a, b, rfl⟩ := accept_next _ _ _ h; exact ⟨a, b, .raises _ _ (.inl rfl)⟩
  | wireFsync => obtain ⟨a, b, rfl⟩ := accept_next _ _ _ h; exact ⟨a, b, .raises _ _ (.inl rfl)⟩
  | wireData w ad d => obtain ⟨a, b, rfl⟩ := accept_next _ _ _ h; exact ⟨a, b, .raises _ _ (.inl rfl)⟩

/-- In a state that takes no command every row has the same stop. -/
theorem exec_of_accept (s : State) (o : Host.Outcome State Fault Refusal) (h : ∀ t, accept s t = o) (i : Instr) :
    exec i s = o := by
  cases i <;> exact h _

/-- A transfer of a legal length is what its meaning answers. -/
theorem exec_transfer (s : State) (len : Word) (h : s.Accepts) (hm : s.mapped = true)
    (hb : len.toNat ≤ min 65536 s.cfg.capacity) : exec (.transfer len) s = .next (s.transfer len.toNat) := by
  have hb' : len.toNat ≤ xferBound s.cfg := hb
  simp only [exec, execTransfer, accept_of_ready s _ h.1 h.2, needsWindow_mapped s _ hm, if_pos hb']

/-! ## A transfer up to the end of its configuration, and its first descriptors -/

/-- The state in which the device is configured, when the environment lets it get that far. -/
def State.configured (s : State) : State :=
  { s with
    fsel := s.resetSeq.fsel, latch := s.resetSeq.latch, work := s.resetSeq.work
    spiOpen := true, spiMode := 0, spiBits := 8, spiSpeed := 2000000
    trace := s.trace ++ (resetEvents s.cfg s.fsel ++ openEvents)
    env := { s.env with openOk := s.env.openOk.tail, cfgOk := s.env.cfgOk.drop 4, drawn := s.env.drawn + 5 } }

theorem nextOpen_of_head (s : State) (b : Bool) (h : s.env.openOk.head? = some b) : s.resetSeq.nextOpen = b := by
  simp only [State.nextOpen, resetSeq_env]
  cases hq : s.env.openOk with
  | nil => simp [hq] at h
  | cons x q => simpa [hq] using h

theorem transfer_configured (s : State) (len : Nat) (h : s.DeviceAnswers) :
    s.transfer len = s.configured.transferData len := by
  have ho := nextOpen_of_head s true h.opens
  have e : ((s.resetSeq.tookOpen.emit (.spiOpen s.resetSeq.nextOpen)).setSpiOpen true).configure cfgSteps =
      (s.configured, true) := by
    rewrite [configure_ok _ (by simpa using h.configures)]
    refine congrArg (·, true) ?_
    ext1 <;> simp [State.configured, resetSeq_trace, ho, openEvents]
  unfold State.transfer
  dsimp only
  rewrite [if_pos ho, State.transferOpened, e]
  rfl

/-- The first `n` descriptors when the environment lets them succeed: what they send, store and keep (R173 to R175). -/
theorem configured_run (s : State) (len n : Nat) (hl : len ≤ 65536) (hn : n ≤ descCount len) (segs : List SegOutcome)
    (hs : s.env.seg = List.replicate n .ok ++ segs) (hrx : min (4096 * n) len ≤ s.env.rx.length) :
    ∃ t : State, (∀ m, (s.configured.ready len).submit (n + m) = t.submit m) ∧
      t = { s.configured with desc := t.desc, descCnt := descCount len, rxbuf := t.rxbuf, work := t.work,
                              trace := t.trace, env := t.env } ∧
      (∀ k, k < descCount len → t.desc[k]? = some (descOf k (chunkLen len k))) ∧
      t.work.chunkI = n ∧ t.Fed segs s.env.rx (min (4096 * n) len) ∧ t.env.sent = s.env.sent ∧
      t.trace = s.configured.trace ++ chunksEvents s len n ∧
      ∀ x, Memory.read t.rxbuf x = if x < min (4096 * n) len then s.env.rx[x]? else Memory.read s.rxbuf x := by
  have ro := ready_only s.configured len
  have henv : (s.configured.ready len).env = s.configured.env := by rw [ro]
  have hb : (s.configured.ready len).rxbuf = s.rxbuf := by rw [ro]; rfl
  have ht : (s.configured.ready len).trace = s.configured.trace := by rw [ro]
  have hx : (s.configured.ready len).txbuf = s.txbuf := by rw [ro]; rfl
  have hep : (s.configured.ready len).epoch = s.epoch := by rw [ro]; rfl
  obtain ⟨t, g1, g2, g3, g4, g5, g6, g7⟩ := submit_run n (s.configured.ready len) len 0 segs s.env.rx hl (by omega)
    (by simpa using hrx) rfl (fun j hj => ready_desc _ len j hl hj)
    ⟨by rw [henv]; exact hs, by rw [henv]; simp [State.configured]⟩
  refine ⟨t, g1, ?_, ?_, by omega, by simpa using g4, ?_, ?_, fun x => ?_⟩
  · rw [g2, ro]
  · intro k hk; rw [g2]; exact ready_desc _ len k hl hk
  · rw [g5, henv]; rfl
  · rw [g6, ht, chunksEvents]
    refine congrArg _ (List.flatMap_congr fun i _ => ?_)
    simp only [Nat.zero_add, chunkEvents, byteEvents, State.txByte, hx, hep]
  · rw [g7, hb]
    simp only [Nat.mul_zero, Nat.zero_min, Nat.zero_le, true_and, Nat.zero_add]
    split
    · rw [List.getElem?_eq_getElem (by omega), List.getD_eq_getElem _ _ (by omega)]
    · rfl

/-! ## One configuration step -/

theorem configure_step_ok (s : State) (i : Nat) (is : List Nat) (h : s.nextCfg = true) :
    s.configure (i :: is) = ((s.tookCfg.emit (.spiCfg i true)).cfgEffect i).configure is := by
  rw [State.configure]; simp [h]

theorem configure_step_fails (s : State) (i : Nat) (is : List Nat) (h : s.nextCfg = false) :
    s.configure (i :: is) = ((s.tookCfg.emit (.spiCfg i false)).cfgSpoil i, false) := by
  rw [State.configure]; simp [h]

end Sys2Proof.Machine
end

