-- ==== Sys2Proof/Laws/Decode.lean ====
section
/-! SUPPORT. The bit and byte helpers of the decoder, and what each reader makes of bytes laid out as the encoder lays
them out. -/

namespace Sys2Proof

/-! ## Bits and bytes -/

theorem rev8_getLsbD (b : Byte) (i : Nat) (h : i < 8) : (rev8 b).getLsbD i = b.getLsbD (7 - i) := by
  rw [rev8, BitVec.getLsbD_reverse, BitVec.getMsbD]
  simp [h]

@[simp] theorem rev8_rev8 (b : Byte) : rev8 (rev8 b) = b := by
  refine BitVec.eq_of_getLsbD_eq fun i hi => ?_
  rw [rev8_getLsbD _ _ hi, rev8_getLsbD _ _ (by omega)]
  congr 1; omega

@[simp] theorem map_rev8_comp (bs : List Byte) : bs.map (rev8 ∘ rev8) = bs :=
  (List.map_congr_left fun b _ => rev8_rev8 b).trans bs.map_id

@[simp] theorem word_extract (v : Word) :
    word (v.extractLsb' 24 8) (v.extractLsb' 16 8) (v.extractLsb' 8 8) (v.extractLsb' 0 8) = v := by
  refine BitVec.eq_of_getLsbD_eq fun i hi => ?_
  simp only [word, BitVec.getLsbD_append, BitVec.getLsbD_extractLsb']
  split_ifs
  all_goals (rw [decide_eq_true (by omega), Bool.true_and]; congr 1; omega)

@[simp] theorem half_extract (v : Half) : half (v.extractLsb' 8 8) (v.extractLsb' 0 8) = v := by
  refine BitVec.eq_of_getLsbD_eq fun i hi => ?_
  simp only [half, BitVec.getLsbD_append, BitVec.getLsbD_extractLsb']
  split_ifs
  all_goals (rw [decide_eq_true (by omega), Bool.true_and]; congr 1; omega)

theorem wordBytes_word (b1 b2 b3 b4 : Byte) : wordBytes (word b1 b2 b3 b4) = [b1, b2, b3, b4] := by
  simp only [wordBytes, word, List.cons.injEq, and_true]
  refine ⟨?_, ?_, ?_, ?_⟩
  all_goals
    refine BitVec.eq_of_getLsbD_eq fun i hi => ?_
    simp only [BitVec.getLsbD_append, BitVec.getLsbD_extractLsb']
    rw [decide_eq_true hi, Bool.true_and]
    split_ifs
    all_goals first | omega | (congr 1; omega)

theorem halfBytes_half (b1 b2 : Byte) : halfBytes (half b1 b2) = [b1, b2] := by
  simp only [halfBytes, half, List.cons.injEq, and_true]
  refine ⟨?_, ?_⟩
  all_goals
    refine BitVec.eq_of_getLsbD_eq fun i hi => ?_
    simp only [BitVec.getLsbD_append, BitVec.getLsbD_extractLsb']
    rw [decide_eq_true hi, Bool.true_and]
    split_ifs
    all_goals first | omega | (congr 1; omega)

@[simp] theorem wordBytes_length (v : Word) : (wordBytes v).length = 4 := rfl

@[simp] theorem halfBytes_length (v : Half) : (halfBytes v).length = 2 := rfl

/-- The header byte of a DATA frame carries `wcm1` and the tag (R92). -/
theorem dataHeader_fields (w : BitVec 5) :
    (dataHeader w).extractLsb' 0 5 = w ∧ dataHeader w &&& 0xE0#8 = 0xE0#8 := by
  revert w; decide

/-- A byte under the DATA tag is the header of its low five bits (R93). -/
theorem dataHeader_of_tag (b : Byte) (h : b &&& 0xE0#8 = 0xE0#8) : dataHeader (b.extractLsb' 0 5) = b := by
  revert h; revert b; decide

/-! ## Readers -/

theorem readWord_wordBytes (mk : Word → Instr) (v : Word) (rest : List Byte) :
    readWord mk (wordBytes v ++ rest) = .instr (mk v) rest := by
  simp [readWord, wordBytes]

theorem readBytes_append (n : Nat) (mk : List Byte → Instr) (data rest : List Byte) (h : data.length = n) :
    readBytes n mk (data ++ rest) = .instr (mk data) rest := by
  subst h; simp [readBytes]

theorem readBlock_append (mk : Word → List Byte → Instr) (n : Word) (data rest : List Byte)
    (h : data.length = n.toNat) :
    readBlock mk (wordBytes n ++ data ++ rest) = .instr (mk n data) rest := by
  simp [readBlock, wordBytes, readBytes_append _ _ _ _ h]

theorem readAddressed_append (mk : Half → Word → List Byte → Instr) (a : Half) (n : Word) (data rest : List Byte)
    (h : data.length = n.toNat) :
    readAddressed mk (halfBytes a ++ wordBytes n ++ data ++ rest) = .instr (mk a n data) rest := by
  simp [readAddressed, wordBytes, halfBytes, readBytes_append _ _ _ _ h]

theorem readData_append (w : BitVec 5) (a : Half) (payload rest : List Byte)
    (h : payload.length = 4 * (w.toNat + 1)) :
    readData w (halfBytes a ++ payload.map rev8 ++ rest) = .instr (.wireData w a payload) rest := by
  simp [readData, halfBytes, ← h]

/-- The readers answer nothing but an instruction or truncation. -/
theorem readBytes_cases (n : Nat) (mk : List Byte → Instr) (bs : List Byte) :
    (bs.length < n ∧ readBytes n mk bs = .truncated) ∨
      (n ≤ bs.length ∧ readBytes n mk bs = .instr (mk (bs.take n)) (bs.drop n)) := by
  unfold readBytes
  split
  · exact .inl ⟨‹_›, rfl⟩
  · exact .inr ⟨by omega, rfl⟩

end Sys2Proof
end

