-- ==== Sys2Proof/Laws/PerInstr.lean ====
section
/-! SUPPORT. One lemma per row of the opcode table: the encoding of a well-formed row has the row's length and begins with a
byte the row's mask and match select. -/

namespace Sys2Proof.Laws.Encoding

/-- The mask and match of a row's first byte, as the opcode table gives them (R93, R100, R106). -/
def rowMatch : Instr → Byte × Byte
  | .wireNop => (0xFF, 0x00)
  | .wireBreak => (0xFF, 0x04)
  | .wireFasync => (0xFF, 0x05)
  | .wireFsync => (0xFF, 0x06)
  | .wireData _ _ _ => (0xE0, 0xE0)
  | .init => (0xFF, 0x10)
  | .pinInp _ => (0xFF, 0x11)
  | .pinOut _ => (0xFF, 0x12)
  | .pinAlt _ _ => (0xFF, 0x13)
  | .pinSet _ => (0xFF, 0x14)
  | .pinClr _ => (0xFF, 0x15)
  | .resetSeq => (0xFF, 0x20)
  | .transfer _ => (0xFF, 0x30)
  | .clear => (0xFF, 0x40)
  | .append _ _ => (0xFF, 0x41)
  | .appendRev _ _ => (0xFF, 0x42)
  | .emitBreak => (0xFF, 0x43)
  | .emitFsync => (0xFF, 0x44)
  | .emitFasync _ => (0xFF, 0x45)
  | .emitNop _ => (0xFF, 0x46)
  | .emitData _ _ _ => (0xFF, 0x47)

/-- A well-formed row's encoding has its length, and its first byte is selected by its mask and match (R96, R99, R106). -/
def Statement (i : Instr) : Prop :=
  i.wf = true → (encode i).length = i.byteLength ∧
    ∃ b bs, encode i = b :: bs ∧ b &&& (rowMatch i).1 = (rowMatch i).2

theorem wireNop : Statement .wireNop := fun _ => ⟨rfl, _, _, rfl, by simp [rowMatch]⟩

theorem wireBreak : Statement .wireBreak := fun _ => ⟨rfl, _, _, rfl, by simp [rowMatch]⟩

theorem wireFasync : Statement .wireFasync := fun _ => ⟨rfl, _, _, rfl, by simp [rowMatch]⟩

theorem wireFsync : Statement .wireFsync := fun _ => ⟨rfl, _, _, rfl, by simp [rowMatch]⟩

theorem wireData (wcm1 : BitVec 5) (addr : Half) (payload : List Byte) : Statement (.wireData wcm1 addr payload) := by
  intro h
  refine ⟨?_, _, _, rfl, (dataHeader_fields wcm1).2⟩
  simp only [Instr.wf, beq_iff_eq] at h
  simp only [encode, Instr.byteLength, List.length_cons, List.length_append, halfBytes_length, List.length_map, h]
  omega

theorem init : Statement .init := fun _ => ⟨rfl, _, _, rfl, by simp [rowMatch]⟩

theorem pinInp (pin : Byte) : Statement (.pinInp pin) := fun _ => ⟨rfl, _, _, rfl, by simp [rowMatch]⟩

theorem pinOut (pin : Byte) : Statement (.pinOut pin) := fun _ => ⟨rfl, _, _, rfl, by simp [rowMatch]⟩

theorem pinAlt (pin alt : Byte) : Statement (.pinAlt pin alt) := fun _ => ⟨rfl, _, _, rfl, by simp [rowMatch]⟩

theorem pinSet (mask : Word) : Statement (.pinSet mask) := fun _ => ⟨rfl, _, _, rfl, by simp [rowMatch]⟩

theorem pinClr (mask : Word) : Statement (.pinClr mask) := fun _ => ⟨rfl, _, _, rfl, by simp [rowMatch]⟩

theorem resetSeq : Statement .resetSeq := fun _ => ⟨rfl, _, _, rfl, by simp [rowMatch]⟩

theorem transfer (len : Word) : Statement (.transfer len) := fun _ => ⟨rfl, _, _, rfl, by simp [rowMatch]⟩

theorem clear : Statement .clear := fun _ => ⟨rfl, _, _, rfl, by simp [rowMatch]⟩

theorem append (n : Word) (data : List Byte) : Statement (.append n data) := by
  intro h
  refine ⟨?_, _, _, rfl, by simp [rowMatch]⟩
  simp only [Instr.wf, beq_iff_eq] at h
  simp only [encode, Instr.byteLength, List.length_cons, List.length_append, wordBytes_length, h]
  omega

theorem appendRev (n : Word) (data : List Byte) : Statement (.appendRev n data) := by
  intro h
  refine ⟨?_, _, _, rfl, by simp [rowMatch]⟩
  simp only [Instr.wf, beq_iff_eq] at h
  simp only [encode, Instr.byteLength, List.length_cons, List.length_append, wordBytes_length, h]
  omega

theorem emitBreak : Statement .emitBreak := fun _ => ⟨rfl, _, _, rfl, by simp [rowMatch]⟩

theorem emitFsync : Statement .emitFsync := fun _ => ⟨rfl, _, _, rfl, by simp [rowMatch]⟩

theorem emitFasync (n : Word) : Statement (.emitFasync n) := fun _ => ⟨rfl, _, _, rfl, by simp [rowMatch]⟩

theorem emitNop (n : Word) : Statement (.emitNop n) := fun _ => ⟨rfl, _, _, rfl, by simp [rowMatch]⟩

theorem emitData (addr : Half) (len : Word) (payload : List Byte) : Statement (.emitData addr len payload) := by
  intro h
  refine ⟨?_, _, _, rfl, by simp [rowMatch]⟩
  simp only [Instr.wf, beq_iff_eq] at h
  simp only [encode, Instr.byteLength, List.length_cons, List.length_append, halfBytes_length, wordBytes_length, h]
  omega

end Sys2Proof.Laws.Encoding
end

