-- ==== Sys2Proof/Laws/Stream.lean ====
section
/-! SUPPORT. What reading one command of the host's stream can yield, said once. -/

namespace Sys2Proof

open Machine

theorem readWord_cases (mk : Word → Instr) (l : List Byte) :
    readWord mk l = .truncated ∨ ∃ v r, readWord mk l = .instr (mk v) r ∧ wordBytes v ++ r = l := by
  unfold readWord; split
  · exact .inr ⟨_, _, rfl, by rw [wordBytes_word]; rfl⟩
  · exact .inl rfl

theorem readPin_cases (mk : Byte → Instr) (l : List Byte) :
    readPin mk l = .truncated ∨ ∃ v r, readPin mk l = .instr (mk v) r ∧ v :: r = l := by
  unfold readPin; split
  · exact .inr ⟨_, _, rfl, rfl⟩
  · exact .inl rfl

theorem readPinAlt_cases (mk : Byte → Byte → Instr) (l : List Byte) :
    readPinAlt mk l = .truncated ∨ ∃ v w r, readPinAlt mk l = .instr (mk v w) r ∧ v :: w :: r = l := by
  unfold readPinAlt; split
  · exact .inr ⟨_, _, _, rfl, rfl⟩
  · exact .inl rfl

theorem readBlock_cases (mk : Word → List Byte → Instr) (l : List Byte) :
    readBlock mk l = .truncated ∨
      ∃ v d r, readBlock mk l = .instr (mk v d) r ∧ d.length = v.toNat ∧ wordBytes v ++ d ++ r = l := by
  unfold readBlock; split
  · rename_i b1 b2 b3 b4 rest
    rcases readBytes_cases (word b1 b2 b3 b4).toNat (mk (word b1 b2 b3 b4)) rest with ⟨_, h⟩ | ⟨h1, h2⟩
    · exact .inl h
    · refine .inr ⟨_, _, _, h2, by simpa using h1, ?_⟩
      rw [wordBytes_word, List.append_assoc, List.take_append_drop]; rfl
  · exact .inl rfl

theorem readAddressed_cases (mk : Half → Word → List Byte → Instr) (l : List Byte) :
    readAddressed mk l = .truncated ∨
      ∃ a v d r, readAddressed mk l = .instr (mk a v d) r ∧ d.length = v.toNat ∧
        halfBytes a ++ wordBytes v ++ d ++ r = l := by
  unfold readAddressed; split
  · rename_i a1 a2 b1 b2 b3 b4 rest
    rcases readBytes_cases (word b1 b2 b3 b4).toNat (mk (half a1 a2) (word b1 b2 b3 b4)) rest with
      ⟨_, h⟩ | ⟨h1, h2⟩
    · exact .inl h
    · refine .inr ⟨_, _, _, _, h2, by simpa using h1, ?_⟩
      rw [wordBytes_word, halfBytes_half, List.append_assoc, List.take_append_drop]; rfl
  · exact .inl rfl

/-- Reading one command: an opcode byte that R100 does not list, a command the bytes end inside of, or a well-formed
command whose encoding the bytes begin with. -/
theorem decodeCommand_cases (op : Byte) (l : List Byte) :
    (op ∉ opcodes ∧ decodeCommand op l = .illegal op) ∨
    (op ∈ opcodes ∧ decodeCommand op l = .truncated) ∨
    (op ∈ opcodes ∧ ∃ i rest, decodeCommand op l = .instr i rest ∧ i.isCommand = true ∧ i.wf = true ∧
      encode i ++ rest = op :: l) := by
  by_cases hop : op ∈ opcodes
  · have h := hop
    simp only [opcodes, List.mem_cons, List.not_mem_nil, or_false] at h
    refine .inr ?_
    have pin : ∀ mk : Byte → Instr, decodeCommand op l = readPin mk l → (∀ v, (mk v).isCommand = true) →
        (∀ v, (mk v).wf = true) → (∀ v, encode (mk v) = [op, v]) →
        (op ∈ opcodes ∧ decodeCommand op l = .truncated) ∨
        (op ∈ opcodes ∧ ∃ i rest, decodeCommand op l = .instr i rest ∧ i.isCommand = true ∧ i.wf = true ∧
          encode i ++ rest = op :: l) := by
      intro mk e a b c
      rcases readPin_cases mk l with h | ⟨v, r, h, hl⟩
      · exact .inl ⟨hop, e.trans h⟩
      · exact .inr ⟨hop, _, _, e.trans h, a v, b v, by rw [c, ← hl]; rfl⟩
    have wrd : ∀ mk : Word → Instr, decodeCommand op l = readWord mk l → (∀ v, (mk v).isCommand = true) →
        (∀ v, (mk v).wf = true) → (∀ v, encode (mk v) = op :: wordBytes v) →
        (op ∈ opcodes ∧ decodeCommand op l = .truncated) ∨
        (op ∈ opcodes ∧ ∃ i rest, decodeCommand op l = .instr i rest ∧ i.isCommand = true ∧ i.wf = true ∧
          encode i ++ rest = op :: l) := by
      intro mk e a b c
      rcases readWord_cases mk l with h | ⟨v, r, h, hl⟩
      · exact .inl ⟨hop, e.trans h⟩
      · exact .inr ⟨hop, _, _, e.trans h, a v, b v, by rw [c, ← hl]; rfl⟩
    have blk : ∀ mk : Word → List Byte → Instr, decodeCommand op l = readBlock mk l →
        (∀ v d, (mk v d).isCommand = true) → (∀ v d, (mk v d).wf = (d.length == v.toNat)) →
        (∀ v d, encode (mk v d) = op :: (wordBytes v ++ d)) →
        (op ∈ opcodes ∧ decodeCommand op l = .truncated) ∨
        (op ∈ opcodes ∧ ∃ i rest, decodeCommand op l = .instr i rest ∧ i.isCommand = true ∧ i.wf = true ∧
          encode i ++ rest = op :: l) := by
      intro mk e a b c
      rcases readBlock_cases mk l with h | ⟨v, d, r, h, hd, hl⟩
      · exact .inl ⟨hop, e.trans h⟩
      · exact .inr ⟨hop, _, _, e.trans h, a v d, by simp [b, hd], by rw [c, ← hl]; rfl⟩
    rcases h with rfl | rfl | rfl | rfl | rfl | rfl | rfl | rfl | rfl | rfl | rfl | rfl | rfl | rfl | rfl | rfl
    · exact .inr ⟨hop, _, _, rfl, rfl, rfl, rfl⟩
    · exact pin .pinInp rfl (fun _ => rfl) (fun _ => rfl) (fun _ => rfl)
    · exact pin .pinOut rfl (fun _ => rfl) (fun _ => rfl) (fun _ => rfl)
    · rcases readPinAlt_cases .pinAlt l with h | ⟨v, w, r, h, hl⟩
      · exact .inl ⟨hop, h⟩
      · exact .inr ⟨hop, _, _, h, rfl, rfl, by rw [← hl]; rfl⟩
    · exact wrd .pinSet rfl (fun _ => rfl) (fun _ => rfl) (fun _ => rfl)
    · exact wrd .pinClr rfl (fun _ => rfl) (fun _ => rfl) (fun _ => rfl)
    · exact .inr ⟨hop, _, _, rfl, rfl, rfl, rfl⟩
    · exact wrd .transfer rfl (fun _ => rfl) (fun _ => rfl) (fun _ => rfl)
    · exact .inr ⟨hop, _, _, rfl, rfl, rfl, rfl⟩
    · exact blk .append rfl (fun _ _ => rfl) (fun _ _ => rfl) (fun _ _ => rfl)
    · exact blk .appendRev rfl (fun _ _ => rfl) (fun _ _ => rfl) (fun _ _ => rfl)
    · exact .inr ⟨hop, _, _, rfl, rfl, rfl, rfl⟩
    · exact .inr ⟨hop, _, _, rfl, rfl, rfl, rfl⟩
    · exact wrd .emitFasync rfl (fun _ => rfl) (fun _ => rfl) (fun _ => rfl)
    · exact wrd .emitNop rfl (fun _ => rfl) (fun _ => rfl) (fun _ => rfl)
    · rcases readAddressed_cases .emitData l with h | ⟨a, v, d, r, h, hd, hl⟩
      · exact .inl ⟨hop, h⟩
      · exact .inr ⟨hop, _, _, h, rfl, by simp [Instr.wf, hd], by rw [← hl]; rfl⟩
  · refine .inl ⟨hop, ?_⟩
    simp only [opcodes, List.mem_cons, List.not_mem_nil, or_false, not_or] at hop
    obtain ⟨h1, h2, h3, h4, h5, h6, h7, h8, h9, h10, h11, h12, h13, h14, h15, h16⟩ := hop
    exact (if_neg h1).trans ((if_neg h2).trans ((if_neg h3).trans ((if_neg h4).trans ((if_neg h5).trans ((if_neg h6).trans
      ((if_neg h7).trans ((if_neg h8).trans ((if_neg h9).trans ((if_neg h10).trans ((if_neg h11).trans ((if_neg h12).trans
      ((if_neg h13).trans ((if_neg h14).trans ((if_neg h15).trans (if_neg h16)))))))))))))))

end Sys2Proof
end

