-- ==== Sys2Proof/Machine/Text.lean ====
section
/-! DEFINITION. The written form of commands (spec/30_encoding.md R104): a mnemonic and its operands, one command a line.
There are no pseudo-instructions (R105), and no step reads text. -/

namespace Sys2Proof.Machine

/-- The mnemonic of a host command (R100, R104); a wire frame is no command and has none. -/
def mnemonicOf : Instr → Option String
  | .wireNop | .wireBreak | .wireFasync | .wireFsync | .wireData _ _ _ => none
  | .init => some "INIT"
  | .pinInp _ => some "PIN_INP"
  | .pinOut _ => some "PIN_OUT"
  | .pinAlt _ _ => some "PIN_ALT"
  | .pinSet _ => some "PIN_SET"
  | .pinClr _ => some "PIN_CLR"
  | .resetSeq => some "RESET_SEQ"
  | .transfer _ => some "TRANSFER"
  | .clear => some "CLEAR"
  | .append _ _ => some "APPEND"
  | .appendRev _ _ => some "APPEND_REV"
  | .emitBreak => some "EMIT_BREAK"
  | .emitFsync => some "EMIT_FSYNC"
  | .emitFasync _ => some "EMIT_FASYNC"
  | .emitNop _ => some "EMIT_NOP"
  | .emitData _ _ _ => some "EMIT_DATA"

/-- An operand as written: a number, or a byte string. -/
inductive TextOperand where
  | num (n : Nat)
  | bytes (bs : List Byte)
  deriving DecidableEq, Repr

/-- The operands of a command, in the order they are written (R101, R104). -/
def operandsOf : Instr → List TextOperand
  | .pinInp pin | .pinOut pin => [.num pin.toNat]
  | .pinAlt pin alt => [.num pin.toNat, .num alt.toNat]
  | .pinSet m | .pinClr m => [.num m.toNat]
  | .transfer n | .emitFasync n | .emitNop n => [.num n.toNat]
  | .append n d | .appendRev n d => [.num n.toNat, .bytes d]
  | .emitData a n p => [.num a.toNat, .num n.toNat, .bytes p]
  | _ => []

/-! ## Writing -/

/-- One hexadecimal digit. -/
def hexDigit (v : BitVec 4) : Char :=
  (['0', '1', '2', '3', '4', '5', '6', '7', '8', '9', 'A', 'B', 'C', 'D', 'E', 'F'][v.toNat]?).getD '0'

/-- A byte as a hexadecimal pair. -/
def hexPair (b : Byte) : List Char := [hexDigit (b.extractLsb' 4 4), hexDigit (b.extractLsb' 0 4)]

/-- Byte pairs with one blank between them. -/
def hexPairs : List Byte → List Char
  | [] => []
  | [b] => hexPair b
  | b :: bs => hexPair b ++ ' ' :: hexPairs bs

/-- A number in hexadecimal, a byte string in square brackets. -/
def TextOperand.chars : TextOperand → List Char
  | .num n => '0' :: 'x' :: (wordBytes (BitVec.ofNat 32 n)).flatMap hexPair
  | .bytes bs => '[' :: (hexPairs bs ++ [']'])

/-- Operands separated by commas. -/
def joinOperands : List TextOperand → List Char
  | [] => []
  | [o] => o.chars
  | o :: os => o.chars ++ ',' :: ' ' :: joinOperands os

/-- A command as one line of text, every operand written (R104). -/
def lineOf (i : Instr) : Option String :=
  (mnemonicOf i).map fun m =>
    match operandsOf i with
    | [] => m
    | os => m ++ " " ++ String.ofList (joinOperands os)

/-! ## Reading -/

/-- A blank. -/
def isBlank (c : Char) : Bool := c == ' ' || c == '\t'

/-- The text without blanks at its ends. -/
def trimBlanks (cs : List Char) : List Char := ((cs.dropWhile isBlank).reverse.dropWhile isBlank).reverse

/-- The line up to the first `;`, which starts a comment. -/
def withoutComment (cs : List Char) : List Char := cs.takeWhile (· != ';')

/-- The text cut at every occurrence of a character. -/
def splitAtChar (sep : Char) : List Char → List (List Char)
  | [] => [[]]
  | c :: cs =>
    if c = sep then [] :: splitAtChar sep cs
    else
      match splitAtChar sep cs with
      | [] => [[c]]
      | p :: ps => (c :: p) :: ps

/-- The value of a hexadecimal digit. -/
def digitOf (c : Char) : Option Nat :=
  if '0' ≤ c ∧ c ≤ '9' then some (c.toNat - 48)
  else if 'A' ≤ c ∧ c ≤ 'F' then some (c.toNat - 55)
  else if 'a' ≤ c ∧ c ≤ 'f' then some (c.toNat - 87)
  else none

/-- The value of a string of digits after the value so far. -/
def readDigits (base : Nat) : Nat → List Char → Option Nat
  | acc, [] => some acc
  | acc, c :: cs =>
    match digitOf c with
    | some d => if d < base then readDigits base (acc * base + d) cs else none
    | none => none

/-- A number, decimal or `0x` hexadecimal (R104). -/
def readNumber : List Char → Option Nat
  | '0' :: 'x' :: c :: cs => readDigits 16 0 (c :: cs)
  | c :: cs => readDigits 10 0 (c :: cs)
  | [] => none

/-- Byte pairs up to the closing bracket, which ends the text (R104). -/
def readPairs : List Char → Option (List Byte)
  | [] => none
  | [c] => if c = ']' then some [] else none
  | c :: d :: cs =>
    if isBlank c then readPairs (d :: cs)
    else
      match digitOf c, digitOf d, readPairs cs with
      | some h, some l, some bs => some (BitVec.ofNat 8 (16 * h + l) :: bs)
      | _, _, _ => none

/-- One operand. -/
def readOperand : List Char → Option TextOperand
  | '[' :: cs => (readPairs cs).map .bytes
  | cs => (readNumber cs).map .num

/-- Every operand of a list. -/
def readOperands : List (List Char) → Option (List TextOperand)
  | [] => some []
  | cs :: rest =>
    match readOperand (trimBlanks cs), readOperands rest with
    | some o, some os => some (o :: os)
    | _, _ => none

/-- A number as an operand of `w` bits; none where it does not fit. -/
def sized (w n : Nat) : Option (BitVec w) := if n < 2 ^ w then some (BitVec.ofNat w n) else none

/-- The command a mnemonic and its operands name; the count of a byte string may be left out (R104). -/
def commandOf (m : String) (os : List TextOperand) : Option Instr :=
  match os with
  | [] =>
    if m = "INIT" then some .init
    else if m = "RESET_SEQ" then some .resetSeq
    else if m = "CLEAR" then some .clear
    else if m = "EMIT_BREAK" then some .emitBreak
    else if m = "EMIT_FSYNC" then some .emitFsync
    else none
  | [.num n] =>
    if m = "PIN_INP" then (sized 8 n).map .pinInp
    else if m = "PIN_OUT" then (sized 8 n).map .pinOut
    else if m = "PIN_SET" then (sized 32 n).map .pinSet
    else if m = "PIN_CLR" then (sized 32 n).map .pinClr
    else if m = "TRANSFER" then (sized 32 n).map .transfer
    else if m = "EMIT_FASYNC" then (sized 32 n).map .emitFasync
    else if m = "EMIT_NOP" then (sized 32 n).map .emitNop
    else none
  | [.num p, .num a] =>
    if m = "PIN_ALT" then (sized 8 p).bind fun pin => (sized 8 a).map (.pinAlt pin) else none
  | [.bytes d] =>
    if m = "APPEND" then (sized 32 d.length).map (.append · d)
    else if m = "APPEND_REV" then (sized 32 d.length).map (.appendRev · d)
    else none
  | [.num n, .bytes d] =>
    if m = "APPEND" then (sized 32 n).map (.append · d)
    else if m = "APPEND_REV" then (sized 32 n).map (.appendRev · d)
    else if m = "EMIT_DATA" then
      (sized 16 n).bind fun a => (sized 32 d.length).map fun len => .emitData a len d
    else none
  | [.num a, .num n, .bytes d] =>
    if m = "EMIT_DATA" then (sized 16 a).bind fun addr => (sized 32 n).map fun len => .emitData addr len d else none
  | _ => none

/-- One line: nothing where it is blank or a comment, else the well-formed command it holds; none where it holds neither
(R104). -/
def readLine (cs : List Char) : Option (List Instr) :=
  let t := trimBlanks (withoutComment cs)
  match t with
  | [] => some []
  | _ =>
    let m := String.ofList (t.takeWhile fun c => !isBlank c)
    let r := trimBlanks (t.dropWhile fun c => !isBlank c)
    match (match r with | [] => some [] | _ => readOperands (splitAtChar ',' r)) with
    | none => none
    | some os =>
      match commandOf m os with
      | some i => if i.wf then some [i] else none
      | none => none

/-- Lines, in order. -/
def readLines : List (List Char) → Option (List Instr)
  | [] => some []
  | l :: ls =>
    match readLine l, readLines ls with
    | some is, some js => some (is ++ js)
    | _, _ => none

/-- The commands of a text, one a line (R104). -/
def assemble (text : String) : Option (List Instr) := readLines (splitAtChar '\n' text.toList)

/-- The stream a text stands for (R98). -/
def assembleStream (text : String) : Option (List Byte) := (assemble text).map fun is => (is.map encode).flatten

end Sys2Proof.Machine
end

