-- ==== Sys2Proof/Tests/Slice0.lean ====
section
/-! SUPPORT. Tests: single steps against the vectors of spec/95_test_vectors.md, words written out from the encodings, terms
that WellFormed refuses, and for every statement with hypotheses a state and operands that meet them. -/

namespace Sys2Proof.Tests

open Machine

/-! ## States the tests start from -/

/-- The defaults of R7 with a capacity of 16 bytes. -/
def tiny : Config := { defaultConfig with capacity := 16 }

/-- The state after reset with the window mapped, the role pins as one reset sequence leaves them (the start of V20), and an
environment that answers well. -/
def ready : State :=
  { State.reset with
    cfg := tiny
    mapped := true
    fsel := #v[0x20000000, 0x24, 0, 0, 0, 0]
    latch := 0x800
    env := { Env.silent with openOk := [true], cfgOk := [true, true, true, true], seg := [.ok], rx := [0xA5] } }

/-- The same with other function registers and latches. -/
def pins (fsel : Vector Word 6) (latch : Word) : State := { ready with fsel := fsel, latch := latch }

/-- The same with a message length. -/
def filled (n : Nat) : State := { ready with txlen := n }

/-- The same with a command stream. -/
def given (bs : List Byte) : State := { ready with stream := bs }

/-- The next state, if there is one. -/
def after (o : Host.Outcome State Fault Refusal) : Option State :=
  match o with
  | .next t => some t
  | _ => none

/-! ## Well-formedness -/

theorem test_wf_refuses_wireData : Instr.wf (.wireData 0 0 [1, 2, 3]) = false := by decide

theorem test_wf_refuses_append : Instr.wf (.append 2 [1]) = false := by decide

theorem test_wf_refuses_appendRev : Instr.wf (.appendRev 0 [1]) = false := by decide

theorem test_wf_refuses_emitData : Instr.wf (.emitData 0 4 [1, 2, 3]) = false := by decide

/-- A data frame of an invalid length is well formed: the command itself rejects it (R101, V41). -/
theorem test_wf_takes_invalid_length : Instr.wf (.emitData 0 3 [1, 2, 3]) = true := by decide

/-! ## Decoding: words written out from R91, R92, R99, R100 (V48, V51) -/

theorem test_decode_init : decode [0x10] = .instr .init [] := by decide

theorem test_decode_pinInp : decode [0x11, 0x0A] = .instr (.pinInp 10) [] := by decide

theorem test_decode_pinOut : decode [0x12, 0x0B] = .instr (.pinOut 11) [] := by decide

theorem test_decode_pinAlt : decode [0x13, 0x09, 0x05] = .instr (.pinAlt 9 5) [] := by decide

theorem test_decode_pinSet : decode [0x14, 0x80, 0x00, 0x08, 0x01] = .instr (.pinSet 0x80000801) [] := by decide

theorem test_decode_pinClr : decode [0x15, 0x00, 0x00, 0x04, 0x00] = .instr (.pinClr 0x400) [] := by decide

theorem test_decode_resetSeq : decode [0x20] = .instr .resetSeq [] := by decide

theorem test_decode_transfer : decode [0x30, 0x00, 0x00, 0x10, 0x01] = .instr (.transfer 4097) [] := by decide

theorem test_decode_clear : decode [0x40, 0x43] = .instr .clear [0x43] := by decide

theorem test_decode_append :
    decode [0x41, 0x00, 0x00, 0x00, 0x02, 0xDE, 0xAD, 0x40] = .instr (.append 2 [0xDE, 0xAD]) [0x40] := by decide

theorem test_decode_appendRev :
    decode [0x42, 0x00, 0x00, 0x00, 0x04, 0x12, 0x34, 0x56, 0x78] =
      .instr (.appendRev 4 [0x12, 0x34, 0x56, 0x78]) [] := by decide

theorem test_decode_emitBreak : decode [0x43] = .instr .emitBreak [] := by decide

theorem test_decode_emitFsync : decode [0x44] = .instr .emitFsync [] := by decide

theorem test_decode_emitFasync : decode [0x45, 0x00, 0x00, 0x00, 0x03] = .instr (.emitFasync 3) [] := by decide

theorem test_decode_emitNop : decode [0x46, 0xFF, 0xFF, 0xFF, 0xFF] = .instr (.emitNop 0xFFFFFFFF) [] := by decide

theorem test_decode_emitData :
    decode [0x47, 0x12, 0x34, 0x00, 0x00, 0x00, 0x04, 0xDE, 0xAD, 0xBE, 0xEF] =
      .instr (.emitData 0x1234 4 [0xDE, 0xAD, 0xBE, 0xEF]) [] := by decide

/-- V51: BREAK, FASYNC, FASYNC, DATA of one word, FSYNC, NOP, NOP. -/
theorem test_decode_frames :
    decodeFrames 8 [0x04, 0x05, 0x05, 0xE0, 0x12, 0x34, 0x7B, 0xB5, 0x7D, 0xF7, 0x06, 0x00, 0x00] =
      ([.wireBreak, .wireFasync, .wireFasync, .wireData 0 0x1234 [0xDE, 0xAD, 0xBE, 0xEF], .wireFsync, .wireNop,
        .wireNop], .endOfStream) := by decide

/-- V49: three commands, then an illegal opcode. -/
theorem test_decode_stream_illegal :
    decodeStream 8 [0x40, 0x43, 0x45, 0x00, 0x00, 0x00, 0x02, 0x99] =
      ([.clear, .emitBreak, .emitFasync 2], .illegal 0x99) := by decide

/-- V50. -/
theorem test_decode_truncated :
    decode [0x45, 0x00, 0x00] = .truncated ∧ decode [0x41, 0x00, 0x00, 0x00, 0x03, 0xAA, 0xBB] = .truncated := by decide

/-- V52: a rejected data frame's payload is read from the stream. -/
theorem test_decode_rejected_payload :
    decodeStream 4 [0x47, 0x00, 0x00, 0x00, 0x00, 0x00, 0x05, 0x01, 0x02, 0x03, 0x04, 0x05, 0x43] =
      ([.emitData 0 5 [0x01, 0x02, 0x03, 0x04, 0x05], .emitBreak], .endOfStream) := by decide

/-- R95: bytes of neither space. -/
theorem test_decode_unassigned : decode [0x01] = .illegal 0x01 ∧ decode [0xDF] = .illegal 0xDF := by decide

/-- The opcode table's numbering: byte 1 is bits 15 to 8. -/
theorem test_tableWord_pinAlt : decodeTableWord 24 0x050913 = some (.pinAlt 9 5) := by decide

set_option maxRecDepth 4000 in
/-- The fetch of a row stored by `withFetchWord`, as the first command after reset. -/
theorem test_withFetchWord :
    ((after (step (State.reset.withFetchWord 8 0x43))).map fun t => (t.txlen, t.pc)) = some (1, 1) := by decide

/-! ## Single steps -/

/-- V12. -/
theorem test_init_succeeds :
    ((after (exec .init { State.reset with env := { Env.silent with mapOk := [true] } })).map fun t =>
      (t.mapped, t.result, t.cause, t.trace, t.pc)) = some (true, 1, 0, [.map true], 1) := by decide

/-- V13: a failed `INIT` clears `MAPPED` again. -/
theorem test_init_fails :
    ((after (exec .init { ready with env := { Env.silent with mapOk := [false] } })).map fun t =>
      (t.mapped, t.result, t.cause, t.trace)) = some (false, 0, 1, [.map false]) := by decide

/-- V14. -/
theorem test_pinInp :
    ((after (exec (.pinInp 10) (pins #v[0, 9, 0, 0, 0, 0] 0))).map fun t => (t.fsel[1], t.trace, t.latch)) =
      some (8, [.gpioW 1 8], 0) := by decide

/-- V15: the bits [31:30] stay. -/
theorem test_pinOut_keeps_top :
    ((after (exec (.pinOut 0) (pins #v[0xFFFFFFFF, 0, 0, 0, 0, 0] 0))).map fun t => t.fsel[0]) = some 0xFFFFFFF9 := by decide

/-- V15: pin 53 is field 3 of register 5. -/
theorem test_pinOut_last_pin :
    ((after (exec (.pinOut 53) (pins #v[0, 0, 0, 0, 0, 0] 0))).map fun t => t.fsel[5]) = some 0x200 := by decide

/-- V16: the field is replaced, not OR-ed into. -/
theorem test_pinAlt_replaces :
    ((after (exec (.pinAlt 10 5) (pins #v[0, 7, 0, 0, 0, 0] 0))).map fun t => t.fsel[1]) = some 2 := by decide

/-- V19. -/
theorem test_pinAlt_range :
    ((after (exec (.pinAlt 10 6) ready)).map fun t => (t.faulted, t.cause, t.faultRec, t.pc)) =
      some (true, 19, some .illegalOperand, 0) := by decide

/-- V17. -/
theorem test_pinSet :
    ((after (exec (.pinSet 0x400) (pins #v[0, 0, 0, 0, 0, 0] 0x800))).map fun t => (t.latch, t.trace)) =
      some (0xC00, [.gpioW 7 0x400]) := by decide

/-- V17. -/
theorem test_pinClr :
    ((after (exec (.pinClr 0x400) (pins #v[0, 0, 0, 0, 0, 0] 0xC00))).map fun t => (t.latch, t.trace)) =
      some (0x800, [.gpioW 10 0x400]) := by decide

/-- V18: the latch of an input shows as soon as the pin is an output. -/
theorem test_pad_shows_latch :
    (pins #v[0, 0, 0, 0, 0, 0] 0x400).pad 10 = .notDriven ∧
    ((after (exec (.pinOut 10) (pins #v[0, 0, 0, 0, 0, 0] 0x400))).map fun t => t.pad 10) = some (.driven true) := by decide

/-- R126: a latch bit of no pin drives nothing, whatever its field holds. -/
theorem test_pad_of_no_pin :
    ({ pins (Vector.replicate 6 0x09249249) 0xFFFFFFFF with cfg := { defaultConfig with npins := 20 } } : State).pad 19 =
      .driven true ∧
    ({ pins (Vector.replicate 6 0x09249249) 0xFFFFFFFF with cfg := { defaultConfig with npins := 20 } } : State).pad 20 =
      .notDriven := by decide

/-- V21, all ones. -/
theorem test_resetSeq_all_ones :
    ((after (exec .resetSeq (pins (Vector.replicate 6 0xFFFFFFFF) 0xFFFFFFFF))).map fun t =>
      (t.fsel, t.latch, t.trace.length)) =
      some (#v[0xE7FFFFFF, 0xFFFFFFE4, 0xFFFFFFFF, 0xFFFFFFFF, 0xFFFFFFFF, 0xFFFFFFFF], 0xFFFFFBFF, 73) := by decide

/-- V20: the first three and the last six events. -/
theorem test_resetSeq_events :
    ((after (exec .resetSeq ready)).map fun t => (t.trace.take 3, t.trace.drop 67)) =
      some ([.gpioW 1 0x21, .gpioW 1 0x09, .gpioW 7 0x800],
        [.gpioW 1 0x08, .gpioW 1 0x0C, .gpioW 1 0x04, .gpioW 1 0x24, .gpioW 0 0, .gpioW 0 0x20000000]) := by decide

set_option maxRecDepth 4000 in
/-- V25: one byte. -/
theorem test_transfer_one_byte :
    ((after (exec (.transfer 1) { ready with txbuf := [(0, 0x04)], txlen := 1 })).map fun t =>
      (t.trace.length, (t.trace.drop 73).take 9, t.rxbuf, t.result, t.pc)) =
      some (155, [.spiOpen true, .spiCfg 0 true, .spiCfg 1 true, .spiCfg 2 true, .spiCfg 3 true, .spiSeg 0 0 1 true,
        .spiByte 0x04 0xA5, .segDelay, .spiClose], [(0, 0xA5)], 0, 1) := by decide

/-- V28, `C = 16`. -/
theorem test_transfer_too_long :
    ((after (exec (.transfer 17) ready)).map fun t => (t.cause, t.faultRec, t.trace)) =
      some (17, some (.transferTooLong 17), []) := by decide

/-- R190. -/
theorem test_clear : ((after (exec .clear (filled 7))).map fun t => (t.txlen, t.txbuf)) = some (0, []) := by decide

/-- V44. -/
theorem test_append_fits :
    ((after (exec (.append 5 [1, 2, 3, 4, 5]) (filled 10))).map fun t => (t.txlen, t.txbuf)) =
      some (15, [(10, 1), (11, 2), (12, 3), (13, 4), (14, 5)]) := by decide

/-- V43. -/
theorem test_append_dropped :
    ((after (exec (.append 6 [1, 2, 3, 4, 5, 6]) (filled 10))).map fun t => (t.txlen, t.txbuf, t.pos)) =
      some (10, [], 11) := by decide

/-- V36. -/
theorem test_appendRev :
    ((after (exec (.appendRev 4 [0x12, 0x34, 0x56, 0x78]) (filled 2))).map fun t => (t.txlen, t.txbuf)) =
      some (6, [(2, 0x48), (3, 0x2C), (4, 0x6A), (5, 0x1E)]) := by decide

/-- R198. -/
theorem test_emitBreak : ((after (exec .emitBreak (filled 0))).map fun t => (t.txlen, t.txbuf)) = some (1, [(0, 4)]) := by
  decide

/-- R199. -/
theorem test_emitFsync : ((after (exec .emitFsync (filled 1))).map fun t => (t.txlen, t.txbuf)) = some (2, [(1, 6)]) := by
  decide

/-- V45: across the boundary. -/
theorem test_emitFasync_fills :
    ((after (exec (.emitFasync 5) (filled 12))).map fun t => (t.txlen, t.txbuf)) =
      some (15, [(12, 5), (13, 5), (14, 5)]) := by decide

/-- V38. -/
theorem test_emitNop : ((after (exec (.emitNop 2) (filled 5))).map fun t => (t.txlen, t.txbuf)) =
    some (7, [(5, 0), (6, 0)]) := by decide

/-- V39. -/
theorem test_emitData :
    ((after (exec (.emitData 0x1234 4 [0xDE, 0xAD, 0xBE, 0xEF]) (filled 0))).map fun t => (t.txlen, t.txbuf)) =
      some (7, [(0, 0xE0), (1, 0x12), (2, 0x34), (3, 0x7B), (4, 0xB5), (5, 0x7D), (6, 0xF7)]) := by decide

/-- V46: the header without its payload. -/
theorem test_emitData_header_only :
    ((after (exec (.emitData 0x0102 4 [1, 2, 3, 4]) (filled 9))).map fun t => (t.txlen, t.txbuf)) =
      some (12, [(9, 0xE0), (10, 0x01), (11, 0x02)]) := by decide

/-- V49: a marker byte where a command is due. -/
theorem test_wireBreak_is_illegal :
    ((after (step (given [0x04]))).map fun t => (t.cause, t.faultRec, t.pc)) =
      some (18, some (.illegalCommand 0x04), 0) := by decide

/-- R45, R162: a byte nothing has written is the free value, whatever it is. -/
theorem test_unwritten_byte : (filled 7).txByte 3 = Config.unwrittenTx 0 3 := rfl

/-! ## The parameters' constraints and the invariant are met -/

theorem default_valid : defaultConfig.Valid :=
  ⟨by decide, by decide, by decide, by decide, by decide, by decide, by decide, by decide, by decide, by decide,
    fun f g => by cases f <;> cases g <;> decide, by decide, by decide⟩

theorem tiny_valid : tiny.Valid :=
  ⟨by decide, by decide, by decide, by decide, by decide, by decide, by decide, by decide, by decide, by decide,
    fun f g => by cases f <;> cases g <;> decide, by decide, by decide⟩

theorem ready_accepts : ready.Accepts := ⟨rfl, rfl⟩

theorem filled_accepts (n : Nat) : (filled n).Accepts := ⟨rfl, rfl⟩

theorem ready_inv : ready.Inv :=
  ⟨tiny_valid, by decide, by decide, by decide, by decide, by decide, by decide, by decide, by decide, by decide⟩

theorem ready_answers : ready.DeviceAnswers := ⟨rfl, rfl⟩

/-- A hanging state that meets the invariant. -/
theorem hung_inv : ({ ready with hung := true, spiOpen := true, descCnt := 1 } : State).Inv :=
  ⟨tiny_valid, by decide, by decide, by decide, by decide, by decide, by decide, by decide, by decide, by decide⟩

/-! ## Hypotheses that can be met: the encodings -/

theorem witness_EncodedInstructionDecodesToItself :
    Instr.wf (.wireData 31 0xFFFF (List.replicate 128 0)) = true ∧ Instr.wf (.wireData 0 0 [1, 2, 3, 4]) = true ∧
      Instr.wf (.append 0 []) = true ∧ Instr.wf (.emitData 0xFFFF 5 [1, 2, 3, 4, 5]) = true :=
  ⟨by simp [Instr.wf], by decide, by decide, by decide⟩

theorem witness_DecodedInstructionReencodesToItsBytes : decode [0x13, 0x35, 0x05, 0x10] = .instr (.pinAlt 53 5) [0x10] := by
  decide

theorem witness_FirstByteFixesTheFrame :
    (0xE0 ≤ (0xE0 : Byte).toNat ∧ 0xE0 ≤ (0xFF : Byte).toNat) ∧
    (1 ≤ (0x01 : Byte).toNat ∧ (0x03 : Byte).toNat ≤ 3 ∧ 7 ≤ (0x07 : Byte).toNat ∧ (0xDF : Byte).toNat ≤ 0xDF) ∧
    frameLength 0x06 = some 1 ∧ frameLength 0xE0 = some 7 ∧ frameLength 0xFF = some 131 ∧
    7 ≤ (List.replicate 6 (0 : Byte)).length + 1 := by decide

theorem witness_DataFrameLayout :
    (List.replicate 4 (0 : Byte)).length = 4 * ((0 : BitVec 5).toNat + 1) ∧
      (List.replicate 128 (0 : Byte)).length = 4 * ((31 : BitVec 5).toNat + 1) :=
  ⟨by decide, by rw [List.length_replicate]; decide⟩

theorem witness_Rev8ReversesTheBits :
    (0x21 : Byte) = (((0x12 : Byte) &&& 0xF0) >>> 4 ||| ((0x12 : Byte) &&& 0x0F) <<< 4) ∧
      (0x84 : Byte) = (((0x21 : Byte) &&& 0xCC) >>> 2 ||| ((0x21 : Byte) &&& 0x33) <<< 2) := by decide

theorem witness_PayloadIsSentLeastBitFirst :
    defaultConfig.shiftMsbFirst = true ∧ ({ defaultConfig with shiftMsbFirst := false } : Config).shiftMsbFirst = false ∧
      lineBits defaultConfig 0x01 = [false, false, false, false, false, false, false, true] := by decide

/-! ## Hypotheses that can be met: the step -/

theorem given_running (bs : List Byte) : (given bs).Running := ⟨rfl, ⟨rfl, rfl⟩, rfl⟩

theorem witness_StepRunsTheDecodedInstruction :
    (given [0x43]).Running ∧ decode ((given [0x43]).stream.drop (given [0x43]).pos) = .instr .emitBreak [] :=
  ⟨given_running _, by decide⟩

theorem witness_BadStreamsAreRaised_illegal :
    (given [0x99]).Running ∧ (given [0x99]).stream.drop (given [0x99]).pos = [0x99] ∧ (0x99 : Byte) ∉ opcodes ∧
      (0xFF : Byte) ∉ opcodes ∧ (0x00 : Byte) ∉ opcodes :=
  ⟨given_running _, by decide, by decide, by decide, by decide⟩

theorem witness_BadStreamsAreRaised_truncated :
    (given [0x13]).Running ∧ (given [0x13]).stream.drop 0 = (encode (.pinAlt 1 2)).take 1 ∧
      (given [0x13, 1]).stream.drop 0 = (encode (.pinAlt 1 2)).take 2 ∧ 2 < (encode (.pinAlt 1 2)).length :=
  ⟨given_running _, by decide, by decide, by decide⟩

theorem witness_BadStreamsAreRaised_end : (given []).Running ∧ (given []).stream.drop (given []).pos = [] :=
  ⟨given_running _, by decide⟩

theorem witness_FaultedAndHungRunsStop :
    (ready.resetReq = false ∧ ready.halted = false) ∧
      (({ ready with hung := true } : State).hung = true ∧ ({ ready with hung := true } : State).halted = false) ∧
      (({ ready with faulted := true } : State).faulted = true ∧ ({ ready with faulted := true } : State).hung = false) := by
  decide

/-- The state of V30. -/
theorem witness_HaltedIsTerminal :
    (∃ t, exec (.transfer 4) { ready with env := { ready.env with openOk := [false] } } = .next t ∧ t.halted = true ∧
      ready.halted = false) ∧ ({ ready with halted := true } : State).resetReq = false ∧
      ({ ready with halted := true, resetReq := true } : State).resetReq = true :=
  ⟨⟨_, rfl, by decide, rfl⟩, rfl, rfl⟩

/-- The environment lists a value for each of the first ten unspecified registers. -/
def drawnRegisters : State :=
  { ready with resetReq := true, env := { ready.env with anyWord := [11, 12, 13, 14, 15, 16, 17, 18, 19, 20] } }

theorem witness_ResetValues :
    (∃ t, step drawnRegisters = .next t) ∧ drawnRegisters.resetReq = true ∧
      drawnRegisters.env.anyWord = (#v[11, 12, 13, 14, 15, 16] : Vector Word 6).toList ++ [17, 18, 19, 20] ++ [] :=
  ⟨⟨_, rfl⟩, rfl, rfl⟩

theorem test_reset_draws_the_pins :
    ((after (step drawnRegisters)).map fun t => (t.fsel, t.latch, t.spiMode, t.spiBits, t.spiSpeed)) =
      some (#v[11, 12, 13, 14, 15, 16], 17, 18, 19, 20) := by decide

theorem witness_ProgramPosition :
    (∃ t, exec .emitBreak ready = .next t ∧ t.pc = 1) ∧ (∃ t, exec (.pinInp 54) ready = .next t ∧ t.faulted = true) ∧
      Instr.wf .emitBreak = true ∧ ({ ready with halted := true } : State).resetReq = false :=
  ⟨⟨_, rfl, rfl⟩, ⟨_, rfl, by decide⟩, rfl, rfl⟩

/-! ## Hypotheses that can be met: the register access layer -/

theorem witness_UnmappedAccessIsRaised :
    ({ ready with mapped := false } : State).Accepts ∧ ({ ready with mapped := false } : State).mapped = false ∧
      needsMapping (.transfer 70000) = true ∧ needsMapping (.pinInp 54) = true ∧ isEncoder .clear = true :=
  ⟨⟨rfl, rfl⟩, rfl, rfl, rfl, rfl⟩

theorem witness_OperandRangesAreChecked :
    ready.Accepts ∧ ready.mapped = true ∧ min 65536 ready.cfg.capacity < (17 : Word).toNat ∧
      min 65536 defaultConfig.capacity < (65537 : Word).toNat ∧ ready.cfg.npins ≤ (54 : Byte).toNat ∧
      5 < (6 : Byte).toNat :=
  ⟨ready_accepts, by decide, by decide, by decide, by decide, by decide⟩

theorem witness_WireFramesAreNoCommands : ready.Accepts := ready_accepts

theorem witness_InitSetsMapped :
    ({ ready with env := { ready.env with mapOk := [false] } } : State).Accepts ∧
      ({ ready with env := { ready.env with mapOk := [false] } } : State).env.mapOk = [false] :=
  ⟨⟨rfl, rfl⟩, rfl⟩

theorem witness_PinFunctionIsWritten :
    ready.Accepts ∧ ready.mapped = true ∧ ready.cfg.npins ≤ 60 ∧ (53 : Byte).toNat < ready.cfg.npins ∧
      (0 : Byte).toNat < ready.cfg.npins :=
  ⟨ready_accepts, by decide, by decide, by decide, by decide⟩

theorem witness_SetAndClearLatchBits : ready.Accepts ∧ ready.mapped = true := ⟨ready_accepts, rfl⟩

theorem witness_PadFollowsTheFunction :
    ready.Accepts ∧ ready.mapped = true ∧ ready.cfg.Valid ∧ (31 : Byte).toNat < ready.cfg.npins ∧
      (32 : Byte).toNat < ready.cfg.npins ∧ ready.cfg.npins ≤ 54 :=
  ⟨ready_accepts, rfl, tiny_valid, by decide, by decide, by decide⟩

theorem witness_HostReadsBetweenCommands :
    ({ ready with hung := true } : State).hung = true ∧ ready.hung = false ∧ ready.cfg.capacity ≤ 16 ∧
      15 < ready.cfg.capacity ∧ ready.hung = false ∧
      Memory.read ({ ready with txbuf := [(2, 9)] } : State).txbuf 2 = some 9 :=
  ⟨rfl, rfl, by decide, by decide, rfl, by decide⟩

theorem witness_ResetSequenceEndState : ready.Accepts ∧ ready.mapped = true ∧ ready.cfg.Valid :=
  ⟨ready_accepts, rfl, tiny_valid⟩

theorem witness_ResetSequenceTrace :
    ({ ready with cfg := defaultConfig } : State).Accepts ∧ ({ ready with cfg := defaultConfig } : State).mapped = true ∧
      ({ ready with cfg := defaultConfig } : State).fsel[0] = 0x20000000 ∧
      ({ ready with cfg := defaultConfig } : State).fsel[1] = 0x24 :=
  ⟨⟨rfl, rfl⟩, rfl, rfl, rfl⟩

/-! ## Hypotheses that can be met: the transfer engine -/

theorem witness_DescriptorTable :
    (65536 ≤ 65536 ∧ 15 < (ready.buildDescs 65536).descCnt) ∧ 15 < (ready.buildDescs 65535).descCnt ∧
      0 < (ready.buildDescs 1).descCnt := by
  simp only [buildDescs_cnt, descCount]; decide

theorem witness_TransferExchangesTheBuffer :
    ready.Accepts ∧ ready.mapped = true ∧ ready.cfg.Valid ∧ (1 : Word).toNat ≤ min 65536 ready.cfg.capacity ∧
      (16 : Word).toNat ≤ min 65536 ready.cfg.capacity ∧ ready.DeviceAnswers ∧
      ready.env.seg.take (descCount 1) = List.replicate (descCount 1) .ok ∧ (1 : Word).toNat ≤ ready.env.rx.length :=
  ⟨ready_accepts, rfl, tiny_valid, by decide, by decide, ready_answers, by decide, by decide⟩

theorem witness_FailedOpenHalts :
    ({ ready with env := { ready.env with openOk := [false] } } : State).Inv ∧ ready.Accepts ∧ ready.mapped = true ∧
      (4 : Word).toNat ≤ min 65536 ready.cfg.capacity ∧
      ({ ready with env := { ready.env with openOk := [false] } } : State).env.openOk.head? = some false :=
  ⟨⟨tiny_valid, by decide, by decide, by decide, by decide, by decide, by decide, by decide, by decide, by decide⟩,
    ready_accepts, rfl, by decide, rfl⟩

/-- An environment that lets step `i` of the configuration fail first. -/
def configFails (i : Nat) : State := { ready with env := { ready.env with cfgOk := List.replicate i true ++ [false] } }

theorem witness_FailedConfigurationClosesTheDevice (i : Nat) (h : i < 4) :
    (configFails i).Accepts ∧ (configFails i).mapped = true ∧ (configFails i).cfg.Valid ∧
      (4 : Word).toNat ≤ min 65536 (configFails i).cfg.capacity ∧ (configFails i).env.openOk.head? = some true ∧
      (configFails i).env.cfgOk.take (i + 1) = List.replicate i true ++ [false] := by
  refine ⟨⟨rfl, rfl⟩, rfl, tiny_valid, by decide +revert, rfl, ?_⟩
  interval_cases i <;> decide

/-- An environment in which descriptor 1 of a transfer of 4097 bytes has the outcome `out`. -/
def secondSegment (out : SegOutcome) : State :=
  { ready with
    cfg := defaultConfig
    env := { ready.env with seg := [.ok, out], sent := [1], rx := List.replicate 4096 0 } }

theorem secondSegment_rx (out : SegOutcome) : 4096 * 1 ≤ (secondSegment out).env.rx.length :=
  le_of_eq (List.length_replicate ..).symm

theorem witness_FailedSubmissionClosesTheDevice :
    (secondSegment .fail).Accepts ∧ (secondSegment .fail).mapped = true ∧ (secondSegment .fail).cfg.Valid ∧
      (4097 : Word).toNat ≤ min 65536 (secondSegment .fail).cfg.capacity ∧ (secondSegment .fail).DeviceAnswers ∧
      1 < descCount (4097 : Word).toNat ∧
      (secondSegment .fail).env.seg.take (1 + 1) = List.replicate 1 .ok ++ [.fail] ∧
      4096 * 1 ≤ (secondSegment .fail).env.rx.length :=
  ⟨⟨rfl, rfl⟩, rfl, default_valid, by decide, ⟨rfl, rfl⟩, by decide, rfl, secondSegment_rx _⟩

theorem witness_FailedSubmissionClosesTheDevice_first :
    0 < descCount (1 : Word).toNat ∧ ({ ready.env with seg := [.fail] } : Env).seg.take (0 + 1) = [] ++ [.fail] := by decide

theorem witness_HungSubmissionBlocks :
    (secondSegment .hang).Accepts ∧ (secondSegment .hang).mapped = true ∧ (secondSegment .hang).cfg.Valid ∧
      (secondSegment .hang).resetReq = false ∧ (4097 : Word).toNat ≤ min 65536 (secondSegment .hang).cfg.capacity ∧
      (secondSegment .hang).DeviceAnswers ∧ 1 < descCount (4097 : Word).toNat ∧
      (secondSegment .hang).env.seg.take (1 + 1) = List.replicate 1 .ok ++ [.hang] ∧
      4096 * 1 ≤ (secondSegment .hang).env.rx.length :=
  ⟨⟨rfl, rfl⟩, rfl, default_valid, rfl, by decide, ⟨rfl, rfl⟩, by decide, rfl, secondSegment_rx _⟩

theorem witness_EmptyTransfer : ready.Accepts ∧ ready.mapped = true ∧ ready.cfg.Valid ∧ ready.DeviceAnswers :=
  ⟨ready_accepts, rfl, tiny_valid, ready_answers⟩

theorem witness_TransferStaysInItsRange :
    ready.Accepts ∧ ready.mapped = true ∧ (16 : Word).toNat ≤ min 65536 ready.cfg.capacity ∧
      (0 : Word).toNat ≤ min 65536 ready.cfg.capacity ∧ (65536 : Word).toNat ≤ min 65536 defaultConfig.capacity :=
  ⟨ready_accepts, rfl, by decide, by decide, by decide⟩

/-! ## Hypotheses that can be met: the encoder -/

theorem witness_AppendStoresAllOrNothing :
    (filled 10).Accepts ∧ [1, 2, 3, 4, (5 : Byte)].length = (5 : Word).toNat ∧
      (filled 10).txlen + (5 : Word).toNat < (filled 10).cfg.capacity ∧
      (filled 10).cfg.capacity ≤ (filled 10).txlen + (6 : Word).toNat ∧ (filled 15).txlen < (filled 15).cfg.capacity :=
  ⟨filled_accepts 10, by decide, by decide, by decide, by decide⟩

theorem witness_MarkersAreOneByte :
    (filled 14).Accepts ∧ (filled 14).txlen + 1 < (filled 14).cfg.capacity ∧
      (filled 15).cfg.capacity ≤ (filled 15).txlen + 1 :=
  ⟨filled_accepts 14, by decide, by decide⟩

theorem witness_RepeatedMarkersFillToTheBoundary :
    (filled 12).Accepts ∧ (filled 12).txlen + (3 : Word).toNat < (filled 12).cfg.capacity ∧
      ¬ (filled 12).txlen + (4 : Word).toNat < (filled 12).cfg.capacity ∧
      (Instr.emitNop 3 = .emitFasync 3 ∧ (0 : Byte) = 0x05 ∨ Instr.emitNop 3 = .emitNop 3 ∧ (0 : Byte) = 0x00) :=
  ⟨filled_accepts 12, by decide, by decide, by decide⟩

theorem witness_DataFrameIsStored :
    (filled 8).Accepts ∧ [1, 2, 3, (4 : Byte)].length = (4 : Word).toNat ∧
      (filled 8).txlen + 3 + (4 : Word).toNat < (filled 8).cfg.capacity ∧
      (0 + 3 + (128 : Word).toNat < defaultConfig.capacity ∧ (List.replicate 128 (0 : Byte)).length = (128 : Word).toNat) :=
  ⟨filled_accepts 8, by decide, by decide, by decide, by rw [List.length_replicate]; decide⟩

theorem witness_InvalidDataLengthIsRejected :
    (filled 7).Accepts ∧ (3 : Word).toNat < 4 ∧ 128 < (132 : Word).toNat ∧ (5 : Word).toNat % 4 ≠ 0 :=
  ⟨filled_accepts 7, by decide, by decide, by decide⟩

theorem witness_DataFrameAtTheBoundary :
    (filled 9).Accepts ∧ (filled 8).txlen + 3 + (4 : Word).toNat < (filled 8).cfg.capacity ∧
      ((filled 9).txlen + 3 < (filled 9).cfg.capacity ∧
        (filled 9).cfg.capacity ≤ (filled 9).txlen + 3 + (4 : Word).toNat) ∧
      (filled 12).txlen + 3 < (filled 12).cfg.capacity ∧ (filled 13).cfg.capacity ≤ (filled 13).txlen + 3 :=
  ⟨filled_accepts 9, by decide, by decide, by decide, by decide⟩

theorem witness_EncoderTouchesOnlyItsBuffer :
    isEncoder (.emitNop 3) = true ∧ (filled 3).Accepts ∧ ({ filled 3 with halted := true } : State).halted = true :=
  ⟨rfl, filled_accepts 3, rfl⟩

theorem witness_ClearedBufferIsAFreshBuffer :
    (filled 9).Accepts ∧ (filled 0).Accepts ∧ (filled 0).cfg.capacity = (filled 9).cfg.capacity ∧
      ∀ i ∈ [Instr.append 2 [0xAA, 0xBB], .emitBreak], isEncoder i = true :=
  ⟨filled_accepts 9, filled_accepts 0, rfl, by decide⟩

/-! ## Hypotheses that can be met: the whole machine -/

theorem witness_MessageIsAppendOnly : (∃ t, exec .emitBreak (filled 3) = .next t) ∧ 2 < (filled 3).txlen ∧
    Instr.emitBreak ≠ .clear := ⟨⟨_, rfl⟩, by decide, by decide⟩

theorem witness_EachStateHasItsWriters :
    (∃ t, exec .emitBreak ready = .next t) ∧ needsMapping .emitBreak = false ∧ (∃ t, exec (.pinSet 1) ready = .next t) ∧
      isEncoder (.pinSet 1) = false ∧ (∀ len, Instr.pinSet 1 ≠ .transfer len) ∧ Instr.pinSet 1 ≠ .init :=
  ⟨⟨_, rfl⟩, rfl, ⟨_, rfl⟩, rfl, nofun, nofun⟩

theorem witness_StepKeepsTheInvariant : ready.Inv ∧ ∃ t, step ready = .next t := ⟨ready_inv, _, rfl⟩

theorem witness_WorkingRegistersCarryNothing : ∃ t, exec (.transfer 1) ready = .next t := ⟨_, rfl⟩

/-! ## Text -/

set_option maxRecDepth 8000 in
/-- The lines of R104 and of program P1: comments, an omitted count, decimal and hexadecimal numbers. -/
theorem test_text_reads :
    assemble "APPEND [01 02] ; two\n\nEMIT_DATA 0x1234, 4, [DE AD BE EF]\nTRANSFER 13" =
      some [.append 2 [1, 2], .emitData 0x1234 4 [0xDE, 0xAD, 0xBE, 0xEF], .transfer 13] := by decide

set_option maxRecDepth 8000 in
/-- The bytes program P1 gives beside its line. -/
theorem test_text_stream :
    assembleStream "EMIT_DATA 0x1234, 4, [DE AD BE EF]" =
      some [0x47, 0x12, 0x34, 0x00, 0x00, 0x00, 0x04, 0xDE, 0xAD, 0xBE, 0xEF] := by decide

set_option maxRecDepth 8000 in
/-- A count that differs from the bytes written, and a number too wide for its operand, are no commands (R104, R101). -/
theorem test_text_refuses :
    assemble "APPEND 3, [01 02]" = none ∧ assemble "PIN_INP 256" = none ∧ assemble "DATA 1" = none := by decide

end Sys2Proof.Tests
end

/-! SUPPORT. The proofs about the reset sequencer: how many events of each kind a reset sequence appends, in which order,
and the exact list for the default parameters. -/

namespace Sys2Proof.Machine

/-- A reset sequence in a running state with the window mapped answers the procedure's state, retired (R141, R150). -/
theorem exec_resetSeq (s : State) (h : s.Accepts) (hm : s.mapped = true) :
    exec .resetSeq s = .next (s.resetSeq.retire lenH0) := by
  obtain ⟨hhalt, hhung⟩ := h
  simp only [exec, execResetSeq, accept_of_ready s _ hhalt hhung, needsWindow_mapped s _ hm]

/-! ## Events of function-field writes -/

@[simp] theorem fselEvents_length (c : Config) (f : Vector Word 6) (ws : List (Nat × PinFn)) :
    (fselEvents c f ws).length = ws.length := by
  induction ws generalizing f with
  | nil => rfl
  | cons w ws ih => simp [fselEvents, ih]

/-- Every function-field write is a window write (R120). -/
theorem isWrite_of_mem_fselEvents (c : Config) (f : Vector Word 6) (ws : List (Nat × PinFn)) :
    ∀ e ∈ fselEvents c f ws, e.isWrite = true := by
  induction ws generalizing f with
  | nil => simp [fselEvents]
  | cons w ws ih => exact List.forall_mem_cons.2 ⟨rfl, ih _⟩

/-- No event is both a window write and a busy-wait. -/
theorem not_isDelay_of_isWrite (e : Event) (h : e.isWrite = true) : ¬ e.isDelay = true := by
  cases e with
  | gpioW _ _ => exact Bool.false_ne_true
  | _ => exact absurd h Bool.false_ne_true

@[simp] theorem fselEvents_countP_isWrite (c : Config) (f : Vector Word 6) (ws : List (Nat × PinFn)) :
    (fselEvents c f ws).countP Event.isWrite = ws.length := by
  rw [List.countP_eq_length.2 (isWrite_of_mem_fselEvents c f ws), fselEvents_length]

@[simp] theorem fselEvents_countP_isDelay (c : Config) (f : Vector Word 6) (ws : List (Nat × PinFn)) :
    (fselEvents c f ws).countP Event.isDelay = 0 :=
  List.countP_eq_zero.2 fun e he => not_isDelay_of_isWrite e (isWrite_of_mem_fselEvents c f ws e he)

/-! ## Events of a whole reset sequence -/

/-- The pulse train: 33 window writes and 32 busy-waits (R143, R144). -/
theorem pulseTrainEvents_counts (c : Config) :
    (pulseTrainEvents c).length = 65 ∧ (pulseTrainEvents c).countP Event.isWrite = 33 ∧
      (pulseTrainEvents c).countP Event.isDelay = 32 := ⟨rfl, rfl, rfl⟩

/-- A reset sequence: 41 window writes and 32 busy-waits (R147). -/
theorem resetEvents_counts (c : Config) (f : Vector Word 6) :
    (resetEvents c f).length = 73 ∧ (resetEvents c f).countP Event.isWrite = 41 ∧
      (resetEvents c f).countP Event.isDelay = 32 := by
  obtain ⟨hlen, hwrites, hdelays⟩ := pulseTrainEvents_counts c
  simp [resetEvents, hlen, hwrites, hdelays, stepA, stepD]

/-! ## The events at the defaults: pins 10 and 11 lie in function register 1, pin 9 in register 0 -/

theorem fselEvents_stepA_default (f : Vector Word 6) (h1 : f[1] = 0x24) :
    fselEvents defaultConfig f (stepA defaultConfig) = [.gpioW 1 0x21, .gpioW 1 0x09] := by
  simp [fselEvents, stepA, defaultConfig, defaultCodes, FselCodes.of, withField, fselReg, fselShift, h1]

theorem fselAfter_stepA_default (f : Vector Word 6) (h1 : f[1] = 0x24) :
    fselAfter defaultConfig f (stepA defaultConfig) = f.setIfInBounds 1 0x09 := by
  simp [fselAfter, stepA, defaultConfig, defaultCodes, FselCodes.of, withField, fselReg, fselShift, h1]

theorem fselEvents_stepD_default (f : Vector Word 6) (h0 : f[0] = 0x20000000) (h1 : f[1] = 0x09) :
    fselEvents defaultConfig f (stepD defaultConfig) =
      [.gpioW 1 0x08, .gpioW 1 0x0C, .gpioW 1 0x04, .gpioW 1 0x24, .gpioW 0 0x00, .gpioW 0 0x20000000] := by
  simp [fselEvents, stepD, defaultConfig, defaultCodes, FselCodes.of, withField, fselReg, fselShift, h0, h1]

/-- The events the spec lists for the default parameters and the start state it names (R147): the other four function
registers belong to no role pin, so their values do not appear. -/
theorem resetEvents_default (f : Vector Word 6) (h0 : f[0] = 0x20000000) (h1 : f[1] = 0x00000024) :
    resetEvents defaultConfig f =
      [.gpioW 1 0x00000021, .gpioW 1 0x00000009, .gpioW 7 0x00000800] ++
        (List.replicate 16 [Event.gpioW 7 0x00000400, .delay, .gpioW 10 0x00000400, .delay]).flatten ++
        [.gpioW 1 0x00000008, .gpioW 1 0x0000000C, .gpioW 1 0x00000004, .gpioW 1 0x00000024,
          .gpioW 0 0x00000000, .gpioW 0 0x20000000] := by
  rw [resetEvents, fselEvents_stepA_default f h1, fselAfter_stepA_default f h1,
    fselEvents_stepD_default _ (by simpa using h0) (by simp)]
  rfl

/-- Settles O24: the events of a reset sequence are `resetEvents` (`resetSeq_trace`), two field writes of step A, the
pulse train and six field writes of step D. -/
theorem resetSequenceTrace : Obligations.ResetSequenceTrace := by
  intro s hs hm
  obtain ⟨hlen, hwrites, hdelays⟩ := resetEvents_counts s.cfg s.fsel
  refine ⟨_, resetEvents s.cfg s.fsel, exec_resetSeq s hs hm, resetSeq_trace s, hlen, hwrites, hdelays, ?_, ?_⟩
  · refine ⟨fselEvents s.cfg s.fsel (stepA s.cfg),
      fselEvents s.cfg (fselAfter s.cfg s.fsel (stepA s.cfg)) (stepD s.cfg), fselEvents_length .., fselEvents_length ..,
      List.forall_mem_append.2 ⟨isWrite_of_mem_fselEvents _ _ _, isWrite_of_mem_fselEvents _ _ _⟩, ?_⟩
    simp only [resetEvents, pulseTrainEvents, List.append_assoc, List.cons_append]
  · intro hcfg h0 h1
    rw [hcfg, resetEvents_default s.fsel h0 h1]

end Sys2Proof.Machine

/-! SUPPORT. The proofs about the state between commands: the invariant, the frame of every row, the working registers,
the position in the stream, the pins, the descriptor table and a submission that hangs. -/

namespace Sys2Proof.Machine

/-! ## `INIT` -/

/-- `INIT`'s attempt as one update of the state (R121, R130). -/
theorem mapWindow_eq (s : State) :
    s.mapWindow = { s.tookMap with
      mapped := s.nextMap, result := if s.nextMap then 1 else 0, cause := if s.nextMap then s.cause else causeMap
      trace := s.trace ++ [.map s.nextMap] } := by
  unfold State.mapWindow
  cases s.nextMap <;> rfl

/-! ## The invariant: updates that keep it -/

/-- The invariant speaks neither of the pins, the trace, the working registers nor the environment's queues. -/
theorem State.Inv.update {s : State} (h : s.Inv) (fsel : Vector Word 6) (latch : Word) (work : Work)
    (trace : List Event) (env : Env) :
    ({ s with fsel := fsel, latch := latch, work := work, trace := trace, env := env } : State).Inv := { h with }

theorem State.Inv.retire {s : State} (h : s.Inv) (n : Nat) : (s.retire n).Inv := { h with }

theorem State.Inv.raise {s : State} (h : s.Inv) (x : Raised) : (s.raise x).Inv := { h with recorded := rfl }

theorem State.Inv.setFn {s : State} (h : s.Inv) (p : Nat) (f : PinFn) : (s.setFn p f).Inv := h.update _ _ _ _ _

theorem State.Inv.resetSeq {s : State} (h : s.Inv) : s.resetSeq.Inv := by
  rw [resetSeq_only]; exact h.update _ _ _ _ _

theorem State.Inv.mapWindow {s : State} (h : s.Inv) : s.mapWindow.Inv := by
  rw [mapWindow_eq]
  refine { h with result_values := ?_ }
  cases s.nextMap
  · exact .inl rfl
  · exact .inr (.inl rfl)

theorem State.Inv.clearLen {s : State} (h : s.Inv) : s.clearLen.Inv :=
  { h with txlen_lt := Nat.zero_lt_of_lt h.txlen_lt }

/-- An append stays below `C - 1` (R193). -/
theorem State.Inv.append {s : State} (h : s.Inv) (bs : List Byte) : (s.append bs).Inv := by
  have hlen : (s.append bs).txlen < s.cfg.capacity := by
    have := h.txlen_lt
    rw [append_txlen]; split <;> omega
  have hwf := append_wf s bs h.tx_wf
  have hin := append_inside s bs h.tx_inside
  rw [append_only]
  exact { h with txlen_lt := hlen, tx_wf := hwf, tx_inside := hin }

theorem State.Inv.emitCopies {s : State} (h : s.Inv) (b : Byte) (n : Nat) : (s.emitCopies b n).Inv := by
  induction n with
  | zero => exact h
  | succ n ih => exact ih.append [b]

theorem State.Inv.emitLoop {s : State} (h : s.Inv) (b : Byte) (n : Nat) : (s.emitLoop b n).Inv :=
  (h.emitCopies b n).update _ _ _ _ _

theorem State.Inv.emitFrame {s : State} (h : s.Inv) (a : Half) (len : Nat) (p : List Byte) :
    (s.emitFrame a len p).Inv := by
  unfold State.emitFrame; split
  · exact (h.append _).append _
  · exact h

/-- A transfer keeps the invariant in each of its ends: it returned, it hangs, or it halted the block (R178, R229, R236).
-/
theorem State.Inv.transfer {s : State} (h : s.Inv) (hung : s.hung = false) (len : Nat) (hl : len ≤ xferBound s.cfg) :
    (s.transfer len).Inv := by
  obtain ⟨hmax, hcap⟩ := xferBound_le _ _ hl
  obtain ⟨aside, ended, rx⟩ := transfer_ends s len hmax
  obtain ⟨hopen, hcnt⟩ := h.closed hung
  have inside := rx.inside _ hcap h.rx_inside
  generalize s.transfer len = t at aside ended rx inside ⊢
  have keeps (closed : t.hung = false → t.spiOpen = false ∧ t.descCnt = 0)
      (hanging : t.hung = true → t.spiOpen = true ∧ t.descCnt ≤ 16)
      (values : t.result = 0 ∨ t.result = 1 ∨ t.result = -1) : t.Inv :=
    { cfg_valid := aside.cfg ▸ h.cfg_valid
      txlen_lt := by rw [aside.txlen, aside.cfg]; exact h.txlen_lt
      tx_wf := aside.txbuf ▸ h.tx_wf
      tx_inside := by rw [aside.txbuf, aside.cfg]; exact h.tx_inside
      rx_wf := rx.wf h.rx_wf
      rx_inside := by rw [aside.cfg]; exact inside
      recorded := by rw [aside.faulted, aside.faultRec]; exact h.recorded
      closed, hanging, result_values := values }
  cases ended with
  | ran r =>
    cases r with
    | returned result closed emptied _ _ _ hung' =>
      refine keeps (fun _ => ⟨closed, emptied⟩) (fun ht => ?_) (by tauto)
      rw [hung', hung] at ht; cases ht
    | hangs n bound result _ spiOpen descCnt _ _ _ hung' =>
      refine keeps (fun ht => ?_) (fun _ => ⟨spiOpen, descCnt ▸ descCount_le n bound⟩) (result ▸ h.result_values)
      rw [hung'] at ht; cases ht
  | fatal result spiOpen descCnt _ _ _ _ hung' _ =>
    refine keeps (fun _ => ⟨spiOpen.trans hopen, descCnt.trans hcnt⟩) (fun ht => ?_) (result ▸ h.result_values)
    rw [hung', hung] at ht; cases ht

/-! ## The invariant along a step -/

/-- A hardware reset establishes the invariant from the parameters' constraints alone (R44, R46). -/
theorem hardwareReset_inv (s : State) (h : s.cfg.Valid) : s.hardwareReset.Inv where
  cfg_valid := h
  txlen_lt := h.capacity_pos
  tx_wf := .nil
  tx_inside := nofun
  rx_wf := .nil
  rx_inside := nofun
  closed _ := ⟨rfl, rfl⟩
  hanging := nofun
  recorded := rfl
  result_values := .inl rfl

theorem RowEffect.keeps_inv {s t : State} {i : Instr} (hung : s.hung = false) (e : RowEffect s i t) (h : s.Inv) :
    t.Inv := by
  cases e with
  | raises _ x => exact h.raise x
  | maps => exact h.mapWindow.retire _
  | setsFn _ pin f n => exact (h.setFn _ f).retire n
  | sets m | clears m => exact (h.update _ _ _ _ _).retire _
  | resets => exact h.resetSeq.retire _
  | transfers len _ hl => exact h.transfer hung _ hl
  | empties => exact h.clearLen.retire _
  | appends _ bs n => exact (h.append bs).retire n
  | repeats _ b n => exact (h.emitLoop b _).retire _
  | frames a len p => exact (h.emitFrame a _ p).retire _

/-! ## What a step answers (R22, R178, R228, R230, R250) -/

theorem step_of_resetReq (s : State) (h : s.resetReq = true) : step s = .next s.hardwareReset := by
  simp only [step, poll, h, if_true]

theorem step_of_halted (s : State) (hr : s.resetReq = false) (h : s.halted = true) : step s = .refused .halted := by
  simp [step, poll, hr, h]

theorem step_of_hung (s : State) (hr : s.resetReq = false) (hh : s.halted = false) (h : s.hung = true) :
    step s = .fault .hung := by
  simp [step, poll, hr, hh, h]

theorem step_of_faulted (s : State) (hr : s.resetReq = false) (a : s.Accepts) (h : s.faulted = true) :
    step s = .fault (.runOver s.faultRec) := by
  simp [step, poll, hr, a.not_halted, a.not_hung, h]

/-- A running block runs the command the stream holds next, raises the stream's fault, or waits at its end (R98, R102).
-/
theorem step_of_running (s : State) (h : s.Running) :
    (∃ i, step s = exec i s) ∨ (∃ x, step s = .next (s.raise x)) ∨ step s = .next s := by
  obtain ⟨hr, ⟨hh, hu⟩, hf⟩ := h
  cases hd : decode (s.stream.drop s.pos) with
  | instr i rest => exact .inl ⟨i, by simp [step, poll, hr, hh, hu, hf, hd]⟩
  | illegal op => exact .inr (.inl ⟨.illegalCommand op, by simp [step, poll, hr, hh, hu, hf, hd]⟩)
  | truncated => exact .inr (.inl ⟨.truncatedCommand, by simp [step, poll, hr, hh, hu, hf, hd]⟩)
  | endOfStream => exact .inr (.inr (by simp [step, poll, hr, hh, hu, hf, hd]))

/-- Only a reset that is asked for and a running block answer a next state. -/
theorem running_of_step_next (s t : State) (h : step s = .next t) (hr : s.resetReq = false) : s.Running := by
  have hh : s.halted = false := by
    by_contra hh
    rw [step_of_halted s hr (by simpa using hh)] at h; cases h
  have hu : s.hung = false := by
    by_contra hu
    rw [step_of_hung s hr hh (by simpa using hu)] at h; cases h
  refine ⟨hr, ⟨hh, hu⟩, ?_⟩
  by_contra hf
  rw [step_of_faulted s hr ⟨hh, hu⟩ (by simpa using hf)] at h; cases h

/-- Settles O43: a hardware reset establishes the invariant, and every row and every fault of the stream keeps it. -/
theorem stepKeepsTheInvariant : Obligations.StepKeepsTheInvariant := by
  intro s t hinv hstep
  cases hr : s.resetReq with
  | true =>
    rw [step_of_resetReq s hr] at hstep
    injection hstep with hstep
    exact hstep ▸ hardwareReset_inv s hinv.cfg_valid
  | false =>
    obtain ⟨i, h⟩ | ⟨x, h⟩ | h := step_of_running s (running_of_step_next s t hstep hr) <;> rw [h] at hstep
    · obtain ⟨-, hung, effect⟩ := exec_next i s t hstep
      exact effect.keeps_inv hung hinv
    · injection hstep with hstep
      exact hstep ▸ hinv.raise x
    · injection hstep with hstep
      exact hstep ▸ hinv

/-- The defaults of R7 keep the constraints of R8. -/
theorem defaultConfig_valid : defaultConfig.Valid := by
  refine ⟨by decide, by decide, by decide, by decide, by decide, by decide, by decide, by decide, by decide,
    by decide, fun f g => ?_, by decide, by decide⟩
  cases f <;> cases g <;> decide

/-- Settles O44: the fields the invariant speaks of are those a hardware reset leaves. -/
theorem resetMeetsTheInvariant : Obligations.ResetMeetsTheInvariant :=
  { hardwareReset_inv State.reset defaultConfig_valid with }

/-! ## The working registers: two states that agree in all else -/

/-- The state with other working registers (R21). -/
def State.withWork (s : State) (w : Work) : State := { s with work := w }

/-- The second state is the first but for the working registers (R21). -/
def State.Alike (s t : State) : Prop := ∃ w : Work, t = s.withWork w

section
variable {s t : State}

theorem State.Alike.raise (h : s.Alike t) (x : Raised) : (s.raise x).Alike (t.raise x) := by
  obtain ⟨w, rfl⟩ := h; exact ⟨w, rfl⟩

theorem State.Alike.setWork (h : s.Alike t) (a b : Work) :
    ({ s with work := a } : State).Alike { t with work := b } := by
  obtain ⟨w, rfl⟩ := h; exact ⟨b, rfl⟩

theorem State.Alike.emit (h : s.Alike t) (e : Event) : (s.emit e).Alike (t.emit e) := by
  obtain ⟨w, rfl⟩ := h; exact ⟨w, rfl⟩

theorem State.Alike.retire (h : s.Alike t) (n : Nat) : (s.retire n).Alike (t.retire n) := by
  obtain ⟨w, rfl⟩ := h; exact ⟨w, rfl⟩

theorem State.Alike.clearLen (h : s.Alike t) : s.clearLen.Alike t.clearLen := by
  obtain ⟨w, rfl⟩ := h; exact ⟨w, rfl⟩

theorem State.Alike.setFn (h : s.Alike t) (p : Nat) (f : PinFn) : (s.setFn p f).Alike (t.setFn p f) := by
  obtain ⟨w, rfl⟩ := h; exact ⟨w, rfl⟩

theorem State.Alike.writeSet (h : s.Alike t) (m : Word) : (s.writeSet m).Alike (t.writeSet m) := by
  obtain ⟨w, rfl⟩ := h; exact ⟨w, rfl⟩

theorem State.Alike.writeClr (h : s.Alike t) (m : Word) : (s.writeClr m).Alike (t.writeClr m) := by
  obtain ⟨w, rfl⟩ := h; exact ⟨w, rfl⟩

theorem State.Alike.append (h : s.Alike t) (bs : List Byte) : (s.append bs).Alike (t.append bs) := by
  obtain ⟨w, rfl⟩ := h
  by_cases hfit : s.txlen + bs.length < s.cfg.capacity
  · rw [append_fits s bs hfit, append_fits (s.withWork w) bs hfit]; exact ⟨w, rfl⟩
  · rw [append_dropped s bs (Nat.not_lt.1 hfit), append_dropped (s.withWork w) bs (Nat.not_lt.1 hfit)]; exact ⟨w, rfl⟩

theorem State.Alike.emitCopies (h : s.Alike t) (b : Byte) (n : Nat) :
    (s.emitCopies b n).Alike (t.emitCopies b n) := by
  induction n with
  | zero => exact h
  | succ n ih => exact ih.append [b]

theorem State.Alike.emitLoop (h : s.Alike t) (b : Byte) (n : Nat) : (s.emitLoop b n).Alike (t.emitLoop b n) :=
  (h.emitCopies b n).setWork _ _

theorem State.Alike.emitFrame (h : s.Alike t) (a : Half) (len : Nat) (p : List Byte) :
    (s.emitFrame a len p).Alike (t.emitFrame a len p) := by
  unfold State.emitFrame
  split
  · exact (h.append _).append _
  · exact h

theorem State.Alike.mapWindow (h : s.Alike t) : s.mapWindow.Alike t.mapWindow := by
  obtain ⟨w, rfl⟩ := h
  rw [mapWindow_eq, mapWindow_eq]
  exact ⟨w, rfl⟩

/-! ## A reset sequence -/

theorem State.Alike.pulses (h : s.Alike t) (n : Nat) : (s.pulses n).Alike (t.pulses n) := by
  induction n with
  | zero => exact h
  | succ n ih =>
    obtain ⟨w, hw⟩ := ih
    rw [pulses_succ, pulses_succ, hw]
    exact ⟨_, rfl⟩

theorem State.Alike.resetSeq (h : s.Alike t) : s.resetSeq.Alike t.resetSeq := by
  have start : ((s.rolesOut.writeSet (pinBit s.cfg.pinSck)).startPulses).Alike
      ((t.rolesOut.writeSet (pinBit t.cfg.pinSck)).startPulses) := by
    obtain ⟨w, rfl⟩ := h; exact ⟨_, rfl⟩
  obtain ⟨w, hw⟩ := start.pulses nPulses
  unfold State.resetSeq
  rw [hw]
  exact ⟨w, rfl⟩

/-! ## A transfer: each loop starts its counter itself -/

theorem State.Alike.configure (is : List Nat) (h : s.Alike t) :
    (s.configure is).1.Alike (t.configure is).1 ∧ (t.configure is).2 = (s.configure is).2 := by
  induction is generalizing s t with
  | nil => exact ⟨h, rfl⟩
  | cons i is ih =>
    obtain ⟨w, rfl⟩ := h
    have next : (s.withWork w).nextCfg = s.nextCfg := rfl
    cases hc : s.nextCfg with
    | true =>
      rw [configure_step_ok s i is hc, configure_step_ok _ i is (next.trans hc)]
      refine ih ⟨w, ?_⟩
      unfold State.cfgEffect
      split_ifs <;> rfl
    | false =>
      rw [configure_step_fails s i is hc, configure_step_fails _ i is (next.trans hc)]
      refine ⟨⟨w, ?_⟩, rfl⟩
      unfold State.cfgSpoil
      split_ifs <;> rfl

theorem State.Alike.pushDescs (h : s.Alike t) (ls : List Nat) :
    (ls.foldl State.pushDesc s).Alike (ls.foldl State.pushDesc t) := by
  induction ls generalizing s t with
  | nil => exact h
  | cons l ls ih =>
    obtain ⟨w, rfl⟩ := h
    exact ih ⟨w, rfl⟩

theorem State.Alike.ready (h : s.Alike t) (len : Nat) : (s.ready len).Alike (t.ready len) := by
  have emptied : ({ s with descCnt := 0 } : State).Alike { t with descCnt := 0 } := by
    obtain ⟨w, rfl⟩ := h; exact ⟨w, rfl⟩
  exact (emptied.pushDescs (chunkLens len)).setWork _ _

/-- One exchanged byte reads `BYTE_I`. -/
theorem State.Alike.exchangeByte (h : s.Alike t) (hb : t.work.byteI = s.work.byteI) (d : Desc) :
    (s.exchangeByte d).Alike (t.exchangeByte d) := by
  obtain ⟨w, rfl⟩ := h
  unfold State.exchangeByte
  rw [hb]
  exact ⟨{ w with byteI := s.work.byteI + 1, shiftOut := s.txByte (d.txOff.toNat + s.work.byteI), shiftIn := s.nextRx },
    rfl⟩

theorem State.Alike.exchange (h : s.Alike t) (hb : t.work.byteI = s.work.byteI) (d : Desc) (n : Nat) :
    (s.exchange d n).Alike (t.exchange d n) := by
  induction n with
  | zero => exact h
  | succ n ih =>
    refine ih.exchangeByte ?_ d
    rw [(exchange_work t d n).1, (exchange_work s d n).1, hb]

theorem State.Alike.spoilRx (h : s.Alike t) (a n : Nat) : (s.spoilRx a n).Alike (t.spoilRx a n) := by
  induction n with
  | zero => exact h
  | succ n ih =>
    obtain ⟨w, hw⟩ := ih
    rw [spoilRx_succ, spoilRx_succ, hw]
    exact ⟨w, rfl⟩

theorem State.Alike.currentDesc (h : s.Alike t) (hc : t.work.chunkI = s.work.chunkI) :
    t.currentDesc = s.currentDesc := by
  unfold State.currentDesc
  rw [hc]
  obtain ⟨w, rfl⟩ := h
  rfl

/-- A descriptor reads `CHUNK_I`, and sets `BYTE_I` before its exchange. -/
theorem State.Alike.startSegment (h : s.Alike t) (hc : t.work.chunkI = s.work.chunkI) (d : Desc) (ok : Bool) :
    ((s.emit (.spiSeg s.work.chunkI d.txOff.toNat d.len.toNat ok)).startBytes).Alike
      ((t.emit (.spiSeg t.work.chunkI d.txOff.toNat d.len.toNat ok)).startBytes) := by
  rw [hc]
  obtain ⟨w, rfl⟩ := h
  exact ⟨{ w with byteI := 0 }, rfl⟩

theorem State.Alike.segmentOk (h : s.Alike t) (hc : t.work.chunkI = s.work.chunkI) :
    s.segmentOk.Alike t.segmentOk := by
  unfold State.segmentOk
  rw [h.currentDesc hc]
  exact (((h.startSegment hc _ true).exchange rfl _ _).emit _).setWork _ _

theorem State.Alike.tookSent (h : s.Alike t) : s.tookSent.Alike t.tookSent := by
  obtain ⟨w, rfl⟩ := h; exact ⟨w, rfl⟩

theorem State.Alike.segmentBad (h : s.Alike t) (hc : t.work.chunkI = s.work.chunkI) :
    s.segmentBad.Alike t.segmentBad := by
  have sent : t.nextSent = s.nextSent := by obtain ⟨w, rfl⟩ := h; rfl
  unfold State.segmentBad
  rw [h.currentDesc hc]
  change State.Alike _ ((State.exchange _ _ (min t.nextSent _)).spoilRx _ _)
  rw [sent]
  exact ((h.startSegment hc _ false).tookSent.exchange rfl _ _).spoilRx _ _

theorem segmentOk_chunkI (s : State) : s.segmentOk.work.chunkI = s.work.chunkI + 1 := rfl

theorem State.Alike.submit (n : Nat) (h : s.Alike t) (hc : t.work.chunkI = s.work.chunkI) :
    (s.submit n).1.Alike (t.submit n).1 ∧ (t.submit n).2 = (s.submit n).2 := by
  induction n generalizing s t with
  | zero => exact ⟨h, rfl⟩
  | succ n ih =>
    have out : t.nextSeg = s.nextSeg := by obtain ⟨w, rfl⟩ := h; rfl
    have took : s.tookSeg.Alike t.tookSeg := by obtain ⟨w, rfl⟩ := h; exact ⟨w, rfl⟩
    by_cases hok : s.nextSeg = .ok
    · rw [submit_ok s n hok, submit_ok t n (out.trans hok)]
      refine ih (took.segmentOk hc) ?_
      rw [segmentOk_chunkI, segmentOk_chunkI]
      exact congrArg (· + 1) hc
    · rw [submit_bad s n hok, submit_bad t n (out ▸ hok), out]
      exact ⟨took.segmentBad hc, rfl⟩

theorem State.Alike.close (h : s.Alike t) : s.close.Alike t.close := by
  obtain ⟨w, rfl⟩ := h; exact ⟨w, rfl⟩

theorem State.Alike.fail (h : s.Alike t) (c : Byte) : (s.fail c).Alike (t.fail c) := by
  obtain ⟨w, rfl⟩ := h; exact ⟨w, rfl⟩

theorem State.Alike.setResult (h : s.Alike t) (v : Word) : (s.setResult v).Alike (t.setResult v) := by
  obtain ⟨w, rfl⟩ := h; exact ⟨w, rfl⟩

theorem State.Alike.hang (h : s.Alike t) : s.hang.Alike t.hang := by
  obtain ⟨w, rfl⟩ := h; exact ⟨w, rfl⟩

theorem State.Alike.transferData (h : s.Alike t) (len : Nat) : (s.transferData len).Alike (t.transferData len) := by
  have hc : (t.ready len).work.chunkI = (s.ready len).work.chunkI := by rw [ready_chunkI, ready_chunkI]
  obtain ⟨run, out⟩ : (s.submitted len).1.Alike (t.submitted len).1 ∧ (t.submitted len).2 = (s.submitted len).2 :=
    (h.ready len).submit (descCount len) hc
  rw [transferData_eq, transferData_eq, out]
  cases (s.submitted len).2 with
  | ok => exact (run.close.resetSeq.setResult 0).retire _
  | fail => exact (run.close.fail _).retire _
  | hang => exact run.hang

theorem State.Alike.transferOpened (h : s.Alike t) (len : Nat) :
    (s.transferOpened len).Alike (t.transferOpened len) := by
  obtain ⟨run, out⟩ := h.configure cfgSteps
  unfold State.transferOpened
  dsimp only
  rw [out]
  split
  · exact run.transferData len
  · exact (run.close.fail _).retire _

theorem State.Alike.transfer (h : s.Alike t) (len : Nat) : (s.transfer len).Alike (t.transfer len) := by
  obtain ⟨w, hw⟩ := h.resetSeq
  unfold State.transfer
  rw [hw]
  dsimp only
  have answer : (s.resetSeq.withWork w).nextOpen = s.resetSeq.nextOpen := rfl
  rw [answer]
  split
  · exact State.Alike.transferOpened ⟨w, rfl⟩ len
  · exact ⟨w, rfl⟩

/-! ## Any row -/

theorem State.Alike.needsWindow (h : s.Alike t) {u v : State} (g : u.Alike v) :
    (s.needsWindow u).Alike (t.needsWindow v) := by
  have mapped : t.mapped = s.mapped := by obtain ⟨w, rfl⟩ := h; rfl
  unfold State.needsWindow
  rw [mapped]
  split
  · exact g
  · exact h.raise _

theorem State.Alike.needsPin (h : s.Alike t) (pin : Byte) {u v : State} (g : u.Alike v) :
    (s.needsPin pin u).Alike (t.needsPin pin v) := by
  have cfg : t.cfg = s.cfg := by obtain ⟨w, rfl⟩ := h; rfl
  unfold State.needsPin
  rw [cfg]
  split
  · exact g
  · exact h.raise _

/-- Two states that agree but for the working registers accept a command alike. -/
theorem State.Alike.accept (h : s.Alike t) {u v x : State} (g : u.Alike v) (ha : accept s u = .next x) :
    ∃ w, Machine.accept t v = .next (x.withWork w) := by
  obtain ⟨halted, hung, rfl⟩ := accept_next s u x ha
  obtain ⟨w, rfl⟩ := g
  obtain ⟨w', rfl⟩ := h
  exact ⟨w, accept_of_ready _ _ halted hung⟩

end

/-- Settles O45: every operation of a row takes alike states to alike states, and each loop starts its own counter. -/
theorem workingRegistersCarryNothing : Obligations.WorkingRegistersCarryNothing := by
  intro i s t w hexec
  have h : s.Alike (s.withWork w) := ⟨w, rfl⟩
  cases i with
  | wireNop | wireBreak | wireFasync | wireFsync | wireData => exact h.accept (h.raise _) hexec
  | init => exact h.accept (h.mapWindow.retire _) hexec
  | pinInp pin | pinOut pin => exact h.accept (h.needsWindow (h.needsPin pin ((h.setFn _ _).retire _))) hexec
  | pinAlt pin alt =>
    refine h.accept (h.needsWindow (h.needsPin pin ?_)) hexec
    cases altFn alt with
    | some f => exact (h.setFn _ f).retire _
    | none => exact h.raise _
  | pinSet m => exact h.accept (h.needsWindow ((h.writeSet m).retire _)) hexec
  | pinClr m => exact h.accept (h.needsWindow ((h.writeClr m).retire _)) hexec
  | resetSeq => exact h.accept (h.needsWindow (h.resetSeq.retire _)) hexec
  | transfer len =>
    refine h.accept (h.needsWindow ?_) hexec
    by_cases hl : len.toNat ≤ xferBound s.cfg
    · rw [if_pos hl, if_pos hl]; exact h.transfer _
    · rw [if_neg hl, if_neg hl]; exact h.raise _
  | clear => exact h.accept (h.clearLen.retire _) hexec
  | append n d => exact h.accept ((h.append _).retire _) hexec
  | appendRev n d => exact h.accept ((h.append _).retire _) hexec
  | emitBreak | emitFsync => exact h.accept ((h.append _).retire _) hexec
  | emitFasync n | emitNop n => exact h.accept ((h.emitLoop _ _).retire _) hexec
  | emitData a len p => exact h.accept ((h.emitFrame a _ p).retire _) hexec

/-! ## What each row writes -/

/-- The rows that set a pin's function are window commands. -/
theorem needsMapping_of_setsFn {i : Instr} {pin : Byte} {n : Nat}
    (h : i = .pinInp pin ∧ n = lenHP ∨ i = .pinOut pin ∧ n = lenHP ∨ ∃ alt, i = .pinAlt pin alt ∧ n = lenHPA) :
    needsMapping i = true := by
  obtain ⟨rfl, -⟩ | ⟨rfl, -⟩ | ⟨alt, rfl, -⟩ := h <;> rfl

/-- Settles O42: the frame of each effect a row can have. -/
theorem eachStateHasItsWriters : Obligations.EachStateHasItsWriters := by
  intro i s t hexec
  obtain ⟨-, -, effect⟩ := exec_next i s t hexec
  cases effect with
  | raises _ x => simp
  | maps => rw [mapWindow_eq]; simp [isEncoder]
  | setsFn _ pin f n h => simp [needsMapping_of_setsFn h]
  | sets m =>
    have window : needsMapping (.pinSet m) = true := rfl
    simp [window]
  | clears m =>
    have window : needsMapping (.pinClr m) = true := rfl
    simp [window]
  | resets =>
    have window : needsMapping .resetSeq = true := rfl
    simp [window]
  | transfers len =>
    have window : needsMapping (.transfer len) = true := rfl
    obtain ⟨aside, -, -⟩ := transfer_ends s len.toNat (xferBound_le _ _ ‹_›).1
    simp [window, aside.cfg, aside.stream, aside.resetReq, aside.epoch, aside.mapped, aside.txbuf, aside.txlen]
  | empties => simp [isEncoder]
  | appends _ bs n h =>
    have hi : isEncoder i = true := by
      obtain ⟨k, d, rfl, -⟩ | ⟨k, d, rfl, -⟩ | ⟨rfl, -⟩ | ⟨rfl, -⟩ := h <;> rfl
    rw [append_only]; simp [hi]
  | repeats _ b n h =>
    have hi : isEncoder i = true := by obtain ⟨rfl, -⟩ | ⟨rfl, -⟩ := h <;> rfl
    rw [emitLoop_only]; simp [hi]
  | frames => rw [emitFrame_only]; simp [isEncoder]

/-! ## The message -/

/-- The second state's message extends the first's (R32). -/
structure State.Extends (s t : State) : Prop where
  below : ∀ a, a < s.txlen → Memory.read t.txbuf a = Memory.read s.txbuf a
  le : s.txlen ≤ t.txlen

theorem State.Extends.refl (s : State) : s.Extends s := ⟨fun _ _ => rfl, Nat.le_refl _⟩

theorem State.Extends.append {s t : State} (h : s.Extends t) (bs : List Byte) : s.Extends (t.append bs) where
  below a ha := by
    have := h.le
    rw [append_read, if_neg (by omega), h.below a ha]
  le := by
    have := h.le
    rw [append_txlen]; split <;> omega

theorem State.Extends.emitCopies {s t : State} (h : s.Extends t) (b : Byte) (n : Nat) :
    s.Extends (t.emitCopies b n) := by
  induction n with
  | zero => exact h
  | succ n ih => exact ih.append [b]

theorem State.Extends.emitFrame {s t : State} (h : s.Extends t) (a : Half) (len : Nat) (p : List Byte) :
    s.Extends (t.emitFrame a len p) := by
  unfold State.emitFrame
  split
  · exact (h.append _).append _
  · exact h

/-- Settles O41: a row outside the encoder keeps the buffer, and every encoder row but `CLEAR` extends the message. -/
theorem messageIsAppendOnly : Obligations.MessageIsAppendOnly := by
  intro i s t hexec
  obtain ⟨-, -, -, -, -, -, -, outside, -⟩ := eachStateHasItsWriters i s t hexec
  suffices h : i ≠ .clear → s.Extends t by
    by_cases hi : i = .clear
    · obtain ⟨-, -, rfl⟩ := accept_next _ _ _ (hi ▸ hexec)
      exact ⟨fun _ _ => rfl, fun h => absurd hi h⟩
    · exact ⟨(h hi).below, fun _ => (h hi).le⟩
  intro hclear
  cases he : isEncoder i with
  | false =>
    obtain ⟨buf, len⟩ := outside he
    exact ⟨fun _ _ => by rw [buf], len.ge⟩
  | true =>
    obtain ⟨-, -, effect⟩ := exec_next i s t hexec
    have start := State.Extends.refl s
    cases effect with
    | raises _ x h => exact ⟨fun _ _ => rfl, Nat.le_refl _⟩
    | setsFn _ _ _ _ h => exact ⟨fun _ _ => rfl, Nat.le_refl _⟩
    | empties => exact absurd rfl hclear
    | appends _ bs n => exact ⟨(start.append bs).below, (start.append bs).le⟩
    | repeats _ b n => exact ⟨(start.emitCopies b _).below, (start.emitCopies b _).le⟩
    | frames a len p => exact ⟨(start.emitFrame a _ p).below, (start.emitFrame a _ p).le⟩
    | _ => cases he

/-! ## The position in the command list -/

/-- Every row's encoding is as long as the row says and begins with a byte its mask selects. -/
theorem encoding_statement : ∀ i, Laws.Encoding.Statement i
  | .wireNop => Laws.Encoding.wireNop
  | .wireBreak => Laws.Encoding.wireBreak
  | .wireFasync => Laws.Encoding.wireFasync
  | .wireFsync => Laws.Encoding.wireFsync
  | .wireData w a p => Laws.Encoding.wireData w a p
  | .init => Laws.Encoding.init
  | .pinInp p => Laws.Encoding.pinInp p
  | .pinOut p => Laws.Encoding.pinOut p
  | .pinAlt p a => Laws.Encoding.pinAlt p a
  | .pinSet m => Laws.Encoding.pinSet m
  | .pinClr m => Laws.Encoding.pinClr m
  | .resetSeq => Laws.Encoding.resetSeq
  | .transfer n => Laws.Encoding.transfer n
  | .clear => Laws.Encoding.clear
  | .append n d => Laws.Encoding.append n d
  | .appendRev n d => Laws.Encoding.appendRev n d
  | .emitBreak => Laws.Encoding.emitBreak
  | .emitFsync => Laws.Encoding.emitFsync
  | .emitFasync n => Laws.Encoding.emitFasync n
  | .emitNop n => Laws.Encoding.emitNop n
  | .emitData a n p => Laws.Encoding.emitData a n p

theorem encode_length (i : Instr) (h : i.wf = true) : (encode i).length = i.byteLength := (encoding_statement i h).1

/-- The command ended and the position moved past its `n` bytes, with no stop added (R22). -/
structure State.MovedOn (s t : State) (n : Nat) : Prop where
  pc : t.pc = s.pc + 1
  pos : t.pos = s.pos + n
  faulted : t.faulted = s.faulted
  halted : t.halted = s.halted
  hung : t.hung = s.hung

/-- The command ended the run: the position stays, and a fault is recorded, the block is halted, or a submission hangs
(R22, R178). -/
structure State.Stopped (s t : State) : Prop where
  pc : t.pc = s.pc
  pos : t.pos = s.pos
  stop : (t.faulted = true ∧ t.faultRec.isSome = true) ∨ t.halted = true ∨ t.hung = true

theorem transfer_position (s : State) (len : Nat) (hl : len ≤ xferMax) :
    s.MovedOn (s.transfer len) 5 ∨ s.Stopped (s.transfer len) := by
  obtain ⟨aside, ended, -⟩ := transfer_ends s len hl
  cases ended with
  | ran r =>
    cases r with
    | returned _ _ _ pc pos halted hung => exact .inl ⟨pc, pos, aside.faulted, halted, hung⟩
    | hangs _ _ _ _ _ _ pc pos _ hung => exact .inr ⟨pc, pos, .inr (.inr hung)⟩
  | fatal _ _ _ pc pos halted => exact .inr ⟨pc, pos, .inr (.inl halted)⟩

theorem RowEffect.position {s t : State} {i : Instr} (e : RowEffect s i t) :
    s.MovedOn t i.byteLength ∨ s.Stopped t := by
  cases e with
  | raises => exact .inr ⟨rfl, rfl, .inl ⟨rfl, rfl⟩⟩
  | maps => rw [mapWindow_eq]; exact .inl ⟨rfl, rfl, rfl, rfl, rfl⟩
  | setsFn _ _ _ _ h =>
    left
    obtain ⟨rfl, rfl⟩ | ⟨rfl, rfl⟩ | ⟨alt, rfl, rfl⟩ := h <;> exact ⟨rfl, rfl, rfl, rfl, rfl⟩
  | sets | clears | empties => exact .inl ⟨rfl, rfl, rfl, rfl, rfl⟩
  | resets =>
    exact .inl ⟨congrArg (· + 1) (resetSeq_pc s), congrArg (· + 1) (resetSeq_pos s), resetSeq_faulted s,
      resetSeq_halted s, resetSeq_hung s⟩
  | transfers len _ hl => exact transfer_position s _ (xferBound_le _ _ hl).1
  | appends _ _ _ h =>
    left
    rw [append_only]
    obtain ⟨k, d, rfl, -, rfl⟩ | ⟨k, d, rfl, -, rfl⟩ | ⟨rfl, -, rfl⟩ | ⟨rfl, -, rfl⟩ := h <;>
      exact ⟨rfl, rfl, rfl, rfl, rfl⟩
  | repeats _ _ _ h =>
    left
    rw [emitLoop_only]
    obtain ⟨rfl, -⟩ | ⟨rfl, -⟩ := h <;> exact ⟨rfl, rfl, rfl, rfl, rfl⟩
  | frames => rw [emitFrame_only]; exact .inl ⟨rfl, rfl, rfl, rfl, rfl⟩

/-- Settles O14: only a running block answers a next state, and every effect of a row moves on or stops. -/
theorem programPosition : Obligations.ProgramPosition := by
  refine ⟨rfl, fun t u hr hover hstep => ?_, fun i s t hwf hexec => ?_⟩
  · obtain ⟨-, ⟨hhalted, -⟩, hfaulted⟩ := running_of_step_next t u hstep hr
    simp [hhalted, hfaulted] at hover
  · obtain ⟨-, -, effect⟩ := exec_next i s t hexec
    rw [encode_length i hwf]
    obtain ⟨pc, pos, faulted, halted, hung⟩ | ⟨pc, pos, stop⟩ := effect.position
    · exact .inl ⟨pc, pos, faulted, halted, hung⟩
    · exact .inr ⟨pc, pos, stop⟩

/-! ## The ends of a run -/

theorem accept_of_hung (s t : State) (hhalted : s.halted = false) (hhung : s.hung = true) :
    accept s t = .fault .hung := by
  simp [accept, hhalted, hhung]

/-- Settles O11: `exec` and `step` look at the halt first, then at the hang, then `step` at the fault. -/
theorem faultedAndHungRunsStop : Obligations.FaultedAndHungRunsStop := by
  intro s hr hhalted
  exact ⟨fun hhung => ⟨step_of_hung s hr hhalted hhung, exec_of_accept s _ fun t => accept_of_hung s t hhalted hhung⟩,
    fun hhung hfaulted => step_of_faulted s hr ⟨hhalted, hhung⟩ hfaulted⟩

/-! ## Reset -/

/-- The words the environment lists are the words a hardware reset draws (R45). -/
theorem wordAt_of_getElem? (s : State) (k : Nat) (v : Word) (h : s.env.anyWord[k]? = some v) : s.wordAt k = v := by
  simp [State.wordAt, h]

/-- Settles O13: a hardware reset writes R44's values and draws the rest, the function registers first. -/
theorem resetValues : Obligations.ResetValues := by
  constructor
  · rintro t (rfl | ⟨s, hr, hstep⟩)
    · exact ⟨rfl, rfl, rfl, rfl, rfl, rfl, rfl, rfl, rfl, rfl⟩
    · rw [step_of_resetReq s hr] at hstep
      injection hstep with hstep
      subst hstep
      exact ⟨rfl, rfl, rfl, rfl, rfl, rfl, rfl, rfl, rfl, rfl⟩
  · intro s hr
    refine ⟨_, step_of_resetReq s hr, rfl, fun f l m b v rest h => ?_⟩
    have word (k : Nat) (w : Word) (hw : (f.toList ++ [l, m, b, v] ++ rest)[k]? = some w) : s.wordAt k = w :=
      wordAt_of_getElem? s k w (h ▸ hw)
    have hm : s.wordAt 7 = m := word 7 m (by simp [List.getElem?_append])
    have hb : s.wordAt 8 = b := word 8 b (by simp [List.getElem?_append])
    refine ⟨Vector.ext fun k hk => ?_, word 6 l (by simp), congrArg (·.setWidth 8) hm, congrArg (·.setWidth 8) hb,
      word 9 v (by simp [List.getElem?_append])⟩
    simpa [State.hardwareReset] using word k f[k] (by simp [List.getElem?_append, hk])

/-! ## The host's reads -/

/-- Settles O22: the reads are guarded by the hang and by the capacity. -/
theorem hostReadsBetweenCommands : Obligations.HostReadsBetweenCommands := by
  intro s
  constructor
  · intro hhung
    simp [State.hostRegs, State.hostTx, State.hostRx, State.betweenCommands, hhung]
  · intro hhung
    refine ⟨by simp [State.hostRegs, State.betweenCommands, hhung], fun i => ⟨fun hi => ?_, fun hi => ?_⟩⟩
    · simp [State.hostTx, State.hostRx, Nat.not_lt.2 hi]
    · have tx : s.hostTx i = some (s.txByte i) := by simp [State.hostTx, State.betweenCommands, hhung, hi]
      have rx : s.hostRx i = some (s.rxByte i) := by simp [State.hostRx, State.betweenCommands, hhung, hi]
      refine ⟨tx, rx, fun b hb => ?_, fun b hb => ?_⟩
      · rw [tx, State.txByte, hb]; rfl
      · rw [rx, State.rxByte, hb]; rfl

/-! ## The pins -/

/-- A window command in a state that takes it, with the window mapped: its effect stands behind no check. -/
theorem accept_needsWindow (s t : State) (h : s.Accepts) (hm : s.mapped = true) :
    accept s (s.needsWindow t) = .next t := by
  rw [needsWindow_mapped s t hm, accept_of_ready s t h.not_halted h.not_hung]

/-- Settles O20: one write to the set or the clear port, and the latch bit by bit. -/
theorem setAndClearLatchBits : Obligations.SetAndClearLatchBits := by
  intro s mask h hm
  refine ⟨⟨s.latch ||| mask, fun p _ => BitVec.getLsbD_or, accept_needsWindow s _ h hm⟩,
    ⟨s.latch &&& ~~~mask, fun p hp => ?_, accept_needsWindow s _ h hm⟩⟩
  simp [hp]

/-- The function a pin has right after it is set (R26, R120). -/
theorem fn_setFn (s : State) (hv : s.cfg.Valid) (p : Nat) (hp : p < s.cfg.npins) (f : PinFn) :
    (s.setFn p f).fn p = f := by
  have := hv.npins_le
  rw [State.fn, State.setFn_cfg, field_setFn s p f p (by omega), if_pos rfl]
  exact fnOf_code _ hv.codes_injective f

theorem pad_out (s : State) (p : Nat) (hp : p < s.cfg.npins) (h : s.fn p = .out) :
    s.pad p = if p ≤ 31 then .driven (s.latch.getLsbD p) else .unspecified := by
  simp only [State.pad, hp, if_true, State.pinPad, h]

theorem pad_inp (s : State) (p : Nat) (hp : p < s.cfg.npins) (h : s.fn p = .inp) : s.pad p = .notDriven := by
  simp only [State.pad, hp, if_true, State.pinPad, h]

/-- A pin in `ALT0` is unspecified while no submission hangs, role pin or not (R29). -/
theorem pad_alt0_idle (s : State) (p : Nat) (hp : p < s.cfg.npins) (h : s.fn p = .alt0) (hung : s.hung = false) :
    s.pad p = .unspecified := by
  simp only [State.pad, hp, if_true, State.pinPad, h, hung, Bool.and_false, Bool.false_eq_true, if_false]
  cases s.roleSignal p <;> rfl

/-- A role pin in `ALT0` carries its signal while a submission hangs (R29, R178). -/
theorem pad_alt0_hung (s : State) (p : Nat) (g : SerialSignal) (hp : p < s.cfg.npins) (h : s.fn p = .alt0)
    (role : s.roleSignal p = some g) (isOpen : s.spiOpen = true) (hung : s.hung = true) : s.pad p = .serial g := by
  simp only [State.pad, hp, if_true, State.pinPad, h, role, isOpen, hung, Bool.and_self]

theorem pad_no_pin (s : State) (p : Nat) (hp : s.cfg.npins ≤ p) : s.pad p = .notDriven := by
  simp only [State.pad, Nat.not_lt.2 hp, if_false]

/-- The signals of the three role pins (R29). -/
theorem roleSignal_of_roles (s : State) (hv : s.cfg.Valid) :
    s.roleSignal s.cfg.pinSck = some .clock ∧ s.roleSignal s.cfg.pinRst = some .dataOut ∧
      s.roleSignal s.cfg.pinAux = some .dataIn := by
  have distinct := hv.roles_distinct
  simp only [List.nodup_cons, List.mem_cons, List.not_mem_nil, or_false, not_or] at distinct
  obtain ⟨⟨rstSck, rstAux⟩, sckAux, -⟩ := distinct
  simp only [State.roleSignal, if_true, rstSck, Ne.symm sckAux, Ne.symm rstAux, if_false, and_self]

/-- Settles O21: the pad view of the function the command just wrote. -/
theorem padFollowsTheFunction : Obligations.PadFollowsTheFunction := by
  intro s pin h hm hv hpin
  have writes (f : PinFn) (n : Nat) : accept s (s.needsWindow (s.needsPin pin ((s.setFn pin.toNat f).retire n))) =
      .next ((s.setFn pin.toNat f).retire n) := by
    rw [accept_needsWindow s _ h hm, needsPin_legal s _ pin hpin]
  have fn (f : PinFn) (n : Nat) : ((s.setFn pin.toNat f).retire n).fn pin.toNat = f := fn_setFn s hv _ hpin f
  exact ⟨⟨_, writes .out _, pad_out _ _ hpin (fn _ _)⟩, ⟨_, writes .inp _, pad_inp _ _ hpin (fn _ _)⟩,
    ⟨_, writes .alt0 _, pad_alt0_idle _ _ hpin (fn _ _) h.not_hung⟩,
    fun mask => ⟨_, accept_needsWindow s _ h hm, fun _ => rfl, fun q hq => pad_no_pin _ q hq⟩⟩

/-! ## The descriptor table -/

/-- The lengths of the first `n` descriptors sum to what they cover (R171). -/
theorem sum_chunkLens (len n : Nat) : ((List.range n).map (chunkLen len)).sum = min (4096 * n) len := by
  induction n with
  | zero => simp
  | succ n ih =>
    rw [List.range_succ, List.map_append, List.sum_append, ih]
    simp only [List.map_singleton, List.sum_singleton, chunkLen]
    omega

theorem chunkLen_eq (len k : Nat) (hk : k < descCount len) :
    chunkLen len k = if k < len / 4096 then 4096 else len % 4096 := by
  unfold descCount at hk
  unfold chunkLen
  split_ifs at hk ⊢ <;> omega

/-- Settles O25: entry `k` of the table is `descOf k` of its chunk's length. -/
theorem descriptorTable : Obligations.DescriptorTable := by
  refine ⟨fun s len hl => ?_, fun s => ?_⟩
  · have entry (k : Nat) (hk : k < descCount len) := buildDescs_desc s len k hl hk
    have small (k : Nat) (hk : k < descCount len) : k < 16 := lt_of_lt_of_le hk (descCount_le len hl)
    have bound (k : Nat) : chunkLen len k ≤ 4096 := Nat.min_le_left ..
    rw [buildDescs_cnt]
    refine ⟨rfl, descCount_le len hl, fun k hk => ?_, ?_⟩
    · obtain ⟨tx, rx, length⟩ := descOf_offsets k _ (small k hk) (bound k)
      refine ⟨_, entry k hk, tx, rx, ?_, ?_, rfl, rfl, rfl⟩
      · rw [length, chunkLen_eq len k hk]
      · rw [length]; exact chunkLen_pos len k hk
    · refine (congrArg List.sum (List.map_congr_left fun k hk => ?_)).trans
        ((sum_chunkLens len (descCount len)).trans (descCount_end len))
      have hk := List.mem_range.1 hk
      rw [entry k hk]
      exact (descOf_offsets k _ (small k hk) (bound k)).2.2
  · simp only [buildDescs_cnt]
    decide

/-! ## A submission that stops at its first bad descriptor -/

/-- Step 5 when descriptor `k` is the first not to succeed, and fails or hangs: the earlier descriptors in full, and of
descriptor `k` some of its words, from the first on (R173 to R177). -/
theorem submitted_stops (s : State) (len k : Nat) (out : SegOutcome) (hout : out ≠ .ok) (hl : len ≤ 65536)
    (hk : k < descCount len) (hseg : s.env.seg.take (k + 1) = List.replicate k .ok ++ [out])
    (hrx : 4096 * k ≤ s.env.rx.length) :
    ∃ (t : State) (rs : List Byte), s.configured.submitted len = (t, out) ∧
      t = { s.configured with desc := t.desc, descCnt := descCount len, rxbuf := t.rxbuf, work := t.work,
                              trace := t.trace, env := t.env } ∧
      (∀ j, j < descCount len → t.desc[j]? = some (descOf j (chunkLen len j))) ∧
      rs.length ≤ chunkLen len k ∧
      (∀ p q, s.env.sent = p :: q → rs.length = min p (chunkLen len k)) ∧
      t.trace = s.configured.trace ++ (chunksEvents s len k ++ (.spiSeg k (4096 * k) (chunkLen len k) false ::
        (List.range rs.length).map (fun j => Event.spiByte (s.txByte (4096 * k + j)) (rs.getD j 0)))) ∧
      (∀ i, i < 4096 * k → Memory.read t.rxbuf i = s.env.rx[i]?) ∧
      (∀ i, 4096 * k + chunkLen len k ≤ i → Memory.read t.rxbuf i = Memory.read s.rxbuf i) := by
  have start := chunk_start len k hk
  have plan : s.env.seg = List.replicate k .ok ++ (out :: s.env.seg.drop (k + 1)) := by
    conv_lhs => rw [← List.take_append_drop (k + 1) s.env.seg, hseg]
    simp
  obtain ⟨u, run, only, table, chunkI, fed, sent, trace, read⟩ :=
    configured_run s len k hl hk.le _ plan (by omega)
  have next : u.nextSeg = out := by simp [State.nextSeg, fed.seg]
  obtain ⟨badTrace, badRead⟩ := segmentBad_facts u.tookSeg k (chunkLen len k)
    (lt_of_lt_of_le hk (descCount_le len hl)) (Nat.min_le_left ..) chunkI (table k hk)
  have bad := segmentBad_only u.tookSeg
  have tx (i : Nat) : u.tookSeg.txByte i = s.txByte i := by
    simp only [State.txByte, State.tookSeg_txbuf, State.tookSeg_epoch]
    rw [only]
    rfl
  refine ⟨u.tookSeg.segmentBad,
    (List.range (min u.tookSeg.nextSent (chunkLen len k))).map u.tookSeg.tookSent.rxAt, ?_, ?_, ?_, ?_, ?_, ?_, ?_, ?_⟩
  · obtain ⟨m, hm⟩ : ∃ m, descCount len = k + (m + 1) := ⟨descCount len - k - 1, by omega⟩
    unfold State.submitted
    rw [hm, run, submit_bad u m (next ▸ hout), next]
  · have desc : u.tookSeg.segmentBad.desc = u.desc := by rw [bad]; rfl
    have kept : u.tookSeg = { s.configured with desc := u.desc, descCnt := descCount len, rxbuf := u.rxbuf
                                                work := u.work, trace := u.trace, env := u.tookSeg.env } := by
      conv_lhs => rw [only]
      rfl
    rw [desc]
    refine bad.trans ?_
    generalize u.tookSeg.segmentBad = t
    rw [kept]
  · intro j hj
    rw [bad]
    exact table j hj
  · rw [List.length_map, List.length_range]
    exact Nat.min_le_right ..
  · intro p q hpq
    have : u.tookSeg.nextSent = p := by simp [State.nextSent, sent, hpq]
    rw [List.length_map, List.length_range, this]
  · rw [badTrace, State.tookSeg_trace, trace, List.append_assoc, List.length_map, List.length_range]
    refine congrArg _ (congrArg _ (congrArg _ (List.map_congr_left fun j hj => ?_)))
    rw [tx, List.getD_eq_getElem _ _ (by simpa using hj), List.getElem_map, List.getElem_range]
  · intro i hi
    rw [badRead i (.inl hi), State.tookSeg_rxbuf, read, if_pos (by omega)]
  · intro i hi
    rw [badRead i (.inr hi), State.tookSeg_rxbuf, read, if_neg (by omega)]

/-! ## A submission that hangs -/

/-- A transfer whose step 5 ends in a hang is left there: nothing follows it (R178). -/
theorem transfer_of_hang (s t : State) (len : Nat) (h : s.DeviceAnswers)
    (hsub : s.configured.submitted len = (t, .hang)) : s.transfer len = t.hang := by
  rw [transfer_configured s len h, transferData_eq, hsub]

/-- While a submission hangs the role pins, left in `ALT0` by the reset sequence, carry the serial signals (R29). -/
theorem role_pads_of_hang (s t : State) (hv : s.cfg.Valid) (hc : t.cfg = s.cfg) (pins : AfterResetSeq s t)
    (isOpen : t.spiOpen = true) (hung : t.hung = true) :
    t.pad s.cfg.pinSck = .serial .clock ∧ t.pad s.cfg.pinRst = .serial .dataOut ∧
      t.pad s.cfg.pinAux = .serial .dataIn := by
  obtain ⟨rst, sck, aux, -⟩ := pins
  rw [← hc] at hv rst sck aux ⊢
  obtain ⟨clock, out, inp⟩ := roleSignal_of_roles t hv
  exact ⟨pad_alt0_hung t _ _ hv.sck_lt sck clock isOpen hung, pad_alt0_hung t _ _ hv.rst_lt rst out isOpen hung,
    pad_alt0_hung t _ _ hv.aux_lt aux inp isOpen hung⟩

/-- Settles O30: step 5 stops at descriptor `k`, and what it leaves blocks every step and command but a reset. -/
theorem hungSubmissionBlocks : Obligations.HungSubmissionBlocks := by
  intro s len k haccepts hm hv hreset hlen hdev hk hseg hrx
  have hl : len.toNat ≤ 65536 := le_trans hlen (Nat.min_le_left ..)
  obtain ⟨u, rs, hsub, only, table, short, sent, trace, below, above⟩ :=
    submitted_stops s len.toNat k .hang nofun hl hk hseg hrx
  have hexec := exec_transfer s len haccepts hm hlen
  rw [transfer_of_hang s u _ hdev hsub] at hexec
  have kept : KeptByTransfer s u.hang := by rw [only]; exact ⟨rfl, rfl, rfl, rfl, rfl, rfl, rfl, rfl, rfl, rfl⟩
  obtain ⟨isOpen, count, spiMode, spiBits, spiSpeed⟩ : u.hang.spiOpen = true ∧ u.hang.descCnt = descCount len.toNat ∧
      u.hang.spiMode = 0 ∧ u.hang.spiBits = 8 ∧ u.hang.spiSpeed = 2000000 := by
    rw [only]; exact ⟨rfl, rfl, rfl, rfl, rfl⟩
  obtain ⟨pc, pos, result, cause⟩ : u.hang.pc = s.pc ∧ u.hang.pos = s.pos ∧ u.hang.result = s.result ∧
      u.hang.cause = s.cause := by
    rw [only]; exact ⟨rfl, rfl, rfl, rfl⟩
  have ⟨cfg, _, halted, _, _, _, _, _, resetReq, _⟩ := kept
  have halted := halted.trans haccepts.not_halted
  have pins : AfterResetSeq s u.hang := afterResetSeq_of s _ hv cfg
    (by rw [only]; simp only [State.hang, State.configured]) (by rw [only]; simp only [State.hang, State.configured])
  obtain ⟨clock, out, inp⟩ := role_pads_of_hang s _ hv cfg pins isOpen rfl
  have events : u.hang.trace = s.trace ++ (resetEvents s.cfg s.fsel ++ (openEvents ++ (chunksEvents s len.toNat k ++
      (.spiSeg k (4096 * k) (chunkLen len.toNat k) false ::
        (List.range rs.length).map (fun j => Event.spiByte (s.txByte (4096 * k + j)) (rs.getD j 0)))))) := by
    have configured : s.configured.trace = s.trace ++ (resetEvents s.cfg s.fsel ++ openEvents) := rfl
    rw [State.hang_trace, trace, configured, List.append_assoc, List.append_assoc]
  have stop : ∀ i, exec i u.hang = .fault .hung := exec_of_accept _ _ fun _ => accept_of_hung _ _ halted rfl
  exact ⟨u.hang, rs, hexec, rfl, isOpen, count, table, short, sent, events, spiMode, spiBits, spiSpeed, clock, out, inp,
    pc, pos, result, cause, below, above, pins, kept, step_of_hung _ (resetReq.trans hreset) halted rfl, stop, _,
    step_of_resetReq _ rfl, rfl⟩

end Sys2Proof.Machine

/-! SUPPORT. The proofs about the bytes of memory: the order of a byte's bits on the serial data line, and the bytes a
transfer may write. -/

namespace Sys2Proof.Machine

/-! ## The serial data line -/

@[simp] theorem lineBits_length (c : Config) (b : Byte) : (lineBits c b).length = 8 := by
  unfold lineBits
  split <;> simp

/-- Bit 7 stands first on the line (R63). -/
theorem lineBits_msbFirst (c : Config) (h : c.shiftMsbFirst = true) (b : Byte) (i : Nat) (hi : i < 8) :
    (lineBits c b)[i]? = some (b.getLsbD (7 - i)) := by
  have bound : 7 - i < 8 := by omega
  rw [lineBits, if_pos h, List.getElem?_reverse (by simpa using hi)]
  simp [bound]

/-- Bit 0 stands first on the line (R63). -/
theorem lineBits_lsbFirst (c : Config) (h : c.shiftMsbFirst = false) (b : Byte) (i : Nat) (hi : i < 8) :
    (lineBits c b)[i]? = some (b.getLsbD i) := by
  rw [lineBits, if_neg (Bool.eq_false_iff.1 h), List.getElem?_map, List.getElem?_range hi, Option.map_some]

/-- Settles O8: the bits stand on the line from bit 7 down or from bit 0 up, and `rev8` turns the first order into the
second. -/
theorem payloadIsSentLeastBitFirst : Obligations.PayloadIsSentLeastBitFirst := by
  intro c b
  refine ⟨lineBits_length c b, fun i hi => ⟨fun h => ⟨lineBits_msbFirst c h b i hi, ?_⟩,
    fun h => lineBits_lsbFirst c h b i hi⟩⟩
  have mirrored : (rev8 b).getLsbD (7 - i) = b.getLsbD i := by
    rw [rev8_getLsbD b _ (by omega), Nat.sub_sub_self (by omega)]
  rw [lineBits_msbFirst c h _ i hi, mirrored]

/-! ## A transfer's range -/

/-- Settles O32: a transfer of a legal length is what its meaning answers, and in each of its ends it keeps the state
beside it and the receive bytes above its length (`transfer_ends`). -/
theorem transferStaysInItsRange : Obligations.TransferStaysInItsRange := by
  intro s len haccepts hm hlen
  have legal : len.toNat ≤ xferMax := (xferBound_le s.cfg _ hlen).1
  obtain ⟨aside, -, rx⟩ := transfer_ends s len.toNat legal
  exact ⟨s.transfer len.toNat, exec_transfer s len haccepts hm hlen, aside.txbuf, aside.txlen, aside.cfg, aside.mapped,
    aside.faulted, aside.faultRec, rx.above⟩

end Sys2Proof.Machine

/-! SUPPORT. The proofs about encodings: the command reader and the frame reader undo the encoder, what the one decoder
makes of both spaces, the end of a stream, and the step that reads it. -/

namespace Sys2Proof

open Machine

/-! ## The command reader undoes the encoder -/

/-- Bytes that begin with a well-formed command's encoding read as that command (R99, R100). -/
theorem decodeCommand_of_encode (i : Instr) (hc : i.isCommand = true) (hw : i.wf = true) (op : Byte)
    (l rest : List Byte) (h : encode i ++ rest = op :: l) : decodeCommand op l = .instr i rest := by
  cases i with
  | wireNop | wireBreak | wireFasync | wireFsync | wireData => cases hc
  | init | resetSeq | clear | emitBreak | emitFsync | pinInp | pinOut | pinAlt => cases h; rfl
  | pinSet v | pinClr v | transfer v | emitFasync v | emitNop v => cases h; exact readWord_wordBytes _ v rest
  | append n d | appendRev n d => cases h; exact readBlock_append _ n d rest (beq_iff_eq.1 hw)
  | emitData a n d => cases h; exact readAddressed_append _ a n d rest (beq_iff_eq.1 hw)

/-- A command's encoding begins with one of the sixteen opcodes (R100). -/
theorem opcode_of_encode (i : Instr) (hc : i.isCommand = true) (hw : i.wf = true) (op : Byte) (l rest : List Byte)
    (h : encode i ++ rest = op :: l) : op ∈ opcodes := by
  have read := decodeCommand_of_encode i hc hw op l rest h
  obtain ⟨-, illegal⟩ | ⟨listed, -⟩ | ⟨listed, -⟩ := decodeCommand_cases op l
  · rw [read] at illegal; cases illegal
  · exact listed
  · exact listed

/-- The first bytes of a command's encoding, short of all of it, hold no whole command: the command read would be that
same one, with nothing left out (R102). -/
theorem decodeCommand_truncated (i : Instr) (hc : i.isCommand = true) (hw : i.wf = true) (op : Byte)
    (l more : List Byte) (hmore : more ≠ []) (h : encode i = op :: (l ++ more)) : decodeCommand op l = .truncated := by
  have whole : encode i ++ [] = op :: (l ++ more) := by rw [List.append_nil, h]
  obtain ⟨unlisted, -⟩ | ⟨-, truncated⟩ | ⟨-, j, rest, -, hcj, hwj, bytes⟩ := decodeCommand_cases op l
  · exact absurd (opcode_of_encode i hc hw op _ _ whole) unlisted
  · exact truncated
  · have longer : encode j ++ (rest ++ more) = op :: (l ++ more) := by rw [← List.append_assoc, bytes, List.cons_append]
    have both := (decodeCommand_of_encode j hcj hwj op _ _ longer).symm.trans
      (decodeCommand_of_encode i hc hw op _ _ whole)
    simp only [Decoded.instr.injEq, List.append_eq_nil_iff] at both
    exact absurd both.2.2 hmore

/-! ## The frame reader -/

/-- A first byte under the DATA tag begins a frame whose length its low five bits give (R92, R93, R96). -/
theorem frameLength_of_tag (b : Byte) (h : b &&& 0xE0#8 = 0xE0#8) :
    frameLength b = some (3 + 4 * ((b &&& 0x1F#8).toNat + 1)) := by
  have marker : ¬ (b = 0x00#8 ∨ b = 0x04#8 ∨ b = 0x05#8 ∨ b = 0x06#8) := by
    rintro (rfl | rfl | rfl | rfl) <;> exact absurd h (by decide)
  rw [frameLength, if_neg marker, if_pos h]

theorem low_bits_toNat (b : Byte) : (b &&& 0x1F#8).toNat = (b.extractLsb' 0 5).toNat := by
  revert b; decide

theorem readData_cases (w : BitVec 5) (l : List Byte) :
    (l.length + 1 < 3 + 4 * (w.toNat + 1) ∧ readData w l = .truncated) ∨
      ∃ a p r, readData w l = .instr (.wireData w a p) r ∧ p.length = 4 * (w.toNat + 1) ∧
        halfBytes a ++ p.map rev8 ++ r = l := by
  unfold readData
  split
  · next hi lo rest =>
    split
    · next short => exact .inl ⟨by simp only [List.length_cons]; omega, rfl⟩
    · next enough =>
      refine .inr ⟨_, _, _, rfl, by simpa using enough, ?_⟩
      rw [halfBytes_half, List.map_map, map_rev8_comp, List.append_assoc, List.take_append_drop]
      rfl
  · next short =>
    refine .inl ⟨?_, rfl⟩
    match l, short with
    | [], _ | [_], _ => simp only [List.length_cons, List.length_nil]; omega
    | hi :: lo :: rest, short => exact absurd rfl (short hi lo rest)

/-- What reading one wire frame yields: the first byte begins none, or it fixes the frame's length and the bytes end
before it, or a well-formed frame of that length stands at their start (R93, R96). -/
inductive FrameRead (b : Byte) (l : List Byte) : Decoded → Prop
  | illegal (unassigned : frameLength b = none) : FrameRead b l (.illegal b)
  | truncated (n : Nat) (length : frameLength b = some n) (short : l.length + 1 < n) : FrameRead b l .truncated
  | frame (i : Instr) (rest : List Byte) (isFrame : i.isCommand = false) (wf : i.wf = true)
      (bytes : encode i ++ rest = b :: l) (length : frameLength b = some (encode i).length) :
      FrameRead b l (.instr i rest)

theorem decodeFrame_reads (b : Byte) (l : List Byte) : FrameRead b l (decodeFrame (b :: l)) := by
  rw [decodeFrame]
  split_ifs with h0 h4 h5 h6 tag
  · subst h0; exact .frame .wireNop l rfl rfl rfl rfl
  · subst h4; exact .frame .wireBreak l rfl rfl rfl rfl
  · subst h5; exact .frame .wireFasync l rfl rfl rfl rfl
  · subst h6; exact .frame .wireFsync l rfl rfl rfl rfl
  · have length := frameLength_of_tag b tag
    rw [low_bits_toNat] at length
    obtain ⟨short, read⟩ | ⟨a, p, r, read, payload, bytes⟩ := readData_cases (b.extractLsb' 0 5) l <;> rw [read]
    · exact .truncated _ length short
    · have wf : (Instr.wireData (b.extractLsb' 0 5) a p).wf = true := beq_iff_eq.2 payload
      refine .frame _ r rfl wf ?_ ?_
      · rw [← bytes, encode, dataHeader_of_tag b tag]; rfl
      · rw [length, encode_length _ wf]; rfl
  · exact .illegal (by simp only [frameLength, h0, h4, h5, h6, tag, or_false, if_false])

theorem decodeFrame_instr (b : Byte) (l rest : List Byte) (i : Instr) (h : decodeFrame (b :: l) = .instr i rest) :
    i.isCommand = false ∧ i.wf = true ∧ encode i ++ rest = b :: l ∧ frameLength b = some (encode i).length := by
  have reads := decodeFrame_reads b l
  rw [h] at reads
  cases reads with
  | frame _ _ isFrame wf bytes length => exact ⟨isFrame, wf, bytes, length⟩

/-- Bytes that begin with a well-formed frame's encoding read as that frame (R91, R92). -/
theorem decodeFrame_encode (i : Instr) (hf : i.isCommand = false) (hw : i.wf = true) (rest : List Byte) :
    decodeFrame (encode i ++ rest) = .instr i rest := by
  cases i with
  | wireNop | wireBreak | wireFasync | wireFsync => rfl
  | wireData w a p =>
    obtain ⟨wcm1, tag⟩ := dataHeader_fields w
    have marker (m : Byte) (hm : m &&& 0xE0#8 ≠ 0xE0#8) : dataHeader w ≠ m := fun h => hm (h ▸ tag)
    rw [encode, List.cons_append, decodeFrame, if_neg (marker _ (by decide)), if_neg (marker _ (by decide)),
      if_neg (marker _ (by decide)), if_neg (marker _ (by decide)), if_pos tag, wcm1]
    exact readData_append w a p rest (beq_iff_eq.1 hw)
  | _ => cases hf

/-! ## The one decoder -/

theorem decode_of_opcode (op : Byte) (l : List Byte) (h : op ∈ opcodes) : decode (op :: l) = decodeCommand op l := by
  obtain ⟨unlisted, -⟩ | ⟨-, read⟩ | ⟨-, i, rest, read, -⟩ := decodeCommand_cases op l
  · exact absurd h unlisted
  · rw [decode, read]
  · rw [decode, read]

/-- The two spaces share no first byte (R100). -/
theorem not_opcode_of_frameLength (b : Byte) (n : Nat) (h : frameLength b = some n) : b ∉ opcodes := by
  have unassigned : ∀ b ∈ opcodes, frameLength b = none := by decide
  intro hb
  rw [unassigned b hb] at h; cases h

/-- A byte that is no opcode begins a whole frame, or is illegal (R102, log entry 6). -/
theorem decode_of_not_opcode (op : Byte) (l : List Byte) (h : op ∉ opcodes) :
    (∃ i rest, decodeFrame (op :: l) = .instr i rest ∧ decode (op :: l) = .instr i rest) ∨
      ((∀ i rest, decodeFrame (op :: l) ≠ .instr i rest) ∧ decode (op :: l) = .illegal op) := by
  obtain ⟨-, read⟩ | ⟨listed, -⟩ | ⟨listed, -⟩ := decodeCommand_cases op l
  · cases frame : decodeFrame (op :: l) with
    | instr i rest => exact .inl ⟨i, rest, rfl, by rw [decode, read]; simp only [frame]⟩
    | _ => exact .inr ⟨nofun, by rw [decode, read]; simp only [frame]⟩
  · exact absurd listed h
  · exact absurd listed h

theorem decode_of_frame (op : Byte) (l rest : List Byte) (i : Instr) (h : decodeFrame (op :: l) = .instr i rest) :
    decode (op :: l) = .instr i rest := by
  obtain ⟨-, -, -, length⟩ := decodeFrame_instr op l rest i h
  obtain ⟨j, r, frame, decoded⟩ | ⟨noFrame, -⟩ :=
    decode_of_not_opcode op l (not_opcode_of_frameLength op _ length)
  · rw [decoded, ← frame, h]
  · exact absurd h (noFrame i rest)

/-- Settles O1: the two readers undo the encoder, each in its own space, and no first byte belongs to both. -/
theorem encodedInstructionDecodesToItself : Obligations.EncodedInstructionDecodesToItself := by
  intro i rest hw
  obtain ⟨-, b, bs, bytes, -⟩ := encoding_statement i hw
  have start : encode i ++ rest = b :: (bs ++ rest) := by rw [bytes, List.cons_append]
  cases hc : i.isCommand with
  | true =>
    rw [start, decode_of_opcode b _ (opcode_of_encode i hc hw b _ rest start)]
    exact decodeCommand_of_encode i hc hw b _ rest start
  | false =>
    have read := decodeFrame_encode i hc hw rest
    rw [start] at read ⊢
    exact decode_of_frame b _ rest i read

/-- Settles O2: each reader answers only what its bytes encode. -/
theorem decodedInstructionReencodesToItsBytes : Obligations.DecodedInstructionReencodesToItsBytes := by
  intro bs rest i h
  cases bs with
  | nil => cases h
  | cons op l =>
    by_cases listed : op ∈ opcodes
    · rw [decode_of_opcode op l listed] at h
      obtain ⟨-, read⟩ | ⟨-, read⟩ | ⟨-, j, r, read, -, wf, bytes⟩ := decodeCommand_cases op l <;>
        rw [read] at h <;> cases h
      exact ⟨wf, bytes⟩
    · obtain ⟨j, r, frame, decoded⟩ | ⟨-, decoded⟩ := decode_of_not_opcode op l listed <;>
        rw [decoded] at h <;> cases h
      obtain ⟨-, wf, bytes, -⟩ := decodeFrame_instr op l rest i frame
      exact ⟨wf, bytes⟩

/-! ## Reading a stream -/

/-- How the reading of a stream ends, with the bytes it does not read (R102, R103). -/
inductive StreamEnd : List Byte → Decoded → Prop
  | nothingLeft : StreamEnd [] .endOfStream
  | illegal (op : Byte) (more : List Byte) (unlisted : op ∉ opcodes) : StreamEnd (op :: more) (.illegal op)
  | truncated (op : Byte) (more : List Byte) (listed : op ∈ opcodes)
      (noCommand : ∀ i : Instr, i.isCommand = true → i.wf = true → ¬ encode i <+: op :: more) :
      StreamEnd (op :: more) .truncated

/-- The commands are well formed, their encodings are the bytes read, and what is left is one of the three ends. -/
def StreamReads (bs : List Byte) (is : List Instr) (last : Decoded) : Prop :=
  (∀ i ∈ is, i.isCommand = true ∧ i.wf = true) ∧ ∃ tail, bs = (is.map encode).flatten ++ tail ∧ StreamEnd tail last

theorem StreamReads.nil {bs : List Byte} {last : Decoded} (h : StreamEnd bs last) : StreamReads bs [] last :=
  ⟨nofun, bs, rfl, h⟩

theorem StreamReads.cons {rest : List Byte} {is : List Instr} {last : Decoded} (h : StreamReads rest is last)
    (i : Instr) (hc : i.isCommand = true) (hw : i.wf = true) : StreamReads (encode i ++ rest) (i :: is) last := by
  obtain ⟨wf, tail, bytes, ends⟩ := h
  refine ⟨List.forall_mem_cons.2 ⟨⟨hc, hw⟩, wf⟩, tail, ?_, ends⟩
  rw [List.map_cons, List.flatten_cons, List.append_assoc, ← bytes]

/-- Fuel for every byte is enough, since a command takes at least one (R103). -/
theorem decodeStream_reads (fuel : Nat) (bs : List Byte) (h : bs.length ≤ fuel) :
    StreamReads bs (decodeStream fuel bs).1 (decodeStream fuel bs).2 := by
  induction fuel generalizing bs with
  | zero =>
    obtain rfl := List.length_eq_zero_iff.1 (Nat.le_zero.1 h)
    exact .nil .nothingLeft
  | succ fuel ih =>
    cases bs with
    | nil => exact .nil .nothingLeft
    | cons op l =>
      rw [decodeStream]
      obtain ⟨unlisted, read⟩ | ⟨listed, read⟩ | ⟨-, i, rest, read, hc, hw, bytes⟩ := decodeCommand_cases op l <;>
        simp only [read]
      · exact .nil (.illegal op l unlisted)
      · refine .nil (.truncated op l listed fun i hc hw whole => ?_)
        obtain ⟨rest, bytes⟩ := whole
        rw [decodeCommand_of_encode i hc hw op l rest bytes] at read; cases read
      · rw [← bytes]
        refine (ih rest ?_).cons i hc hw
        obtain ⟨-, b, bs, first, -⟩ := encoding_statement i hw
        have := congrArg List.length bytes
        simp only [first, List.length_append, List.length_cons] at this h
        omega

/-- Settles O3: the reading of the whole string, with the three ends told apart. -/
theorem readingAStreamIsTotal : Obligations.ReadingAStreamIsTotal := by
  intro bs
  obtain ⟨wf, tail, bytes, ends⟩ := decodeStream_reads bs.length bs le_rfl
  refine ⟨wf, tail, bytes, ?_⟩
  generalize (decodeStream bs.length bs).2 = last at ends ⊢
  cases ends with
  | nothingLeft => exact .inl ⟨rfl, rfl⟩
  | illegal op more unlisted => exact .inr ⟨op, more, rfl, .inl ⟨rfl, unlisted⟩⟩
  | truncated op more listed noCommand => exact .inr ⟨op, more, rfl, .inr ⟨rfl, listed, noCommand⟩⟩

/-! ## The first byte of a frame -/

theorem tag_of_le (b : Byte) (h : 0xE0 ≤ b.toNat) : b &&& 0xE0#8 = 0xE0#8 := by
  revert b; decide

/-- The first bytes that the source does not assign (R95). -/
theorem frameLength_unassigned (b : Byte) (h : 1 ≤ b.toNat ∧ b.toNat ≤ 3 ∨ 7 ≤ b.toNat ∧ b.toNat ≤ 0xDF) :
    frameLength b = none := by
  revert b; decide

/-- Settles O4: the first byte fixes the length or begins no frame (`frameLength`), and the reader agrees with it
(`decodeFrame_reads`). -/
theorem firstByteFixesTheFrame : Obligations.FirstByteFixesTheFrame := by
  intro b rest
  have reads := decodeFrame_reads b rest
  generalize decodeFrame (b :: rest) = d at reads
  refine ⟨?_, fun h => frameLength_of_tag b (tag_of_le b h), fun h => ?_, fun n hn enough => ?_⟩
  · rintro (rfl | rfl | rfl | rfl) <;> rfl
  · have unassigned := frameLength_unassigned b h
    cases reads with
    | illegal => exact ⟨unassigned, rfl⟩
    | truncated n length | frame _ _ _ _ _ length => rw [unassigned] at length; cases length
  · cases reads with
    | illegal unassigned => rw [unassigned] at hn; cases hn
    | truncated m length short =>
      rw [length] at hn; cases hn
      omega
    | frame i r isFrame _ bytes length =>
      rw [length] at hn; cases hn
      exact ⟨i, isFrame, by rw [← bytes, List.drop_left]⟩

/-! ## The bytes of a DATA frame -/

/-- The header byte as the spec writes it (R92). -/
theorem dataHeader_eq (w : BitVec 5) : dataHeader w = w.setWidth 8 ||| 0xE0 := by
  revert w; decide

theorem dataHeader_tag (w : BitVec 5) : (dataHeader w).extractLsb' 5 3 = 0b111 := by
  revert w; decide

/-- The address's two bytes, high byte first, as a shift and a truncation (R92). -/
theorem halfBytes_eq (a : Half) : halfBytes a = [(a >>> 8).setWidth 8, a.setWidth 8] := rfl

/-- Settles O5: the header, the address and the reversed payload stand one after another. -/
theorem dataFrameLayout : Obligations.DataFrameLayout := by
  intro w a p h
  have bytes : encode (.wireData w a p) = dataHeader w :: (a >>> 8).setWidth 8 :: a.setWidth 8 :: p.map rev8 := by
    rw [encode, halfBytes_eq]; rfl
  refine ⟨encode_length _ (beq_iff_eq.2 h), ?_⟩
  rw [bytes]
  refine ⟨⟨_, rfl, dataHeader_eq w, dataHeader_tag w, (dataHeader_fields w).1⟩, rfl, rfl, fun j _ => ?_⟩
  rw [Nat.add_comm]
  exact List.getElem?_map

/-! ## The step -/

/-- Settles O9: `poll` finds nothing to answer before the stream is read. -/
theorem stepRunsTheDecodedInstruction : Obligations.StepRunsTheDecodedInstruction := by
  rintro s i rest ⟨hr, ⟨hh, hu⟩, hf⟩ read
  simp [step, poll, hr, hh, hu, hf, read]

theorem step_of_illegal (s : State) (h : s.Running) (op : Byte) (read : decode (s.stream.drop s.pos) = .illegal op) :
    step s = .next (s.raise (.illegalCommand op)) := by
  obtain ⟨hr, ⟨hh, hu⟩, hf⟩ := h
  simp [step, poll, hr, hh, hu, hf, read]

theorem step_of_truncated (s : State) (h : s.Running) (read : decode (s.stream.drop s.pos) = .truncated) :
    step s = .next (s.raise .truncatedCommand) := by
  obtain ⟨hr, ⟨hh, hu⟩, hf⟩ := h
  simp [step, poll, hr, hh, hu, hf, read]

theorem step_of_endOfStream (s : State) (h : s.Running) (read : decode (s.stream.drop s.pos) = .endOfStream) :
    step s = .next s := by
  obtain ⟨hr, ⟨hh, hu⟩, hf⟩ := h
  simp [step, poll, hr, hh, hu, hf, read]

/-- A wire frame where a command is due is answered by its first byte alone (R102, log entry 6). -/
theorem exec_frame (s : State) (h : s.Accepts) (i : Instr) (hf : i.isCommand = false) (op : Byte) (l rest : List Byte)
    (bytes : encode i ++ rest = op :: l) : exec i s = .next (s.raise (.illegalCommand op)) := by
  cases i with
  | wireNop | wireBreak | wireFasync | wireFsync | wireData =>
    cases bytes; exact accept_of_ready s _ h.not_halted h.not_hung
  | _ => cases hf

/-- Settles O17: each wire row is answered by the first byte of its encoding. -/
theorem wireFramesAreNoCommands : Obligations.WireFramesAreNoCommands := by
  intro s h
  have raises (i : Instr) (hf : i.isCommand = false) (op : Byte) (l : List Byte) (bytes : encode i ++ [] = op :: l) :
      RaisesEffect s i (.illegalCommand op) 18 := exec_frame s h i hf op l [] bytes
  refine ⟨raises _ rfl _ _ rfl, raises _ rfl _ _ rfl, raises _ rfl _ _ rfl, raises _ rfl _ _ rfl, fun w a p => ?_⟩
  rw [← dataHeader_eq]
  exact raises _ rfl _ _ rfl

/-- Settles O10: an unlisted byte is raised, alone or as a frame's first byte; a command the bytes end inside of
is truncated; and nothing left is the end of the stream. -/
theorem badStreamsAreRaised : Obligations.BadStreamsAreRaised := by
  intro s h
  refine ⟨fun op rest left unlisted => ?_, fun i n hc hw pos proper left => ?_, fun left => ?_⟩
  · obtain ⟨i, r, frame, decoded⟩ | ⟨-, decoded⟩ := decode_of_not_opcode op rest unlisted
    · obtain ⟨isFrame, -, bytes, -⟩ := decodeFrame_instr op rest r i frame
      rw [stepRunsTheDecodedInstruction s i r h (left ▸ decoded)]
      exact exec_frame s h.accepts i isFrame op _ _ bytes
    · exact step_of_illegal s h op (left ▸ decoded)
  · obtain ⟨-, op, l, first, -⟩ := encoding_statement i hw
    obtain ⟨k, rfl⟩ : ∃ k, n = k + 1 := ⟨n - 1, by omega⟩
    have split : encode i = op :: (l.take k ++ l.drop k) := by rw [List.take_append_drop, first]
    have more : l.drop k ≠ [] := by
      rw [first, List.length_cons] at proper
      rw [Ne, List.drop_eq_nil_iff]; omega
    have listed := opcode_of_encode i hc hw op _ [] (by rw [List.append_nil, first])
    refine step_of_truncated s h ?_
    rw [left, first, List.take_succ_cons, decode_of_opcode op _ listed]
    exact decodeCommand_truncated i hc hw op _ _ more split
  · exact step_of_endOfStream s h (by rw [left]; rfl)

/-! ## Words written out -/

/-- Settles O6: the decoder run on the words of vectors V48 and V51. -/
theorem writtenOutWordsDecode : Obligations.WrittenOutWordsDecode := by
  unfold Obligations.WrittenOutWordsDecode
  decide

end Sys2Proof

/-! SUPPORT. The proofs about register access: `INIT`, the three pin function commands, and the state a reset sequence
leaves. -/

namespace Sys2Proof.Machine

/-! ## The reset sequence -/

/-- A reset sequence sets the counters it uses, so a second one leaves the working registers as the first did. -/
theorem resetSeq_work_fixed (s t : State) (hc : t.cfg = s.cfg) (hw : t.work = s.resetSeq.work) :
    t.resetSeq.work = s.resetSeq.work := by
  rw [resetSeq_work, hw, hc, resetSeq_work]

/-- `RESET_SEQ` as one update of the state (R141, R147). -/
theorem resetSeq_retire_eq (s : State) :
    s.resetSeq.retire lenH0 = { s with
      fsel := s.resetSeq.fsel, latch := s.resetSeq.latch, work := s.resetSeq.work
      trace := s.trace ++ resetEvents s.cfg s.fsel, pc := s.pc + 1, pos := s.pos + 1 } := by
  rw [← resetSeq_trace, resetSeq_only]
  rfl

/-- Settles O23: the pins a reset sequence leaves are those of `afterResetSeq_of`, and a second one leaves the function
registers, the latches and the working registers as the first did. -/
theorem resetSequenceEndState : Obligations.ResetSequenceEndState := by
  intro s h hm hv
  have cfg : (s.resetSeq.retire lenH0).cfg = s.cfg := resetSeq_cfg s
  have accepts : (s.resetSeq.retire lenH0).Accepts :=
    ⟨(resetSeq_halted s).trans h.not_halted, (resetSeq_hung s).trans h.not_hung⟩
  refine ⟨s.resetSeq.retire lenH0, exec_resetSeq s h hm, afterResetSeq_of s _ hv cfg rfl rfl, resetSeq_retire_eq s, ?_⟩
  rw [exec_resetSeq _ accepts ((resetSeq_mapped s).trans hm), resetSeq_retire_eq (s.resetSeq.retire lenH0),
    resetSeq_fsel_fixed s _ hv cfg rfl, resetSeq_latch_fixed s _ cfg rfl, resetSeq_work_fixed s _ cfg rfl]
  rfl

/-! ## The pin function commands -/

/-- A command of `n` bytes that passes its checks and writes one function field (R120). -/
theorem pinFnEffect_of_setFn (s : State) (i : Instr) (p : Nat) (f : PinFn) (n : Nat)
    (h : exec i s = .next ((s.setFn p f).retire n)) : PinFnEffect s i p f n := by
  refine ⟨withField (s.fselAt (fselReg p)) p (s.cfg.codes.of f), h, fieldOf_withField_self .., fun b hb outside => ?_⟩
  rw [withField_getLsbD _ _ _ _ hb, if_neg (by unfold fselShift; omega)]
  rfl

/-- Settles O19: each of the eight commands passes its checks and is one `setFn`. -/
theorem pinFunctionIsWritten : Obligations.PinFunctionIsWritten := by
  intro s pin h hm _ hpin
  have writes (i : Instr) (f : PinFn) (n : Nat)
      (hi : exec i s = accept s (s.needsWindow (s.needsPin pin ((s.setFn pin.toNat f).retire n)))) :
      PinFnEffect s i pin.toNat f n :=
    pinFnEffect_of_setFn s i _ f n (by rw [hi, accept_needsWindow s _ h hm, needsPin_legal s _ pin hpin])
  exact ⟨writes _ _ _ rfl, writes _ _ _ rfl, writes _ _ _ rfl, writes _ _ _ rfl, writes _ _ _ rfl, writes _ _ _ rfl,
    writes _ _ _ rfl, writes _ _ _ rfl⟩

/-! ## `INIT` -/

/-- The mapping answer is the queued one where there is one (R121, log entry 2). -/
theorem nextMap_of_queue (s : State) (b : Bool) (q : List Bool) (h : s.env.mapOk = b :: q) : s.nextMap = b := by
  rw [State.nextMap, h, List.headD_cons]

/-- Settles O18: the answer is the environment's next one, and `mapWindow_eq` is the update it makes. -/
theorem initSetsMapped : Obligations.InitSetsMapped := by
  intro s h
  refine ⟨s.nextMap, fun b q hq => nextMap_of_queue s b q hq, ?_⟩
  rw [exec, execInit, accept_of_ready s _ h.not_halted h.not_hung, mapWindow_eq]
  rfl

end Sys2Proof.Machine

/-! SUPPORT. The proofs about the transfer engine: a transfer that stops at its first failed submission, one
that succeeds, one of no bytes, and one that stops at its first failed configuration step. -/

namespace Sys2Proof.Machine

/-! ## What step 5 leaves as it found it -/

/-- The state between the submissions and the close, apart from what the submissions write: the pins of the first reset
sequence, the configured serial registers, and the rest as the command found it. -/
structure State.Submitting (s t : State) : Prop where
  kept : KeptByTransfer s t
  fsel : t.fsel = s.resetSeq.fsel
  latch : t.latch = s.resetSeq.latch
  spiMode : t.spiMode = 0
  spiBits : t.spiBits = 8
  spiSpeed : t.spiSpeed = 2000000
  cause : t.cause = s.cause
  pc : t.pc = s.pc
  pos : t.pos = s.pos
  hung : t.hung = s.hung

/-- Step 5 writes the table, the receive buffer, the working registers, the trace and the queues only. -/
theorem State.Submitting.of_only {s t : State} {n : Nat}
    (h : t = { s.configured with desc := t.desc, descCnt := n, rxbuf := t.rxbuf, work := t.work,
                                 trace := t.trace, env := t.env }) : s.Submitting t := by
  rw [h]
  constructor <;> simp only [KeptByTransfer, State.configured, and_self]

theorem configured_trace (s : State) :
    s.configured.trace = s.trace ++ (resetEvents s.cfg s.fsel ++ openEvents) := rfl

/-! ## A submission that fails -/

/-- A failed submission is followed by the close and the `error` outcome (R176). -/
theorem transfer_of_fail (s t : State) (len : Nat) (h : s.DeviceAnswers)
    (hsub : s.configured.submitted len = (t, .fail)) :
    s.transfer len = (t.close.fail causeXfer).retire lenHN := by
  rw [transfer_configured s len h, transferData_eq, hsub]

/-- Settles O29: step 5 stops at descriptor `k`, and the close and the `error` outcome change nothing that it did. -/
theorem failedSubmissionClosesTheDevice : Obligations.FailedSubmissionClosesTheDevice := by
  intro s len k haccepts hm hv hlen hdev hk hseg hrx
  have hl : len.toNat ≤ 65536 := le_trans hlen (Nat.min_le_left ..)
  obtain ⟨u, rs, hsub, only, -, short, sent, trace, below, above⟩ :=
    submitted_stops s len.toNat k .fail nofun hl hk hseg hrx
  have hexec := exec_transfer s len haccepts hm hlen
  rw [transfer_of_fail s u _ hdev hsub] at hexec
  have same := State.Submitting.of_only only
  have pins : AfterResetSeq s ((u.close.fail causeXfer).retire lenHN) :=
    afterResetSeq_of s _ hv same.kept.1 same.fsel same.latch
  refine ⟨_, rs, hexec, short, sent, below, above, ?_, rfl, rfl, rfl, rfl, same.hung.trans haccepts.not_hung,
    same.spiMode, same.spiBits, same.spiSpeed, congrArg (· + 1) same.pc, congrArg (· + 5) same.pos, pins, same.kept⟩
  rw [State.retire_trace, State.fail_trace, State.close_trace, trace, configured_trace]
  simp only [List.append_assoc, List.cons_append]

/-! ## A transfer that succeeds -/

/-- When every submission succeeds, step 5 exchanges all the bytes (R162, R174, R175). -/
theorem submitted_all (s : State) (len : Nat) (hl : len ≤ 65536)
    (hseg : s.env.seg.take (descCount len) = List.replicate (descCount len) .ok) (hrx : len ≤ s.env.rx.length) :
    ∃ t : State, s.configured.submitted len = (t, .ok) ∧ s.Submitting t ∧
      t.trace = s.configured.trace ++ chunksEvents s len (descCount len) ∧
      ∀ i, Memory.read t.rxbuf i = if i < len then s.env.rx[i]? else Memory.read s.rxbuf i := by
  have plan : s.env.seg = List.replicate (descCount len) .ok ++ s.env.seg.drop (descCount len) := by
    rw [← hseg, List.take_append_drop]
  obtain ⟨t, run, only, -, -, -, -, trace, read⟩ :=
    configured_run s len (descCount len) hl le_rfl _ plan ((descCount_end len).symm ▸ hrx)
  rw [descCount_end] at read
  exact ⟨t, run 0, .of_only only, trace, read⟩

/-- A transfer whose submissions all succeed ends with the close and the second reset sequence (R179). -/
theorem transfer_of_ok (s t : State) (len : Nat) (h : s.DeviceAnswers)
    (hsub : s.configured.submitted len = (t, .ok)) :
    s.transfer len = (t.close.resetSeq.setResult 0).retire lenHN := by
  rw [transfer_configured s len h, transferData_eq, hsub]

/-- Settles O26: step 5 exchanges the buffer, and the second reset sequence leaves the pins as the first did. -/
theorem transferExchangesTheBuffer : Obligations.TransferExchangesTheBuffer := by
  intro s len haccepts hm hv hlen hdev hseg hrx
  have hl : len.toNat ≤ 65536 := le_trans hlen (Nat.min_le_left ..)
  obtain ⟨u, hsub, same, trace, read⟩ := submitted_all s len.toNat hl hseg hrx
  have hexec := exec_transfer s len haccepts hm hlen
  rw [transfer_of_ok s u _ hdev hsub] at hexec
  have only := resetSeq_only u.close
  have cfg : u.close.cfg = s.cfg := same.kept.1
  have fsel : u.close.resetSeq.fsel = s.resetSeq.fsel := resetSeq_fsel_fixed s u.close hv cfg same.fsel
  have latch : u.close.resetSeq.latch = s.resetSeq.latch := resetSeq_latch_fixed s u.close cfg same.latch
  have events : u.close.resetSeq.trace = s.trace ++ (resetEvents s.cfg s.fsel ++ (openEvents ++
      (chunksEvents s len.toNat (descCount len.toNat) ++
        (.spiClose :: resetEvents s.cfg u.close.resetSeq.fsel)))) := by
    rw [resetSeq_trace, cfg, fsel, State.close_fsel, same.fsel, State.close_trace, trace, configured_trace]
    simp only [List.append_assoc, List.singleton_append]
  generalize u.close.resetSeq = v at *
  rw [only] at hexec
  exact ⟨_, hexec, read, events, rfl, same.cause, same.spiMode, same.spiBits, same.spiSpeed, rfl, rfl,
    same.hung.trans haccepts.not_hung, congrArg (· + 1) same.pc, congrArg (· + 5) same.pos,
    afterResetSeq_of s _ hv cfg fsel latch, same.kept⟩

/-! ## A transfer of no bytes -/

/-- From `s` to `t` no descriptor is submitted, no byte exchanged and no receive byte written. -/
structure State.NoExchange (s t : State) : Prop where
  rxbuf : t.rxbuf = s.rxbuf
  trace : ∃ es, t.trace = s.trace ++ es ∧ ∀ e ∈ es, e.isExchange = false

section
variable {s t u : State}

theorem State.NoExchange.trans (h : s.NoExchange t) (g : t.NoExchange u) : s.NoExchange u := by
  obtain ⟨es, htrace, hes⟩ := h.trace
  obtain ⟨fs, gtrace, hfs⟩ := g.trace
  refine ⟨g.rxbuf.trans h.rxbuf, es ++ fs, by rw [gtrace, htrace, List.append_assoc], fun e he => ?_⟩
  exact (List.mem_append.1 he).elim (hes e) (hfs e)

theorem State.NoExchange.of_same (rxbuf : t.rxbuf = s.rxbuf) (trace : t.trace = s.trace) : s.NoExchange t :=
  ⟨rxbuf, [], by rw [trace, List.append_nil], by simp⟩

theorem State.NoExchange.emits (e : Event) (he : e.isExchange = false) (rxbuf : t.rxbuf = s.rxbuf)
    (trace : t.trace = s.trace ++ [e]) : s.NoExchange t :=
  ⟨rxbuf, [e], trace, fun _ h => List.mem_singleton.1 h ▸ he⟩

end

/-- No event is both a window write and one of step 5. -/
theorem not_isExchange_of_isWrite (e : Event) (h : e.isWrite = true) : e.isExchange = false := by
  cases e with
  | gpioW _ _ => rfl
  | _ => exact absurd h Bool.false_ne_true

theorem not_isExchange_of_mem_pulseTrainEvents (c : Config) (e : Event) (he : e ∈ pulseTrainEvents c) :
    e.isExchange = false := by
  rw [pulseTrainEvents, List.mem_cons, List.mem_flatten] at he
  obtain rfl | ⟨pulse, hpulse, he⟩ := he
  · rfl
  · rw [List.eq_of_mem_replicate hpulse] at he
    simp only [List.mem_cons, List.not_mem_nil, or_false] at he
    obtain rfl | rfl | rfl | rfl := he <;> rfl

/-- A reset sequence makes window writes and busy-waits only (R147). -/
theorem not_isExchange_of_mem_resetEvents (c : Config) (f : Vector Word 6) (e : Event) (he : e ∈ resetEvents c f) :
    e.isExchange = false := by
  simp only [resetEvents, List.mem_append] at he
  obtain (he | he) | he := he
  · exact not_isExchange_of_isWrite e (isWrite_of_mem_fselEvents _ _ _ e he)
  · exact not_isExchange_of_mem_pulseTrainEvents c e he
  · exact not_isExchange_of_isWrite e (isWrite_of_mem_fselEvents _ _ _ e he)

theorem resetSeq_noExchange (s : State) : s.NoExchange s.resetSeq :=
  ⟨resetSeq_rxbuf s, _, resetSeq_trace s, not_isExchange_of_mem_resetEvents _ _⟩

theorem close_noExchange (s : State) : s.NoExchange s.close := .emits _ rfl s.close_rxbuf s.close_trace

theorem cfgEffect_noExchange (s : State) (i : Nat) : s.NoExchange (s.cfgEffect i) := by
  unfold State.cfgEffect
  split_ifs <;> exact .of_same rfl rfl

theorem cfgSpoil_noExchange (s : State) (i : Nat) : s.NoExchange (s.cfgSpoil i) := by
  unfold State.cfgSpoil
  split_ifs <;> exact .of_same rfl rfl

theorem configure_noExchange (is : List Nat) (s : State) : s.NoExchange (s.configure is).1 := by
  induction is generalizing s with
  | nil => exact .of_same rfl rfl
  | cons i is ih =>
    cases h : s.nextCfg with
    | true =>
      rw [configure_step_ok s i is h]
      have answered : s.NoExchange (s.tookCfg.emit (.spiCfg i true)) := .emits _ rfl rfl rfl
      exact (answered.trans (cfgEffect_noExchange _ i)).trans (ih _)
    | false =>
      rw [configure_step_fails s i is h]
      have answered : s.NoExchange (s.tookCfg.emit (.spiCfg i false)) := .emits _ rfl rfl rfl
      exact answered.trans (cfgSpoil_noExchange _ i)

/-- A table of no entries is submitted at once (R180). -/
theorem transferData_zero (s : State) :
    s.transferData 0 = ((s.ready 0).close.resetSeq.setResult 0).retire lenHN := by
  have submitted : s.submitted 0 = (s.ready 0, .ok) := submit_zero _
  rw [transferData_eq, submitted]

theorem transferOpened_zero_noExchange (s : State) : s.NoExchange (s.transferOpened 0) := by
  refine (configure_noExchange cfgSteps s).trans ?_
  unfold State.transferOpened
  dsimp only
  split
  · rw [transferData_zero]
    have built : State.NoExchange (s.configure cfgSteps).1 ((s.configure cfgSteps).1.ready 0) :=
      .of_same (by rw [ready_only]) (by rw [ready_only])
    exact ((built.trans (close_noExchange _)).trans (resetSeq_noExchange _)).trans (.of_same (by simp) (by simp))
  · exact (close_noExchange _).trans (.of_same (by simp) (by simp))

/-- Whatever the environment answers, `TRANSFER 0` makes no exchange (R180). -/
theorem transfer_zero_noExchange (s : State) : s.NoExchange (s.transfer 0) := by
  refine (resetSeq_noExchange s).trans ?_
  unfold State.transfer
  dsimp only
  have answered : s.resetSeq.NoExchange (s.resetSeq.tookOpen.emit (.spiOpen s.resetSeq.nextOpen)) :=
    .emits (.spiOpen s.resetSeq.nextOpen) rfl (by simp) (by simp)
  refine answered.trans ?_
  split
  · exact State.NoExchange.trans (.of_same (by simp) (by simp)) (transferOpened_zero_noExchange _)
  · exact .of_same (by simp) (by simp)

/-- Settles O31: no part of `TRANSFER 0` makes an exchange, and where the environment answers well its events are those
of a transfer that succeeds with no descriptor. -/
theorem emptyTransfer : Obligations.EmptyTransfer := by
  intro s haccepts hm hv
  have hlen : (0 : Word).toNat ≤ min 65536 s.cfg.capacity := Nat.zero_le _
  have hexec := exec_transfer s 0 haccepts hm hlen
  obtain ⟨rxbuf, es, trace, quiet⟩ := transfer_zero_noExchange s
  refine ⟨s.transfer 0, es, hexec, rxbuf, trace, quiet, fun hdev => ?_⟩
  obtain ⟨t, hexec', -, events, result, -⟩ :=
    transferExchangesTheBuffer s 0 haccepts hm hv hlen hdev rfl (Nat.zero_le _)
  obtain rfl : s.transfer 0 = t := by rw [hexec] at hexec'; injection hexec'
  exact ⟨result, List.append_cancel_left (trace.symm.trans events)⟩

/-! ## A configuration step that fails -/

/-- The state after the first `i` configuration steps, when the environment lets them succeed (R166). -/
def State.configuredTo (s : State) (i : Nat) : State :=
  { s with
    spiMode := if 1 ≤ i then 0 else s.spiMode
    spiBits := if 1 ≤ i then 8 else s.spiBits
    spiSpeed := if 3 ≤ i then 2000000 else s.spiSpeed
    trace := s.trace ++ (List.range i).map (Event.spiCfg · true)
    env := { s.env with cfgOk := s.env.cfgOk.drop i, drawn := s.env.drawn + i } }

theorem configuredTo_zero (s : State) : s.configuredTo 0 = s := by
  ext1 <;> simp [State.configuredTo]

/-- The answer to the next configuration step, where the queue lists it. -/
theorem configuredTo_nextCfg (s : State) (i : Nat) (b : Bool) (h : s.env.cfgOk[i]? = some b) :
    (s.configuredTo i).nextCfg = b := by
  simp [State.nextCfg, State.configuredTo, List.headD_eq_head?_getD, h]

/-- One more configuration step that succeeds: steps 0 and 2 write, steps 1 and 3 only read (R166). -/
theorem configuredTo_succ (s : State) (i : Nat) (hi : i < 4) :
    ((s.configuredTo i).tookCfg.emit (.spiCfg i true)).cfgEffect i = s.configuredTo (i + 1) := by
  interval_cases i <;> simp [State.cfgEffect, State.configuredTo, State.emit, State.tookCfg, spiModeVal, spiBitsVal,
    spiSpeedVal, List.range_succ, ← List.drop_one]

theorem cfgSteps_drop (i : Nat) (hi : i < 4) : cfgSteps.drop i = i :: cfgSteps.drop (i + 1) := by
  interval_cases i <;> rfl

/-- The configuration after its first `i` steps succeeded (R166). -/
theorem configure_after (s : State) (i : Nat) (hi : i ≤ 4) (ok : ∀ j < i, s.env.cfgOk[j]? = some true) :
    s.configure cfgSteps = (s.configuredTo i).configure (cfgSteps.drop i) := by
  induction i with
  | zero => rw [configuredTo_zero, List.drop_zero]
  | succ i ih =>
    rw [ih (by omega) fun j hj => ok j (by omega), cfgSteps_drop i (by omega),
      configure_step_ok _ _ _ (configuredTo_nextCfg s i true (ok i (by omega))), configuredTo_succ s i (by omega)]

/-- A failed step spoils no register but those it writes, and no event (R169). -/
theorem cfgSpoil_keeps (s : State) (i : Nat) :
    (s.cfgSpoil i).trace = s.trace ∧
      (1 ≤ i → (s.cfgSpoil i).spiMode = s.spiMode ∧ (s.cfgSpoil i).spiBits = s.spiBits) ∧
      (i ≠ 2 → (s.cfgSpoil i).spiSpeed = s.spiSpeed) := by
  unfold State.cfgSpoil
  split_ifs <;> simp <;> omega

/-- Step 3 when step `i` is the first that fails: the events up to it, and the registers that the earlier steps wrote
(R166, R168). -/
theorem configure_fails (s : State) (i : Nat) (hi : i < 4) (ok : ∀ j < i, s.env.cfgOk[j]? = some true)
    (bad : s.env.cfgOk[i]? = some false) :
    ∃ t : State, s.configure cfgSteps = (t, false) ∧
      t.trace = s.trace ++ ((List.range i).map (Event.spiCfg · true) ++ [.spiCfg i false]) ∧
      (1 ≤ i → t.spiMode = 0 ∧ t.spiBits = 8) ∧ (3 ≤ i → t.spiSpeed = 2000000) ∧
      (i ≤ 1 → t.spiSpeed = s.spiSpeed) := by
  obtain ⟨trace, regs, speed⟩ := cfgSpoil_keeps ((s.configuredTo i).tookCfg.emit (.spiCfg i false)) i
  refine ⟨((s.configuredTo i).tookCfg.emit (.spiCfg i false)).cfgSpoil i, ?_, ?_, fun h => ?_, fun h => ?_,
    fun h => ?_⟩
  · rw [configure_after s i hi.le ok, cfgSteps_drop i hi,
      configure_step_fails _ _ _ (configuredTo_nextCfg s i false bad)]
  · rw [trace]
    simp [State.configuredTo]
  · obtain ⟨mode, bits⟩ := regs h
    rw [mode, bits]
    exact ⟨if_pos h, if_pos h⟩
  · rw [speed (by omega)]
    exact if_pos h
  · rw [speed (by omega)]
    exact if_neg (by omega)

/-- The state in which the configuration begins, when the environment lets the open succeed (R165). -/
def State.opened (s : State) : State := (s.resetSeq.tookOpen.emit (.spiOpen true)).setSpiOpen true

/-- A failed configuration step is followed by the close and the `error` outcome (R168). -/
theorem transfer_of_cfgFail (s t : State) (len : Nat) (h : s.env.openOk.head? = some true)
    (hcfg : s.opened.configure cfgSteps = (t, false)) : s.transfer len = (t.close.fail causeCfg).retire lenHN := by
  have opens := nextOpen_of_head s true h
  have ends : s.opened.transferOpened len = (t.close.fail causeCfg).retire lenHN := by
    unfold State.transferOpened
    rw [hcfg]
    rfl
  unfold State.transfer
  dsimp only
  rw [if_pos opens, opens]
  exact ends

/-- Settles O28: step 3 stops at step `i`, and the close and the `error` outcome change nothing that it did. -/
theorem failedConfigurationClosesTheDevice : Obligations.FailedConfigurationClosesTheDevice := by
  intro s len i haccepts hm hv hlen hopen hi hcfg
  have answer (j : Nat) (hj : j < i + 1) : s.opened.env.cfgOk[j]? = (List.replicate i true ++ [false])[j]? := by
    rw [← hcfg, List.getElem?_take_of_lt hj]
    simp [State.opened]
  obtain ⟨u, hu, trace, regs, speed, speed'⟩ := configure_fails s.opened i hi
    (fun j hj => by simp [answer j (by omega), List.getElem?_append_left, hj])
    (by simp [answer i (by omega)])
  have hexec := exec_transfer s len haccepts hm hlen
  rw [transfer_of_cfgFail s u _ hopen hu] at hexec
  have only := configure_only cfgSteps s.opened
  rw [hu] at only
  dsimp only at only
  obtain ⟨fsel, latch, rxbuf, pc, pos, hung⟩ : u.fsel = s.resetSeq.fsel ∧ u.latch = s.resetSeq.latch ∧
      u.rxbuf = s.rxbuf ∧ u.pc = s.pc ∧ u.pos = s.pos ∧ u.hung = s.hung := by
    rw [only]
    simp [State.opened]
  have kept : KeptByTransfer s u := by
    rw [only]
    simp [KeptByTransfer, State.opened]
  refine ⟨_, hexec, rfl, rfl, rfl, rfl, rxbuf, hung.trans haccepts.not_hung, ?_, regs, speed, fun h => ?_,
    congrArg (· + 1) pc, congrArg (· + 5) pos, afterResetSeq_of s _ hv kept.1 fsel latch, kept⟩
  · rw [State.retire_trace, State.fail_trace, State.close_trace, trace]
    simp [State.opened, resetSeq_trace]
  · exact (speed' h).trans (by simp [State.opened])

end Sys2Proof.Machine

/-! SUPPORT. The proofs about the frame encoder: what each encoder command does, the capacity rule, the markers, a data
frame at the boundary, the frame of every encoder command, and the message after `CLEAR`. -/

namespace Sys2Proof.Machine

/-! ## The bits of a byte -/

/-- The palindromes among the bytes (R195). -/
theorem rev8_eq_self_iff (b : Byte) :
    rev8 b = b ↔ b ∈ ([0x00, 0x18, 0x24, 0x3C, 0x42, 0x5A, 0x66, 0x7E,
      0x81, 0x99, 0xA5, 0xBD, 0xC3, 0xDB, 0xE7, 0xFF] : List Byte) := by
  revert b; decide

/-- Exchanging nibbles, then bit pairs, then neighbouring bits reverses a byte (R195). -/
theorem rev8_eq_masks (b b1 b2 : Byte) (h1 : b1 = ((b &&& 0xF0) >>> 4 ||| (b &&& 0x0F) <<< 4))
    (h2 : b2 = ((b1 &&& 0xCC) >>> 2 ||| (b1 &&& 0x33) <<< 2)) :
    rev8 b = ((b2 &&& 0xAA) >>> 1 ||| (b2 &&& 0x55) <<< 1) := by
  subst h2 h1
  refine BitVec.eq_of_getLsbD_eq fun i hi => ?_
  rw [rev8_getLsbD b i hi]
  interval_cases i <;> simp

/-- Settles O7: bit by bit and the involution for every byte, the finite facts by their own lemmas. -/
theorem rev8ReversesTheBits : Obligations.Rev8ReversesTheBits := fun b =>
  ⟨rev8_getLsbD b, rev8_rev8 b, rev8_eq_self_iff b, rev8_eq_masks b, rfl, rfl, rfl⟩

/-! ## What an encoder command does -/

/-- The state an encoder command leaves before the position moves past it; other rows leave it alone. -/
def State.encoderEffect (s : State) : Instr → State
  | .clear => s.clearLen
  | .append _ data => s.append data
  | .appendRev _ data => s.appendRev data
  | .emitBreak => s.append [opBreak]
  | .emitFsync => s.append [opFsync]
  | .emitFasync n => s.emitLoop opFasync n.toNat
  | .emitNop n => s.emitLoop opNop n.toNat
  | .emitData addr len payload => s.emitFrame addr len.toNat payload
  | _ => s

theorem exec_encoder {s : State} (hs : s.Accepts) {i : Instr} (hi : isEncoder i = true) :
    exec i s = .next ((s.encoderEffect i).retire i.byteLength) := by
  have taken (t : State) : accept s t = .next t := accept_of_ready s t hs.not_halted hs.not_hung
  cases i with
  | clear | append | appendRev | emitBreak | emitFsync | emitFasync | emitNop | emitData => exact taken _
  | _ => cases hi

/-- The frame of the encoder's part of a command: the buffer, its length and `REP_I` (R210). -/
theorem encoderEffect_only (s : State) (i : Instr) :
    ∃ m n r, s.encoderEffect i = { s with txbuf := m, txlen := n, work := { s.work with repI := r } } := by
  cases i with
  | append | appendRev | emitBreak | emitFsync => exact ⟨_, _, _, append_only s _⟩
  | emitFasync | emitNop => exact ⟨_, _, _, emitLoop_only s _ _⟩
  | emitData => exact ⟨_, _, _, emitFrame_only s _ _ _⟩
  | _ => exact ⟨_, _, _, rfl⟩

/-- Settles O39: a halted block refuses every row, and `encoderEffect_only` is the frame of an encoder command. -/
theorem encoderTouchesOnlyItsBuffer : Obligations.EncoderTouchesOnlyItsBuffer := by
  intro s i hi
  refine ⟨fun halted => exec_of_accept s _ (fun _ => if_pos halted) i, fun hs => ⟨_, exec_encoder hs hi, ?_⟩⟩
  obtain ⟨m, n, r, only⟩ := encoderEffect_only s i
  rw [only]
  rfl

/-! ## One append -/

/-- A command of `n` bytes whose one append fits stores the bytes (R191). -/
theorem storesEffect_of_append {s : State} {i : Instr} {bs : List Byte} {n : Nat}
    (h : exec i s = .next ((s.append bs).retire n)) (fits : s.txlen + bs.length < s.cfg.capacity) :
    StoresEffect s i bs n := by
  rw [append_fits s bs fits] at h
  exact ⟨_, h, Memory.read_writeBytes bs s.txbuf s.txlen⟩

/-- A command of `n` bytes whose one append does not fit has no effect (R193). -/
theorem noEffect_of_append {s : State} {i : Instr} {bs : List Byte} {n : Nat}
    (h : exec i s = .next ((s.append bs).retire n)) (full : s.cfg.capacity ≤ s.txlen + bs.length) :
    NoEffect s i n := by
  rwa [append_dropped s bs full] at h

theorem append_nil (s : State) : s.append [] = s := by
  unfold State.append; split <;> rfl

/-- The last byte of the buffer is outside every append (R193). -/
theorem append_read_last (s : State) (bs : List Byte) :
    Memory.read (s.append bs).txbuf (s.cfg.capacity - 1) = Memory.read s.txbuf (s.cfg.capacity - 1) := by
  rw [append_read, if_neg (by omega)]

/-- Settles O33: the procedure by its length and its bytes, and each append command as one append. -/
theorem appendStoresAllOrNothing : Obligations.AppendStoresAllOrNothing := by
  refine ⟨fun s bs => ⟨append_dropped s bs, fun fits => ?_, append_read_last s bs, fun below => ?_, append_nil s⟩,
    fun s n data hs hlen => ?_⟩
  · rw [append_fits s bs fits]
  · rw [append_txlen]; split <;> assumption
  · have plain : exec (.append n data) s = .next ((s.append data).retire (5 + n.toNat)) := exec_encoder hs rfl
    have reversed : exec (.appendRev n data) s = .next ((s.append (data.map rev8)).retire (5 + n.toNat)) :=
      exec_encoder hs rfl
    rw [← hlen] at plain reversed ⊢
    have hlen' : (data.map rev8).length = data.length := List.length_map rev8
    refine ⟨fun fits => ⟨storesEffect_of_append plain fits, storesEffect_of_append reversed ?_⟩,
      fun full => ⟨noEffect_of_append plain full, noEffect_of_append reversed ?_⟩⟩
    · rwa [hlen']
    · rwa [hlen']

/-! ## The markers -/

/-- Settles O34: each single marker is one append of one byte. -/
theorem markersAreOneByte : Obligations.MarkersAreOneByte := by
  intro s hs
  have brk : exec .emitBreak s = .next ((s.append [0x04]).retire 1) := exec_encoder hs rfl
  have fsync : exec .emitFsync s = .next ((s.append [0x06]).retire 1) := exec_encoder hs rfl
  exact ⟨fun fits => ⟨storesEffect_of_append brk fits, storesEffect_of_append fsync fits⟩,
    fun full => ⟨noEffect_of_append brk full, noEffect_of_append fsync full⟩⟩

/-- Settles O35: both commands are the loop, whose length and bytes are those of `n` single-byte appends. -/
theorem repeatedMarkersFillToTheBoundary : Obligations.RepeatedMarkersFillToTheBoundary := by
  intro s n i b hs hi
  have hexec : exec i s = .next ((s.emitLoop b n.toNat).retire 5) := by
    obtain ⟨rfl, rfl⟩ | ⟨rfl, rfl⟩ := hi <;> exact exec_encoder hs rfl
  have length : (s.emitLoop b n.toNat).txlen = s.txlen + min n.toNat (s.cfg.capacity - 1 - s.txlen) :=
    emitCopies_txlen s b n.toNat
  refine ⟨_, hexec, length, fun fits => ?_, emitCopies_read s b n.toNat, ?_⟩
  · rw [State.retire_txlen, length]; omega
  · rw [emitLoop_only]; rfl

/-! ## A data frame -/

theorem validDataLen_iff (len : Nat) : validDataLen len = true ↔ 4 ≤ len ∧ len ≤ 128 ∧ len % 4 = 0 := by
  simp only [validDataLen, Bool.and_eq_true, decide_eq_true_eq, beq_iff_eq, and_assoc]
  rfl

theorem exec_emitData {s : State} (hs : s.Accepts) (addr : Half) (len : Word) (payload : List Byte) :
    exec (.emitData addr len payload) s = .next ((s.emitFrame addr len.toNat payload).retire (7 + len.toNat)) :=
  exec_encoder hs rfl

/-- Settles O37: the frame of an invalid length is nothing at all. -/
theorem invalidDataLengthIsRejected : Obligations.InvalidDataLengthIsRejected := by
  intro s addr len payload hs invalid
  have nothing : s.emitFrame addr len.toNat payload = s :=
    if_neg fun valid => by have := (validDataLen_iff _).1 valid; omega
  have hexec := exec_emitData hs addr len payload
  rwa [nothing] at hexec

/-- The header of a data frame as the spec writes it (R205, R207). -/
theorem dataFrameHeader_eq (addr : Half) (len : Nat) :
    dataFrameHeader addr len = [BitVec.ofNat 8 (len / 4 - 1) ||| 0xE0, (addr >>> 8).setWidth 8, addr.setWidth 8] := rfl

/-- A data frame of a valid length is two appends, the second of the whole payload (R205, R208). -/
theorem emitFrame_valid (s : State) (addr : Half) (len : Nat) (payload : List Byte) (hp : payload.length = len)
    (h4 : 4 ≤ len) (h128 : len ≤ 128) (hmod : len % 4 = 0) :
    s.emitFrame addr len payload = (s.append (dataFrameHeader addr len)).append (payload.map rev8) := by
  have whole : payload.take (wordLen * (len / wordLen)) = payload :=
    List.take_of_length_le (by rw [hp, wordLen]; omega)
  rw [State.emitFrame, if_pos ((validDataLen_iff len).2 ⟨h4, h128, hmod⟩), whole, State.appendRev]

theorem Memory.writeBytes_append (m : Memory) (a : Nat) (bs cs : List Byte) :
    Memory.writeBytes m a (bs ++ cs) = Memory.writeBytes (Memory.writeBytes m a bs) (a + bs.length) cs := by
  induction bs generalizing m a with
  | nil => rfl
  | cons b bs ih => rw [List.cons_append, Memory.writeBytes, ih, Memory.writeBytes, List.length_cons]; congr 1; omega

/-- Two appends with room for both are one append of both strings (R193). -/
theorem append_append_fits (s : State) (bs cs : List Byte) (fits : s.txlen + bs.length + cs.length < s.cfg.capacity) :
    (s.append bs).append cs = s.append (bs ++ cs) := by
  rw [append_fits s bs (by omega), append_fits _ cs fits, append_fits s _ (by rw [List.length_append]; omega),
    Memory.writeBytes_append, List.length_append, Nat.add_assoc]

/-- Of two appends the second is dropped where there is room for the first alone (R193). -/
theorem append_append_drops_second (s : State) (bs cs : List Byte) (fits : s.txlen + bs.length < s.cfg.capacity)
    (full : s.cfg.capacity ≤ s.txlen + bs.length + cs.length) : (s.append bs).append cs = s.append bs :=
  append_dropped _ cs (by rwa [append_cfg, append_txlen, if_pos fits])

/-- Where the first of two appends is dropped, so is a second that is no shorter (R193). -/
theorem append_append_drops_both (s : State) (bs cs : List Byte) (full : s.cfg.capacity ≤ s.txlen + bs.length)
    (le : bs.length ≤ cs.length) : (s.append bs).append cs = s := by
  rw [append_dropped s bs full, append_dropped s cs (by omega)]

/-- Settles O38: the first append decides the header, the second the payload; without room for the header there is none
for the payload either. -/
theorem dataFrameAtTheBoundary : Obligations.DataFrameAtTheBoundary := by
  intro s addr len payload hs hp h4 h128 hmod
  have hexec := exec_emitData hs addr len payload
  rw [emitFrame_valid s addr _ payload hp h4 h128 hmod] at hexec
  rw [← dataFrameHeader_eq]
  have hh : (dataFrameHeader addr len.toNat).length = 3 := rfl
  have hr : (payload.map rev8).length = len.toNat := (List.length_map rev8).trans hp
  refine ⟨fun fits => ?_, fun header full => ?_, fun full => ?_⟩
  · rw [append_append_fits s (dataFrameHeader ..) (payload.map rev8) (by rwa [hh, hr])] at hexec
    exact storesEffect_of_append hexec (by rwa [List.length_append, hh, hr, ← Nat.add_assoc])
  · rw [append_append_drops_second s (dataFrameHeader ..) (payload.map rev8) header (by rwa [hh, hr])] at hexec
    exact storesEffect_of_append hexec header
  · rwa [append_append_drops_both s (dataFrameHeader ..) (payload.map rev8) full (by omega)] at hexec

/-- The header byte of a frame of `k + 1` words is that of the wire encoding (R92, R207). -/
theorem dataHeader_ofNat (k : Nat) (hk : k < 32) : dataHeader (BitVec.ofNat 5 k) = BitVec.ofNat 8 k ||| 0xE0 := by
  rw [dataHeader_eq, BitVec.setWidth_ofNat_of_le_of_lt (by decide) hk]

/-- Settles O36: both appends fit, and header, address and payload are laid out as on the wire. -/
theorem dataFrameIsStored : Obligations.DataFrameIsStored := by
  intro s addr len payload hs hp h4 h128 hmod fits
  obtain ⟨stored, -⟩ := dataFrameAtTheBoundary s addr len payload hs hp h4 h128 hmod
  refine ⟨stored fits, ?_⟩
  rw [encode, dataHeader_ofNat _ (by omega), halfBytes_eq]
  rfl

/-! ## The message after `CLEAR` -/

/-- Two states of one capacity hold the same message: one length, and the same bytes below it (R32). -/
structure State.SameMessage (s u : State) : Prop where
  capacity : u.cfg.capacity = s.cfg.capacity
  txlen : u.txlen = s.txlen
  below : ∀ a, a < s.txlen → Memory.read u.txbuf a = Memory.read s.txbuf a

section
variable {s u : State}

theorem State.SameMessage.append (h : s.SameMessage u) (bs : List Byte) : (s.append bs).SameMessage (u.append bs) where
  capacity := by rw [append_cfg, append_cfg, h.capacity]
  txlen := by rw [append_txlen, append_txlen, h.capacity, h.txlen]
  below a ha := by
    rw [append_txlen] at ha
    rw [append_read, append_read, h.capacity, h.txlen]
    split
    · rfl
    · next outside => exact h.below a (by split at ha <;> omega)

theorem State.SameMessage.emitCopies (h : s.SameMessage u) (b : Byte) (n : Nat) :
    (s.emitCopies b n).SameMessage (u.emitCopies b n) := by
  induction n with
  | zero => exact h
  | succ n ih => exact ih.append [b]

theorem State.SameMessage.emitLoop (h : s.SameMessage u) (b : Byte) (n : Nat) :
    (s.emitLoop b n).SameMessage (u.emitLoop b n) :=
  have copies := h.emitCopies b n
  ⟨copies.capacity, copies.txlen, copies.below⟩

theorem State.SameMessage.emitFrame (h : s.SameMessage u) (addr : Half) (len : Nat) (payload : List Byte) :
    (s.emitFrame addr len payload).SameMessage (u.emitFrame addr len payload) := by
  unfold State.emitFrame
  split
  · exact (h.append _).append _
  · exact h

theorem State.SameMessage.retire (h : s.SameMessage u) (n : Nat) : (s.retire n).SameMessage (u.retire n) :=
  ⟨h.capacity, h.txlen, h.below⟩

/-- With the length at zero no byte of the buffer is part of the message (R190). -/
theorem State.SameMessage.of_clearLen (h : u.cfg.capacity = s.cfg.capacity) : s.clearLen.SameMessage u.clearLen :=
  ⟨h, rfl, fun _ ha => absurd ha (Nat.not_lt_zero _)⟩

/-- What an encoder command does to the message depends on the message alone. -/
theorem State.SameMessage.encoderEffect (h : s.SameMessage u) (i : Instr) :
    (s.encoderEffect i).SameMessage (u.encoderEffect i) := by
  cases i with
  | clear => exact .of_clearLen h.capacity
  | append | appendRev | emitBreak | emitFsync => exact h.append _
  | emitFasync | emitNop => exact h.emitLoop _ _
  | emitData => exact h.emitFrame _ _ _
  | _ => exact h

theorem State.Accepts.encoderEffect (h : s.Accepts) (i : Instr) : (s.encoderEffect i).Accepts := by
  obtain ⟨m, n, r, only⟩ := encoderEffect_only s i
  rw [only]
  exact ⟨h.not_halted, h.not_hung⟩

theorem State.Accepts.retire (h : s.Accepts) (n : Nat) : (s.retire n).Accepts := ⟨h.not_halted, h.not_hung⟩

theorem runAll_encoder (hs : s.Accepts) {i : Instr} (hi : isEncoder i = true) (is : List Instr) :
    runAll (i :: is) s = runAll is ((s.encoderEffect i).retire i.byteLength) := by
  rw [runAll, exec_encoder hs hi]

/-- Encoder commands run to their end, and from the same message they leave the same message. -/
theorem State.SameMessage.runAll {is : List Instr} (h : s.SameMessage u) (hs : s.Accepts) (hu : u.Accepts)
    (his : ∀ i ∈ is, isEncoder i = true) :
    ∃ t v, Machine.runAll is s = some t ∧ Machine.runAll is u = some v ∧ t.SameMessage v := by
  induction is generalizing s u with
  | nil => exact ⟨s, u, rfl, rfl, h⟩
  | cons i is ih =>
    obtain ⟨hi, his⟩ := List.forall_mem_cons.1 his
    rw [runAll_encoder hs hi, runAll_encoder hu hi]
    exact ih ((h.encoderEffect i).retire _) ((hs.encoderEffect i).retire _) ((hu.encoderEffect i).retire _) his

end

/-- Settles O40: after `CLEAR` any two states of one capacity hold the same message, the empty one. -/
theorem clearedBufferIsAFreshBuffer : Obligations.ClearedBufferIsAFreshBuffer := by
  refine ⟨rfl, fun s hs => exec_encoder hs rfl, fun s u is hs hu capacity his => ?_⟩
  rw [runAll_encoder hs rfl, runAll_encoder hu rfl]
  obtain ⟨t, v, ht, hv, same⟩ := State.SameMessage.runAll ((State.SameMessage.of_clearLen capacity).retire 1)
    ((hs.encoderEffect .clear).retire 1) ((hu.encoderEffect .clear).retire 1) his
  exact ⟨t, v, ht, hv, same.txlen.symm, fun a ha => (same.below a ha).symm⟩

end Sys2Proof.Machine

/-! SUPPORT. The proofs about the exceptions: what halts the block, the window check, the operand ranges, and an open
that fails. -/

namespace Sys2Proof.Machine

/-! ## The halt -/

/-- A row leaves `HALTED` as it was, or is a transfer whose open failed (R229). -/
theorem RowEffect.halted_or_openFails {s t : State} {i : Instr} (e : RowEffect s i t) :
    t.halted = s.halted ∨
      ∃ len, i = .transfer len ∧ t.cause = 2 ∧ t.trace.getLast? = some (.spiOpen false) := by
  cases e with
  | raises | setsFn | sets | clears | empties => exact .inl rfl
  | maps => rw [mapWindow_eq]; exact .inl rfl
  | resets => exact .inl (resetSeq_halted s)
  | transfers len _ hl =>
    obtain ⟨-, ended, -⟩ := transfer_ends s len.toNat (xferBound_le _ _ hl).1
    cases ended with
    | ran r =>
      cases r with
      | returned _ _ _ _ _ halted | hangs _ _ _ _ _ _ _ _ halted => exact .inl halted
    | fatal _ _ _ _ _ _ cause _ last => exact .inr ⟨len, rfl, cause, last⟩
  | appends => rw [append_only]; exact .inl rfl
  | repeats => rw [emitLoop_only]; exact .inl rfl
  | frames => rw [emitFrame_only]; exact .inl rfl

/-- Settles O12: a halted block takes no row, `halted_or_openFails` is the one way in, and a hardware reset the way out.
-/
theorem haltedIsTerminal : Obligations.HaltedIsTerminal := by
  refine fun s => ⟨fun halted => ⟨exec_of_accept s _ fun _ => if_pos halted, fun hr => step_of_halted s hr halted⟩,
    fun i t running hexec halted => ?_, fun hr => ⟨_, step_of_resetReq s hr, rfl⟩⟩
  obtain ⟨-, -, effect⟩ := exec_next i s t hexec
  refine effect.halted_or_openFails.resolve_left fun same => ?_
  rw [same, running] at halted
  cases halted

/-! ## The window check -/

/-- A window command's effect stands behind the window check (R122, R231). -/
theorem exec_window {i : Instr} (hi : needsMapping i = true) (s : State) :
    ∃ t, exec i s = accept s (s.needsWindow t) := by
  cases i with
  | pinInp | pinOut | pinAlt | pinSet | pinClr | resetSeq | transfer => exact ⟨_, rfl⟩
  | _ => cases hi

/-- Settles O15: the window check comes first, and neither the encoder's effect nor `INIT`'s writes the fault. -/
theorem unmappedAccessIsRaised : Obligations.UnmappedAccessIsRaised := by
  refine fun s i hs => ⟨fun unmapped hi => ?_, ?_⟩
  · obtain ⟨t, ht⟩ := exec_window hi s
    rw [RaisesEffect, ht, needsWindow_unmapped s t unmapped, accept_of_ready s _ hs.not_halted hs.not_hung]
    rfl
  · rintro (hi | rfl)
    · obtain ⟨m, n, r, only⟩ := encoderEffect_only s i
      refine ⟨_, exec_encoder hs hi, ?_⟩
      rw [only]
      exact ⟨rfl, rfl⟩
    · refine ⟨_, accept_of_ready s _ hs.not_halted hs.not_hung, ?_⟩
      rw [mapWindow_eq]
      exact ⟨rfl, rfl⟩

/-! ## The operand ranges -/

/-- A window command whose operand check fails raises that fault and changes nothing else (R230, R232). -/
theorem raisesEffect_of_window {s t : State} {i : Instr} {x : Raised} (hs : s.Accepts) (hm : s.mapped = true)
    (hi : exec i s = accept s (s.needsWindow t)) (ht : t = s.raise x) : RaisesEffect s i x x.code := by
  rw [RaisesEffect, hi, accept_needsWindow s t hs hm, ht]
  rfl

/-- No function has an alternate-function number above 5 (R125). -/
theorem altFn_eq_none (alt : Byte) (h : 5 < alt.toNat) : altFn alt = none := by
  have other (k : Byte) (hk : k.toNat ≤ 5) : alt ≠ k := fun e => by rw [e] at h; omega
  simp [altFn, other]

/-- Settles O16: each range check fails, whatever stands behind it. -/
theorem operandRangesAreChecked : Obligations.OperandRangesAreChecked := by
  refine fun s hs hm => ⟨fun len hlen => ?_, fun pin hpin => ?_, fun pin alt halt => ?_⟩
  · exact raisesEffect_of_window hs hm rfl (if_neg (Nat.not_le.2 hlen))
  · have illegal (t : State) : s.needsPin pin t = s.raise .illegalOperand := needsPin_illegal s t pin hpin
    exact ⟨raisesEffect_of_window hs hm rfl (illegal _), raisesEffect_of_window hs hm rfl (illegal _),
      fun alt => raisesEffect_of_window hs hm rfl (illegal _)⟩
  · refine raisesEffect_of_window hs hm rfl ?_
    rw [altFn_eq_none alt halt]
    exact ite_self _

/-! ## An open that fails -/

/-- A transfer whose open fails: the pre-transfer reset, the failed open, and the halt (R165, R229). -/
theorem transfer_of_openFails (s : State) (len : Nat) (h : s.env.openOk.head? = some false) :
    s.transfer len = { s with
      halted := true, cause := 2
      fsel := s.resetSeq.fsel, latch := s.resetSeq.latch, work := s.resetSeq.work, env := s.tookOpen.env
      trace := s.trace ++ (resetEvents s.cfg s.fsel ++ [.spiOpen false]) } := by
  have fails := nextOpen_of_head s false h
  unfold State.transfer
  dsimp only
  rw [fails, if_neg Bool.false_ne_true]
  ext1 <;> simp [resetSeq_trace, causeOpen]

/-- Settles O27: the transfer ends at the open, with the device closed as the invariant has it before the command. -/
theorem failedOpenHalts : Obligations.FailedOpenHalts := by
  intro s len hs hm inv hlen fails
  have hexec := exec_transfer s len hs hm hlen
  rw [transfer_of_openFails s _ fails] at hexec
  exact ⟨_, hexec, rfl, rfl, (inv.closed hs.not_hung).1, afterResetSeq_of s _ inv.cfg_valid rfl rfl rfl, rfl⟩

end Sys2Proof.Machine
